-- ==== Sys2Proof/Word.lean ====
section
/-!
DEFINITION. The words of the ports and the number type of the engine.

The ports carry frames of 64-bit words (30_encoding.md R80); a payload byte has 8 bits (R86) and a code 12
(44_frame_decoder.md R186).  Inside the block a sample is one indivisible number (20_memory.md R63).
-/

namespace Sys2Proof

/-- One 64-bit word of a port frame (30_encoding.md R80). -/
abbrev Word := BitVec 64

/-- One payload byte (10_state.md R33). -/
abbrev Byte := BitVec 8

/-- One 12-bit code (44_frame_decoder.md R186). -/
abbrev Code := BitVec 12

/-- A frame: a finite sequence of words whose length the receiver knows (30_encoding.md R80). -/
abbrev Frame := List Word

/-- A number of the machine's `NUM.T` (00_scope.md R14), held as its binary64 bit pattern (30_encoding.md R84).
DESIGN CHOICE (log 1): the machine's `NUM.T` is binary64; the numeric functions themselves are written over any `NUM`. -/
structure Binary64 where
  bits : Word
  deriving DecidableEq, Repr, Inhabited

end Sys2Proof
end

