-- ==== Sys2Proof/Config.lean ====
section
/-!
DEFINITION. What the platform fixes (00_scope.md R9, R10; 92_eei_decisions.md, open parameters) and the free values.

`CFG`, `SENTINEL`, `HAM`, `NUM` and `SYNC_BIAS` are parameters of every step (10_state.md R20).  They are plain data here,
and State holds them read-only (log 8), so that every statement about all states is one about all platforms.
The opaque constants are the values the spec leaves open: they have no body, so nothing can be proved of them.
-/

namespace Sys2Proof

/-- `CFG.SPACING` (00_scope.md R9): which of the two spacing rules is active. -/
inductive Spacing where
  | linear
  | geometric
  deriving DecidableEq, Repr

/-- The configuration `CFG` (00_scope.md R9, 10_state.md R29) over a number type: every field of type `NUM.T` is one. -/
structure Config (T : Type) where
  /-- `CFG.FS`, the sample rate. -/
  fs : T
  /-- `CFG.NP`, the payload length in bytes. -/
  np : Nat
  /-- `CFG.TW`, the word duration in seconds. -/
  tw : T
  /-- `CFG.F0`, the first frequency. -/
  f0 : T
  /-- `CFG.SPACING`. -/
  spacing : Spacing
  /-- `CFG.STEP`, the increment or the multiplier. -/
  step : T
  /-- `CFG.RATIO`, the peak-dominance ratio threshold. -/
  ratio : T
  /-- `CFG.TSNR`, the SNR decision threshold in dB. -/
  tsnr : T
  deriving DecidableEq, Repr

/-- The outcome of the Hamming decoder (44_frame_decoder.md R196), a condition code of one decode step (10_state.md R28 c). -/
inductive HamOutcome where
  | ok
  | correctedError
  | failCorrection
  deriving DecidableEq, Repr

/-- The collaborator `HAM` (44_frame_decoder.md R196): the reference instance of R199 and R200, or any total pair,
written out as its two tables.  DESIGN CHOICE (log 9). -/
inductive Ham where
  | reference
  | tables (henc : Vector Code 256) (hdec : Vector (Byte × HamOutcome) 4096)
  deriving DecidableEq, Repr

/-- The numerics record `NUM` over a number type (00_scope.md R14), with `ofBits` and `toBits` of the ports
(30_encoding.md R84).  `pow` takes a natural exponent, the only one the rules use (40_tone_table_geometry.md R106).
Beside the record of R14: `pi`, since R122, R212 and R213 use it; `floorMul` and `isFinite`, since R100 and R11 use
them (log 6). -/
structure Numerics (T : Type) where
  add : T → T → T
  sub : T → T → T
  mul : T → T → T
  div : T → T → T
  cos : T → T
  sin : T → T
  sqrt : T → T
  log10 : T → T
  pow : T → Nat → T
  le : T → T → Bool
  lt : T → T → Bool
  ofInt : Int → T
  max : T → T → T
  /-- `NUM.ofBits`: the number a port word denotes. -/
  ofBits : Word → T
  /-- `NUM.toBits`: the port word of a number. -/
  toBits : T → Word
  pi : T
  /-- The greatest integer that is at most the product of two numbers. -/
  floorMul : T → T → Int
  isFinite : T → Bool
  deriving Inhabited

/-- Which `NUM` the platform supplies over 64-bit patterns: correctly rounded binary64 (log 2), or an uninterpreted one
(93_implementation_defined.md U14, U15), the `k`-th.  DESIGN CHOICE (log 1). -/
inductive NumericsChoice where
  | binary64
  | supplied (k : Nat)
  deriving DecidableEq, Repr

/-- What the platform supplies before reset is released and holds constant (70_reset_and_hazards.md R282). -/
structure Platform where
  cfg : Config Binary64
  /-- `SENTINEL`, the byte the validation word must decode to (00_scope.md R10). -/
  sentinel : Byte
  ham : Ham
  /-- The choice of `NUM`; the record itself is `Platform.num`. -/
  numerics : NumericsChoice
  /-- `SYNC_BIAS`, the samples taken off the trigger index (00_scope.md R10). -/
  syncBias : Nat
  deriving DecidableEq, Repr

/-- The arithmetic operations of `NUM`, naming which free value an operation without a stated result takes. -/
inductive NumOp where
  | add
  | sub
  | mul
  | div
  | cos
  | sin
  | sqrt
  | log10
  deriving DecidableEq, Repr

/-- FREE VALUE (log 3): the result of an operation that has no finite binary64 result, by its operands' patterns.  What of it
stays free, `Rounded.pattern` and `asNumber` say; so for the next three. -/
opaque Config.freeNumber : NumOp → Word → Word → Word

/-- FREE VALUE (log 3): the power of a number, by its pattern and the whole exponent, where it has no finite binary64. -/
opaque Config.freePower : Word → Nat → Word

/-- FREE VALUE (log 3): the number of an integer that is out of the range of binary64. -/
opaque Config.freeInteger : Int → Word

/-- FREE VALUE (log 3): the floor of the product of two patterns of which one is no finite number. -/
opaque Config.freeFloor : Word → Word → Int

/-- FREE VALUE (log 3): the port word of a real that is out of the range of binary64. -/
opaque Config.freeRealWord : ℝ → Word

/-- FREE VALUE (log 3): the answer of a comparison (`true` for `le`, `false` for `lt`) of patterns that are no finite number. -/
opaque Config.freeCompare : Bool → Word → Word → Bool

/-- FREE VALUE (log 1): the numerics a platform may supply in place of correctly rounded binary64. -/
opaque Config.suppliedNumerics : Nat → Numerics Binary64

/-- FREE VALUE (log 17): the length field of a response too long for its 56 bits. -/
opaque Config.freeLengthField : Nat → BitVec 56

end Sys2Proof
end

