-- ==== Sys2Proof/Machine/Bits.lean ====
section
/-!
DEFINITION. Bit fields and byte packing of the port words (30_encoding.md R84, R86; 00_scope.md R13).
-/

namespace Sys2Proof.Machine

/-- The exponent field of a binary64 pattern, bits 62 to 52 (30_encoding.md R84). -/
def exponentField (w : Word) : Nat := w.toNat / 2 ^ 52 % 2 ^ 11

/-- A pattern is a value iff its exponent bits are not all set (30_encoding.md R84). -/
def isFiniteWord (w : Word) : Bool := exponentField w != 2047

/-- `ceil(m / 8)`, the words that carry `m` bytes (30_encoding.md R86). -/
def wordsForBytes (m : Nat) : Nat := (m + 7) / 8

/-- Byte `b[k]` of a packed sequence: bits `8 (k mod 8) + 7` to `8 (k mod 8)` of word `k div 8` (30_encoding.md R86). -/
def byteAt (ws : List Word) (k : Nat) : Byte := (ws.getD (k / 8) 0).extractLsb' (8 * (k % 8)) 8

/-- The first `m` bytes of a packed sequence (30_encoding.md R86). -/
def unpackBytes (ws : List Word) (m : Nat) : List Byte := (List.range m).map (byteAt ws)

/-- The bytes behind the first `m` are all 0 (30_encoding.md R86: unused high bytes of the last word). -/
def paddingIsZero (ws : List Word) (m : Nat) : Bool :=
  (List.range (8 * ws.length - m)).all fun j => byteAt ws (m + j) == 0

/-- The word whose bytes, from the least significant, are the first eight of `bs`, then zeros. -/
def packWord (bs : List Byte) : Word :=
  (List.range 8).foldr (fun i acc => (acc <<< 8) ||| (bs.getD i 0).setWidth 64) 0

/-- A byte sequence packed into `ceil(m / 8)` words, least significant byte first (30_encoding.md R86). -/
def packBytes (bs : List Byte) : List Word :=
  (List.range (wordsForBytes bs.length)).map fun j => packWord (bs.drop (8 * j))

end Sys2Proof.Machine
end

