-- ==== Sys2Proof/Machine/Binary64.lean ====
section
/-!
DEFINITION. Binary64 arithmetic, an instance of the numerics record `NUM` (00_scope.md R14; 30_encoding.md R84).

Every operation computes its exact result, or for `cos`, `sin` and `log10` an approximation to about 250 bits, and rounds
once to the nearest binary64, ties to even (PRESUMED: IEEE 754, log 2).  There is one zero (log 5).  Where the exact result
does not exist or is out of range, and where an operand is no finite number, the result is a free value, but a number; of a
result that is out of range its sign and its size are kept (log 3).
Everything here is natural-number arithmetic by structural recursion, so that the kernel can run it.
-/

namespace Sys2Proof.Machine

/-- A finite number taken apart: its value is `man * 2 ^ exp`, negated if `neg`. -/
structure Unpacked where
  neg : Bool
  man : Nat
  exp : Int
  deriving DecidableEq, Repr

/-- The value of a finite pattern (30_encoding.md R84). -/
def unpack (w : Word) : Unpacked :=
  let frac := w.toNat % 2 ^ 52
  let e := exponentField w
  let neg := w.toNat / 2 ^ 63 == 1
  if e = 0 then ⟨neg, frac, -1074⟩ else ⟨neg, frac + 2 ^ 52, (e : Int) - 1075⟩

/-- Round a mantissa off by `shift` bits, to nearest with ties to even; `sticky` says that something smaller was cut before. -/
def roundShift (man shift : Nat) (sticky : Bool) : Nat :=
  let q := man >>> shift
  let r := man % 2 ^ shift
  if 2 ^ shift < 2 * r ∨ (2 ^ shift = 2 * r ∧ (sticky = true ∨ q % 2 = 1)) then q + 1 else q

/-- What an operation on numbers comes to: the nearest binary64; a number beyond the range of binary64, of which the sign is
left; or nothing, where the operation has no result. -/
inductive Rounded where
  | nearest (w : Word)
  | beyond (neg : Bool)
  | undefined
  deriving DecidableEq, Repr

/-- Whether there is a nearest binary64. -/
def Rounded.inRange : Rounded → Bool
  | .nearest _ => true
  | .beyond _ => false
  | .undefined => false

/-- The free value `free` as a number: R84 calls no other pattern a value, and log 5 leaves one zero. -/
def asNumber (free : Word) : Word := if isFiniteWord free ∧ free ≠ 0x8000000000000000 then free else 0

/-- The free value `free` in place of a number beyond the range of binary64: it keeps the sign, and its size is in the
greatest binade, from `2 ^ 1023` on (log 3). -/
def beyondRange (neg : Bool) (free : Word) : Word :=
  BitVec.ofNat 64 ((if neg then 2 ^ 63 else 0) + 2046 * 2 ^ 52 + free.toNat % 2 ^ 52)

/-- The pattern of a result, with the free value `free` where it has no nearest binary64 (log 3). -/
def Rounded.pattern (free : Word) : Rounded → Word
  | .nearest w => w
  | .beyond neg => beyondRange neg free
  | .undefined => asNumber free

/-- The exponent of the last digit that a binary64 keeps of `man * 2 ^ exp`. -/
def gridExponent (man : Nat) (exp : Int) : Int := max (exp + (Nat.log2 man : Int) - 52) (-1074)

/-- The digits of `man * 2 ^ exp`, rounded to that last one. -/
def gridMan (man : Nat) (exp : Int) (sticky : Bool) : Nat :=
  if exp < gridExponent man exp then roundShift man (gridExponent man exp - exp).toNat sticky
  else man <<< (exp - gridExponent man exp).toNat

/-- The pattern of `q * 2 ^ e`, its sign apart. -/
def packGrid (q : Nat) (e : Int) : Nat :=
  if q < 2 ^ 52 then q else ((e + 1075).toNat <<< 52) + (q - 2 ^ 52)

/-- The binary64 nearest to `man * 2 ^ exp` (plus a cut remainder if `sticky`). -/
def roundPack (neg : Bool) (man : Nat) (exp : Int) (sticky : Bool) : Rounded :=
  if man = 0 then .nearest 0 else
    let pat := packGrid (gridMan man exp sticky) (gridExponent man exp)
    if 2047 * 2 ^ 52 ≤ pat then .beyond neg
    else if pat = 0 then .nearest 0
    else .nearest (BitVec.ofNat 64 (if neg then pat + 2 ^ 63 else pat))

/-- The pattern nearest to the integer `n` times `2 ^ exp`. -/
def roundInt (n : Int) (exp : Int) : Rounded := roundPack (decide (n < 0)) n.natAbs exp false

/-- The result of a binary operation: `r` of the operands' values, or a free value (log 3). -/
def f64Binary (op : NumOp) (r : Unpacked → Unpacked → Rounded) (a b : Binary64) : Binary64 :=
  match isFiniteWord a.bits && isFiniteWord b.bits with
  | true => ⟨(r (unpack a.bits) (unpack b.bits)).pattern (Config.freeNumber op a.bits b.bits)⟩
  | false => ⟨asNumber (Config.freeNumber op a.bits b.bits)⟩

/-- The result of a unary operation: `r` of the operand's value, or the free value of its pattern (log 3). -/
def f64Unary (free : Word → Word) (r : Unpacked → Rounded) (a : Binary64) : Binary64 :=
  match isFiniteWord a.bits with
  | true => ⟨(r (unpack a.bits)).pattern (free a.bits)⟩
  | false => ⟨asNumber (free a.bits)⟩

/-- The signed mantissa of `u` brought down to the exponent `e`, which is at most its own. -/
def alignedMan (u : Unpacked) (e : Int) : Int :=
  let m := u.man <<< (u.exp - e).toNat
  if u.neg then -(m : Int) else m

/-- The exact sum, rounded once. -/
def addRounded (u v : Unpacked) : Rounded :=
  let e := min u.exp v.exp
  roundInt (alignedMan u e + alignedMan v e) e

/-- The exact product. -/
def mulExact (u v : Unpacked) : Unpacked := ⟨u.neg != v.neg, u.man * v.man, u.exp + v.exp⟩

/-- The exact product, rounded once. -/
def mulRounded (u v : Unpacked) : Rounded :=
  roundPack (mulExact u v).neg (mulExact u v).man (mulExact u v).exp false

/-- The exact quotient, rounded once; there is none by zero. -/
def divRounded (u v : Unpacked) : Rounded :=
  if v.man = 0 then .undefined else
    let n := u.man <<< 120
    roundPack (u.neg != v.neg) (n / v.man) (u.exp - v.exp - 120) (n % v.man != 0)

/-- One descent of Newton's method for the integer square root of `n`, from an over-estimate `x`. -/
def isqrtDescend (n : Nat) : Nat → Nat → Nat
  | 0, x => x
  | fuel + 1, x =>
    let y := (x + n / x) / 2
    if y < x then isqrtDescend n fuel y else x

/-- The integer square root. -/
def isqrt (n : Nat) : Nat := isqrtDescend n 40 (2 ^ (Nat.log2 n / 2 + 1))

/-- The exact square root, rounded once; a negative number has none. -/
def sqrtRounded (u : Unpacked) : Rounded :=
  if u.man = 0 then .nearest 0
  else if u.neg then .undefined
  else
    let k := if u.exp % 2 = 0 then 120 else 121
    let n := u.man <<< k
    let r := isqrt n
    roundPack false r ((u.exp - k) / 2) (r * r != n)

/-- The exact power, rounded once (40_tone_table_geometry.md R106: the exponent 0 gives 1). -/
def powRounded (k : Nat) (u : Unpacked) : Rounded :=
  roundPack (u.neg && k % 2 == 1) (u.man ^ k) (u.exp * k) false

/-- The precision, in bits, of the fixed-point series below. -/
def fixBits : Nat := 256

/-- `2 ^ 1400` times the circle constant, cut to an integer (PRESUMED: mathematics). -/
def piFix : Nat :=
  0x3243f6a8885a308d313198a2e03707344a4093822299f31d0082efa98ec4e6c89452821e638d01377be5466cf34e90c6cc0ac29b7c97c50dd3f84d5b5b54709179216d5d98979fb1bd1310ba698dfb5ac2ffd72dbd01adfb7b8e1afed6a267e96ba7c9045f12c7f9924a19947b3916cf70801f2e2858efc16636920d871574e69a458fea3f4933d7e0d95748f728eb658718bcd5882154aee7b54a41dc25a59b59c30d5392af26013c5d1b023286085

/-- `2 ^ 320` times the natural logarithm of 2, cut to an integer (PRESUMED: mathematics). -/
def ln2Fix : Nat :=
  0xb17217f7d1cf79abc9e3b39803f2f6af40f343267298b62d8a0d175b8baafa2be7b876206debac98

/-- `2 ^ 320` times the natural logarithm of 10, cut to an integer (PRESUMED: mathematics). -/
def ln10Fix : Nat :=
  0x24d763776aaa2b05ba95b58ae0b4c28a38a3fb3e76977e43a0f187a0807c0b5ca58bc0b5ec6a04173

/-- The two alternating sums of the Taylor series of `cos` and `sin`: `term` is `r ^ k / k !` in fixed point, the even terms
are collected in `c`, the odd ones in `s`. -/
def trigSeries (r : Nat) : Nat → Nat → Nat → Int → Int → Int × Int
  | 0, _, _, c, s => (c, s)
  | fuel + 1, k, term, c, s =>
    let next := term * r / ((k + 1) * 2 ^ fixBits)
    match k % 4 with
    | 0 => trigSeries r fuel (k + 1) next (c + term) s
    | 1 => trigSeries r fuel (k + 1) next c (s + term)
    | 2 => trigSeries r fuel (k + 1) next (c - term) s
    | _ => trigSeries r fuel (k + 1) next c (s - term)

/-- Cosine and sine, in fixed point, of the magnitude of `u`: the argument is reduced by quarter turns first. -/
def trigFix (u : Unpacked) : Int × Int :=
  let x := u.man <<< (u.exp + 1401).toNat
  let quarter := x / piFix
  let r := (x % piFix) >>> (1401 - fixBits)
  let cs := trigSeries r 72 0 (2 ^ fixBits) 0 0
  match quarter % 4 with
  | 0 => cs
  | 1 => (-cs.2, cs.1)
  | 2 => (-cs.1, -cs.2)
  | _ => (cs.2, -cs.1)

/-- Whether the magnitude is below `2 ^ -30`, where the cosine rounds to 1 and the sine to its argument. -/
def isTiny (u : Unpacked) : Bool := decide (u.exp + (Nat.log2 u.man : Int) < -30)

/-- The cosine, rounded once. -/
def cosRounded (u : Unpacked) : Rounded :=
  if u.man = 0 ∨ isTiny u then roundPack false 1 0 false
  else roundInt (trigFix u).1 (-(fixBits : Int))

/-- The sine, rounded once. -/
def sinRounded (u : Unpacked) : Rounded :=
  if u.man = 0 ∨ isTiny u then roundPack u.neg u.man u.exp false
  else
    let s := (trigFix u).2
    roundInt (if u.neg then -s else s) (-(fixBits : Int))

/-- The series `z + z ^ 3 / 3 + z ^ 5 / 5 + …` in fixed point: `z2` is `z ^ 2`, `power` the next odd power of `z`. -/
def atanhSeries (z2 : Nat) : Nat → Nat → Nat → Nat → Nat
  | 0, _, _, sum => sum
  | fuel + 1, k, power, sum => atanhSeries z2 fuel (k + 2) ((power * z2) >>> 320) (sum + power / k)

/-- The natural logarithm of `y`, which lies in `[1, 2)`, both scaled by `2 ^ 320`. -/
def lnFix (y : Nat) : Nat :=
  let one := 2 ^ 320
  let z := ((y - one) <<< 320) / (y + one)
  2 * atanhSeries ((z * z) >>> 320) 104 1 z 0

/-- The decimal logarithm, rounded once; a number that is not positive has none. -/
def log10Rounded (u : Unpacked) : Rounded :=
  if u.man = 0 ∨ u.neg then .undefined
  else
    let len := Nat.log2 u.man
    let y := (u.man <<< 320) >>> len
    let ln : Int := (lnFix y : Int) + (u.exp + len) * (ln2Fix : Int)
    let q := (ln.natAbs <<< 320) / ln10Fix
    roundPack (decide (ln < 0)) q (-320) false

/-- The order of two values. -/
def valueLe (u v : Unpacked) : Bool :=
  let e := min u.exp v.exp
  decide (alignedMan u e ≤ alignedMan v e)

/-- The greatest integer that is at most the value. -/
def floorValue (u : Unpacked) : Int :=
  let m : Int := if u.neg then -(u.man : Int) else u.man
  if 0 ≤ u.exp then m * 2 ^ u.exp.toNat else m / 2 ^ (-u.exp).toNat

/-- A comparison: `r` of the operands' values, or a free answer (log 3). -/
def f64Compare (isLe : Bool) (r : Unpacked → Unpacked → Bool) (a b : Binary64) : Bool :=
  match isFiniteWord a.bits && isFiniteWord b.bits with
  | true => r (unpack a.bits) (unpack b.bits)
  | false => Config.freeCompare isLe a.bits b.bits

def f64Add : Binary64 → Binary64 → Binary64 := f64Binary .add addRounded
def f64Sub : Binary64 → Binary64 → Binary64 := f64Binary .sub fun u v => addRounded u { v with neg := !v.neg }
def f64Mul : Binary64 → Binary64 → Binary64 := f64Binary .mul mulRounded
def f64Div : Binary64 → Binary64 → Binary64 := f64Binary .div divRounded
def f64Cos : Binary64 → Binary64 := f64Unary (Config.freeNumber .cos · 0) cosRounded
def f64Sin : Binary64 → Binary64 := f64Unary (Config.freeNumber .sin · 0) sinRounded
def f64Sqrt : Binary64 → Binary64 := f64Unary (Config.freeNumber .sqrt · 0) sqrtRounded
def f64Log10 : Binary64 → Binary64 := f64Unary (Config.freeNumber .log10 · 0) log10Rounded
def f64Pow (a : Binary64) (k : Nat) : Binary64 := f64Unary (Config.freePower · k) (powRounded k) a
def f64Le : Binary64 → Binary64 → Bool := f64Compare true valueLe
def f64Lt : Binary64 → Binary64 → Bool := f64Compare false fun u v => !valueLe v u

/-- The nearest binary64 to an integer. -/
def f64OfInt (n : Int) : Binary64 :=
  ⟨(roundInt n 0).pattern (Config.freeInteger n)⟩

def f64Max (a b : Binary64) : Binary64 := if f64Lt a b then b else a

/-- The binary64 nearest to the circle constant (41_goertzel.md R122: `2 × π` in binary64). -/
def f64Pi : Binary64 := ⟨0x400921FB54442D18⟩

/-- The floor of the product of two finite numbers (40_tone_table_geometry.md R100): of the number that `mul` gives, or,
where the product is out of the range of binary64 or `mul` gives no finite number, of the exact product, so that it is an
integer whatever the numbers are (log 7).  Of any other patterns a free value (log 3). -/
def floorProduct (mul : Binary64 → Binary64 → Binary64) (a b : Binary64) : Int :=
  match isFiniteWord a.bits && isFiniteWord b.bits with
  | true =>
    match (mulRounded (unpack a.bits) (unpack b.bits)).inRange && isFiniteWord (mul a b).bits with
    | true => floorValue (unpack (mul a b).bits)
    | false => floorValue (mulExact (unpack a.bits) (unpack b.bits))
  | false => Config.freeFloor a.bits b.bits

def f64IsFinite (a : Binary64) : Bool := isFiniteWord a.bits

/-- `NUM.ofBits` on patterns (30_encoding.md R84): a finite pattern is its own number; negative zero denotes 0. -/
def ofBits (w : Word) : Binary64 := if w = 0x8000000000000000 then ⟨0⟩ else ⟨w⟩

/-- `NUM.toBits` on patterns (30_encoding.md R84): a pattern is carried as it is. -/
def toBits (x : Binary64) : Word := x.bits

/-- The correctly rounded binary64 `NUM` (log 2). -/
def binary64Numerics : Numerics Binary64 where
  add := f64Add
  sub := f64Sub
  mul := f64Mul
  div := f64Div
  cos := f64Cos
  sin := f64Sin
  sqrt := f64Sqrt
  log10 := f64Log10
  pow := f64Pow
  le := f64Le
  lt := f64Lt
  ofInt := f64OfInt
  max := f64Max
  ofBits := ofBits
  toBits := toBits
  pi := f64Pi
  floorMul := floorProduct f64Mul
  isFinite := f64IsFinite

/-- The `NUM` the platform supplies (00_scope.md R14; log 1).  A supplied one computes over the same patterns, so it
carries them to and from the ports and knows which are finite as binary64 does, and floors its own products. -/
def numericsOf : NumericsChoice → Numerics Binary64
  | .binary64 => binary64Numerics
  | .supplied k =>
    { Config.suppliedNumerics k with
      ofBits := ofBits
      toBits := toBits
      floorMul := floorProduct (Config.suppliedNumerics k).mul
      isFinite := f64IsFinite }

end Sys2Proof.Machine

namespace Sys2Proof

/-- `NUM` of a platform (00_scope.md R10, R14). -/
def Platform.num (p : Platform) : Numerics Binary64 := Machine.numericsOf p.numerics

end Sys2Proof
end

