-- ==== Sys2Proof/Syntax.lean ====
section
/-!
DEFINITION. The commands (30_encoding.md R81, R82): one constructor per row of the opcode table.

A header that selects a row but has a nonzero must-be-zero field is still that command, refused by R88 when it runs;
so a command carries every field of its frame as it was sent.
-/

namespace Sys2Proof

/-- What a command frame holds besides its opcode (30_encoding.md R81): the reserved byte, the two counts and the data
words behind the header. -/
structure Operands where
  /-- `RSV`, header bits 55 to 48. -/
  rsv : BitVec 8
  /-- `K`, header bits 47 to 32. -/
  k : BitVec 16
  /-- `N`, header bits 31 to 0. -/
  n : BitVec 32
  /-- The words after the header. -/
  data : List Word
  deriving DecidableEq, Repr

/-- The ten commands (30_encoding.md R82). -/
inductive Instr where
  | nop (o : Operands)
  | push (o : Operands)
  | rdtrig (o : Operands)
  | rdwlen (o : Operands)
  | rddlen (o : Operands)
  | rdcerr (o : Operands)
  | rdmaxc (o : Operands)
  | encode (o : Operands)
  | reset (o : Operands)
  | goertzel (o : Operands)
  deriving DecidableEq, Repr

/-- Why a frame is no command (30_encoding.md R88, `ILLEGAL_OPCODE`). -/
inductive DecodeError where
  /-- The frame has no header word. -/
  | emptyFrame
  /-- The opcode is none of `0x00` to `0x09` (R89). -/
  | illegalOpcode (opc : BitVec 8)
  deriving DecidableEq, Repr

end Sys2Proof
end

