-- ==== Sys2Proof/Machine/Operands.lean ====
section
/-!
DEFINITION. The operand forms of the commands (30_encoding.md R82 to R86): how many data words a frame must hold, and
what they are, over any `NUM`.
-/

namespace Sys2Proof.Machine

variable {T : Type}

/-- The reserved fields are 0: `RSV` always, `N` and `K` unless the command uses them (30_encoding.md R88, R89). -/
def reservedZero (usesN usesK : Bool) (o : Operands) : Bool :=
  o.rsv == 0 && (usesN || o.n == 0) && (usesK || o.k == 0)

/-- The data words of a PUSH frame (30_encoding.md R82): `n` samples. -/
def pushWords (o : Operands) : Nat := o.n.toNat

/-- The data words of an ENCODE frame (30_encoding.md R82): the packed payload, then the peak. -/
def encodeWords (o : Operands) : Nat := wordsForBytes o.n.toNat + 1

/-- The data words of a GOERTZEL frame (30_encoding.md R82): `L` samples, then `K` frequencies. -/
def goertzelWords (o : Operands) : Nat := o.n.toNat + o.k.toNat

/-- Every word is a finite number (30_encoding.md R84, `BAD_VALUE`). -/
def allFinite (ws : List Word) : Bool := ws.all isFiniteWord

/-- The chunk `c[0..n−1]` of a PUSH (R147). -/
def chunkOf (num : Numerics T) (o : Operands) : List T := o.data.map num.ofBits

/-- The packed payload words of an ENCODE (R216). -/
def payloadWords (o : Operands) : List Word := o.data.take (wordsForBytes o.n.toNat)

/-- The payload bytes of an ENCODE (R216). -/
def payloadOf (o : Operands) : List Byte := unpackBytes (payloadWords o) o.n.toNat

/-- The peak word of an ENCODE (R216). -/
def peakWord (o : Operands) : Word := o.data.getD (wordsForBytes o.n.toNat) 0

/-- The peak of an ENCODE (R216). -/
def peakOf (num : Numerics T) (o : Operands) : T := num.ofBits (peakWord o)

/-- The window `x[0..L−1]` of a GOERTZEL (R127). -/
def windowOf (num : Numerics T) (o : Operands) : List T := (o.data.take o.n.toNat).map num.ofBits

/-- The frequencies `f[0..K−1]` of a GOERTZEL (R127). -/
def frequenciesOf (num : Numerics T) (o : Operands) : List T := (o.data.drop o.n.toNat).map num.ofBits

/-- The data words the table gives a command's frame (30_encoding.md R82). -/
def operandWords : Instr → Nat
  | .push o => pushWords o
  | .encode o => encodeWords o
  | .goertzel o => goertzelWords o
  | .nop _ | .rdtrig _ | .rdwlen _ | .rddlen _ | .rdcerr _ | .rdmaxc _ | .reset _ => 0

end Sys2Proof.Machine
end

