-- ==== Sys2Proof/Decode.lean ====
section
/-!
DEFINITION. The decoder and, after it, the encoder (30_encoding.md R81, R82, R89).

The opcode field alone selects the command; a frame with another opcode, or with no word at all, is rejected by name.
-/

namespace Sys2Proof

/-- `OPC`, header bits 63 to 56 (30_encoding.md R81). -/
def opcField (h : Word) : BitVec 8 := h.extractLsb' 56 8

/-- The operands of a frame: `RSV` bits 55 to 48, `K` bits 47 to 32, `N` bits 31 to 0, and the data words (R81). -/
def operandsOf (h : Word) (d : List Word) : Operands :=
  { rsv := h.extractLsb' 48 8, k := h.extractLsb' 32 16, n := h.extractLsb' 0 32, data := d }

/-- The command a frame is (30_encoding.md R82), total on every sequence of words. -/
def decode : Frame → Except DecodeError Instr
  | [] => .error .emptyFrame
  | h :: d =>
    match (opcField h).toNat with
    | 0 => .ok (.nop (operandsOf h d))
    | 1 => .ok (.push (operandsOf h d))
    | 2 => .ok (.rdtrig (operandsOf h d))
    | 3 => .ok (.rdwlen (operandsOf h d))
    | 4 => .ok (.rddlen (operandsOf h d))
    | 5 => .ok (.rdcerr (operandsOf h d))
    | 6 => .ok (.rdmaxc (operandsOf h d))
    | 7 => .ok (.encode (operandsOf h d))
    | 8 => .ok (.reset (operandsOf h d))
    | 9 => .ok (.goertzel (operandsOf h d))
    | _ => .error (.illegalOpcode (opcField h))

/-- The opcode of a command (30_encoding.md R82). -/
def opcodeOf : Instr → BitVec 8
  | .nop _ => 0x00
  | .push _ => 0x01
  | .rdtrig _ => 0x02
  | .rdwlen _ => 0x03
  | .rddlen _ => 0x04
  | .rdcerr _ => 0x05
  | .rdmaxc _ => 0x06
  | .encode _ => 0x07
  | .reset _ => 0x08
  | .goertzel _ => 0x09

/-- The operands of a command. -/
def operandsIn : Instr → Operands
  | .nop o | .push o | .rdtrig o | .rdwlen o | .rddlen o | .rdcerr o | .rdmaxc o | .encode o | .reset o | .goertzel o => o

/-- The header word: the four fields from the most significant bit down (30_encoding.md R81). -/
def headerWord (opc : BitVec 8) (o : Operands) : Word :=
  (opc ++ o.rsv ++ o.k ++ o.n : BitVec (8 + 8 + 16 + 32))

/-- The frame of a command (30_encoding.md R81). -/
def encode (i : Instr) : Frame := headerWord (opcodeOf i) (operandsIn i) :: (operandsIn i).data

/-- The `count` words of the number `w`, the least significant first. -/
def wordsOf (w : Nat) : Nat → Frame
  | 0 => []
  | count + 1 => BitVec.ofNat 64 w :: wordsOf (w >>> 64) count

/-- The frame a table word stands for (log 18): the words its `nbits` bits make, the header first, and behind them the
operand words of the command it selects, which are zeros. -/
def tableFrame (nbits w : Nat) : Frame :=
  let bits := w % 2 ^ nbits
  let stored := max 1 ((nbits + 63) / 64)
  match decode [BitVec.ofNat 64 bits] with
  | .ok i => wordsOf bits (max stored (1 + Machine.operandWords i))
  | .error _ => wordsOf bits stored

/-- The command the decoder reads from a table word. -/
def decodeTableWord (nbits w : Nat) : Option Instr :=
  match decode (tableFrame nbits w) with
  | .ok i => some i
  | .error _ => none

end Sys2Proof
end

