-- ==== Sys2Proof/Machine/Hamming.lean ====
section
/-!
DEFINITION. The Hamming(12,8) port (44_frame_decoder.md R196) and the reference instance `HAM_REF` (R199, R200).

`HAM` is a parameter of the block; no rule of the block depends on `HAM_REF`.
-/

namespace Sys2Proof.Machine

/-- The codeword positions that hold data bits 0 to 7, in this order (R199). -/
def hamDataPositions : List Nat := [3, 5, 6, 7, 9, 10, 11, 12]

/-- The codeword positions that hold check bits (R199). -/
def hamCheckPositions : List Nat := [1, 2, 4, 8]

/-- Position `p` of a code is its bit `p − 1` (R199). -/
def hamBit (c : Code) (p : Nat) : Bool := c.getLsbD (p - 1)

/-- The code with only position `p` set. -/
def hamMask (p : Nat) : Code := 1#12 <<< (p - 1)

/-- The byte's bits at the data positions, the check bits 0. -/
def hamPlaceData (b : Byte) : Code :=
  hamDataPositions.zipIdx.foldl (fun c pi => if b.getLsbD pi.2 then c ||| hamMask pi.1 else c) 0

/-- The byte at the data positions of a code. -/
def hamReadData (c : Code) : Byte :=
  hamDataPositions.zipIdx.foldl (fun b pi => if hamBit c pi.1 then b ||| (1#8 <<< pi.2) else b) 0

/-- The check bit at position `q`: the exclusive-or of the data positions `p` with `p and q ≠ 0` (R199). -/
def hamCheckBit (c : Code) (q : Nat) : Bool :=
  (hamDataPositions.filter fun p => p &&& q != 0).foldl (fun x p => x != hamBit c p) false

/-- `HAM_REF` encode (R199). -/
def hamRefEncode (b : Byte) : Code :=
  let d := hamPlaceData b
  hamCheckPositions.foldl (fun c q => if hamCheckBit d q then c ||| hamMask q else c) d

/-- The syndrome: the exclusive-or of the position numbers of the set bits (R200). -/
def hamSyndrome (c : Code) : Nat :=
  ((List.range 12).map (· + 1)).foldl (fun s p => if hamBit c p then s ^^^ p else s) 0

/-- `HAM_REF` decode (R200). -/
def hamRefDecode (c : Code) : Byte × HamOutcome :=
  let s := hamSyndrome c
  if s = 0 then (hamReadData c, .ok)
  else if s ≤ 12 then (hamReadData (c ^^^ hamMask s), .correctedError)
  else (0, .failCorrection)

/-- `HENC` (R196). -/
def henc : Ham → Byte → Code
  | .reference, b => hamRefEncode b
  | .tables t _, b => t[b.toNat]

/-- `HDEC` (R196). -/
def hdec : Ham → Code → Byte × HamOutcome
  | .reference, c => hamRefDecode c
  | .tables _ t, c => t[c.toNat]

end Sys2Proof.Machine
end

