-- ==== Sys2Proof/Machine/Geometry.lean ====
section
/-!
DEFINITION. Window geometry, admitted configurations and the tone table (40_tone_table_geometry.md; 00_scope.md R11, R12).

All are functions of the configuration over any `NUM`; the configuration's numbers are numbers of that `NUM`
(10_state.md R29).
-/

namespace Sys2Proof.Machine

variable {T : Type}

/-- `W = floor(CFG.FS × CFG.TW)` (R100): the product is `NUM`'s, as every product of the rules is (00_scope.md R14), and
where that has no number in the range of binary64 it is the exact one (log 7), so that `W` is an integer whatever two finite
numbers the fields are, and R11 decides on it.  DESIGN CHOICE (log 23): of a negative product, whose configuration R11
refuses, `W` is 0.  Under a configuration that is not admitted it is used for the lengths of R38 only (log 23). -/
def wordLength (num : Numerics T) (c : Config T) : Nat := (num.floorMul c.fs c.tw).toNat

/-- `DOOR = W` (R101). -/
def doorLength (num : Numerics T) (c : Config T) : Nat := wordLength num c

/-- `WO = W div 4` (R102). -/
def windowOffset (num : Numerics T) (c : Config T) : Nat := wordLength num c / 4

/-- `B = 3 × W` (R103). -/
def bufferLength (num : Numerics T) (c : Config T) : Nat := 3 * wordLength num c

/-- `H = B div WO` (R104). -/
def historyLength (num : Numerics T) (c : Config T) : Nat := bufferLength num c / windowOffset num c

/-- `LTOT = 2 × DOOR + CFG.NP × W` (R105). -/
def frameLength (num : Numerics T) (c : Config T) : Nat := 2 * doorLength num c + c.np * wordLength num c

/-- A finite number greater than 0 (00_scope.md R11). -/
def finitePositive (num : Numerics T) (x : T) : Bool := num.isFinite x && num.lt (num.ofInt 0) x

/-- The admitted configurations (00_scope.md R11). -/
def admitted (num : Numerics T) (c : Config T) : Bool :=
  finitePositive num c.fs && finitePositive num c.tw &&
  decide (4 ≤ wordLength num c) && decide (wordLength num c % 4 = 0) && decide (3 * wordLength num c < 2 ^ 31) &&
  decide (1 ≤ c.np) && decide (c.np < 2 ^ 31) &&
  finitePositive num c.f0 &&
  num.isFinite c.step && (c.spacing == .linear || num.lt (num.ofInt 0) c.step) &&
  num.isFinite c.ratio && num.isFinite c.tsnr

/-- `FLOOR = 10^-12` (R110). -/
def floorPower (num : Numerics T) : T := num.div (num.ofInt 1) (num.ofInt (10 ^ 12))

/-- Tone number `k` of the progression (R106). -/
def tone (num : Numerics T) (c : Config T) (k : Nat) : T :=
  match c.spacing with
  | .linear => num.add c.f0 (num.mul (num.ofInt k) c.step)
  | .geometric => num.mul c.f0 (num.pow c.step k)

/-- `F[i] = tone(2 × i)` (R107), the tone of a code bit 1. -/
def lowTone (num : Numerics T) (c : Config T) (i : Nat) : T := tone num c (2 * i)

/-- `FU[i] = tone(2 × i + 1)` (R107), the tone of a code bit 0. -/
def upTone (num : Numerics T) (c : Config T) (i : Nat) : T := tone num c (2 * i + 1)

/-- The register file `F[0..11]` (10_state.md R31). -/
def lowTones (num : Numerics T) (c : Config T) : List T := (List.range 12).map (lowTone num c)

/-- The register file `FU[0..11]` (10_state.md R31). -/
def upTones (num : Numerics T) (c : Config T) : List T := (List.range 12).map (upTone num c)

/-- The door frequency `F[11]` (R108). -/
def doorTone (num : Numerics T) (c : Config T) : T := lowTone num c 11

/-- The door frequency's uptone `FU[11]` (R108). -/
def doorUptone (num : Numerics T) (c : Config T) : T := upTone num c 11

end Sys2Proof.Machine

namespace Sys2Proof

/-! ## The constants of a platform (00_scope.md R12), at its own `NUM` and `CFG` -/

/-- `W` of a platform. -/
abbrev Platform.wordLength (p : Platform) : Nat := Machine.wordLength p.num p.cfg

/-- `DOOR` of a platform. -/
abbrev Platform.doorLength (p : Platform) : Nat := Machine.doorLength p.num p.cfg

/-- `WO` of a platform. -/
abbrev Platform.windowOffset (p : Platform) : Nat := Machine.windowOffset p.num p.cfg

/-- `B` of a platform. -/
abbrev Platform.bufferLength (p : Platform) : Nat := Machine.bufferLength p.num p.cfg

/-- `H` of a platform. -/
abbrev Platform.historyLength (p : Platform) : Nat := Machine.historyLength p.num p.cfg

/-- `LTOT` of a platform. -/
abbrev Platform.frameLength (p : Platform) : Nat := Machine.frameLength p.num p.cfg

/-- A platform with an admitted configuration (00_scope.md R11). -/
abbrev Platform.admitted (p : Platform) : Bool := Machine.admitted p.num p.cfg

end Sys2Proof
end

