-- ==== Sys2Proof/Machine/Spectral.lean ====
section
/-!
DEFINITION. The spectral estimator: the generalised Goertzel function `GZ` and the clamped decibel ratio `SNRDB`
(41_goertzel.md), over any `NUM`.

The evaluation order, which a floating `NUM` must state (00_scope.md R14), is the order the expressions are written in.
-/

namespace Sys2Proof.Machine

variable {T : Type}

/-- `THETA(f, fs) = ((2 × π) × f) / fs` (R122). -/
def theta (num : Numerics T) (f fs : T) : T :=
  num.div (num.mul (num.mul (num.ofInt 2) num.pi) f) fs

/-- The recurrence `s[n] = (x[n] + c × s[n−1]) − s[n−2]` (R123) from `s1 = s[n−1]` and `s2 = s[n−2]`; the answer is
`(s[L−1], s[L−2])`. -/
def goertzelRecurrence (num : Numerics T) (c : T) : List T → T → T → T × T
  | [], s1, s2 => (s1, s2)
  | x :: xs, s1, s2 => goertzelRecurrence num c xs (num.sub (num.add x (num.mul c s1)) s2) s1

/-- The block's exponential `E(t) = (cos t, −sin t)` (00_scope.md R15).  DESIGN CHOICE (log 6): R14's `NUM` has no negation,
and `−sin t` is `0 − sin t`. -/
def expE (num : Numerics T) (t : T) : T × T := (num.cos t, num.sub (num.ofInt 0) (num.sin t))

/-- The corrected value `y = (s0 − s1 × E(θ)) × E(θ × (L − 1))` (R124), expanded in real arithmetic as R124 does. -/
def correctedValue (num : Numerics T) (x : List T) (θ : T) : T × T :=
  let zero := num.ofInt 0
  let s := goertzelRecurrence num (num.mul (num.ofInt 2) (num.cos θ)) x zero zero
  let ar := num.sub s.1 (num.mul s.2 (num.cos θ))
  let ai := num.mul s.2 (num.sin θ)
  let b := expE num (num.mul θ (num.ofInt ((x.length : Int) - 1)))
  (num.sub (num.mul ar b.1) (num.mul ai b.2), num.add (num.mul ar b.2) (num.mul ai b.1))

/-- `GZ1 = sqrt(2 × (Re(y)² + Im(y)²)) / L` (R124). -/
def gz1 (num : Numerics T) (x : List T) (θ : T) : T :=
  let y := correctedValue num x θ
  num.div (num.sqrt (num.mul (num.ofInt 2) (num.add (num.mul y.1 y.1) (num.mul y.2 y.2)))) (num.ofInt x.length)

/-- `GZ(x, fs, freqs)` (R121): each frequency is a lane of its own (R120). -/
def gz (num : Numerics T) (x : List T) (fs : T) (freqs : List T) : List T :=
  freqs.map fun f => gz1 num x (theta num f fs)

/-- `SNRDB(a, b) = 10 × log10(max(a, FLOOR) / max(b, FLOOR))` (R126). -/
def snrdb (num : Numerics T) (a b : T) : T :=
  num.mul (num.ofInt 10) (num.log10 (num.div (num.max a (floorPower num)) (num.max b (floorPower num))))

/-- The absolute value (43_synchronizer.md R165), by comparison and subtraction from 0 (log 6). -/
def absNum (num : Numerics T) (v : T) : T :=
  if num.lt v (num.ofInt 0) then num.sub (num.ofInt 0) v else v

end Sys2Proof.Machine
end

