-- ==== Sys2Proof/Machine/State.lean ====
section
/-!
DEFINITION. The machine's state (10_state.md R20, R38), the records it is made of, and the ways a step can stop.

State holds the engine state of R20, the platform's parameters (read-only, log 8) and the three ports (log 10).
-/

namespace Sys2Proof.Machine

/-- The status codes of a response (30_encoding.md R88). -/
inductive Status where
  | ok
  | illegalOpcode
  | reservedNonzero
  | badConfig
  | badCount
  | badValue
  | counterLimit
  deriving DecidableEq, Repr

/-- The causes of a decode error (60_exceptions.md R250). -/
inductive Cause where
  | missedWindow
  | uncorrectable
  | validationMismatch
  deriving DecidableEq, Repr

/-- One event record (30_encoding.md R91; 60_exceptions.md R260). -/
inductive Event where
  /-- PITCH with the absolute sample index. -/
  | pitch (index : Int)
  /-- MESSAGE with a copy of `PARSED` and the trigger of its frame. -/
  | message (payload : List Byte) (trigger : Int)
  /-- ERROR with `PROCESSED` as it was raised, and the cause. -/
  | error (processed : Nat) (cause : Cause)
  deriving DecidableEq, Repr

/-- The machine's state. -/
structure State where
  /-- The platform's parameters, written by no command (10_state.md R29; log 8). -/
  plat : Platform
  /-- `PUSHED`, the samples counted since reset (R22). -/
  pushed : Nat
  /-- `PROCESSED`, the counted samples consumed (R23). -/
  processed : Nat
  /-- `TRIG`, −1 when SEARCHING, else the trigger index (R24). -/
  trig : Int
  /-- `CERR`, the corrected words since the last fire (R27). -/
  cerr : Nat
  /-- `CURSOR`, the words decoded in the current frame (R26). -/
  cursor : Nat
  /-- `BUF[0..B−1]`, the newest sample last (R34; 20_memory.md R61). -/
  buf : List Binary64
  /-- `HIST[0..H−1]`, the newest reading last (R32). -/
  hist : List Binary64
  /-- `PARSED[0..NP−1]` (R33). -/
  parsed : List Byte
  /-- `EVQ`, the events of this engine lifetime, the oldest first (R35; log 12). -/
  evq : List Event
  /-- The command port: the frames the host sends, the first is fetched next (30_encoding.md R80; log 10). -/
  cmdPort : List Frame
  /-- The response port: the response frames returned so far, the oldest first (R80). -/
  respPort : List Frame
  /-- The event port: the event frames emitted so far, the oldest first (R80). -/
  eventPort : List Frame
  deriving DecidableEq, Repr

/-- Why the machine stops with a fault. -/
inductive Fault where
  /-- Raised by `memRead` for a window outside the retained samples (20_memory.md R62, log 16).  Safe: no rule reads
  there, and no command of the model reaches it. -/
  | memReadOutOfRange
  /-- Raised by `runLoop` when its bound of steps is used up (42_sample_buffer.md R148, log 16).  Safe: the loop always
  ends before, so no command of the model reaches it. -/
  | runLoopExhausted
  deriving DecidableEq, Repr

/-- Why there is no step. -/
inductive Refusal where
  /-- Raised by `exec` for a command without a meaning, by its mnemonic.  Safe: no claim rests on it. -/
  | notModelled (mnemonic : String)
  /-- Raised by `step` when no command stands at the port: the run has ended (70_reset_and_hazards.md R289, log 11).
  Safe: the engine does nothing between commands. -/
  | noCommand
  deriving DecidableEq, Repr

/-- The state after power-on with the platform `p` (10_state.md R38; 70_reset_and_hazards.md R280).

DESIGN CHOICE (log 23): under a configuration that is not admitted, where 46_query_control.md R237 says that `B` is not
defined, `BUF` and `HIST` hold zeros too, as many as the formulas of R103 and R104 give there: `HIST` none if `WO` is 0, and neither has a cell if the product of
`CFG.FS` and `CFG.TW` is negative, where `W` is 0. -/
def State.powerOn (p : Platform) : State where
  plat := p
  pushed := 0
  processed := 0
  trig := -1
  cerr := 0
  cursor := 0
  buf := List.replicate p.bufferLength ⟨0⟩
  hist := List.replicate p.historyLength ⟨0⟩
  parsed := List.replicate p.cfg.np 0
  evq := []
  cmdPort := []
  respPort := []
  eventPort := []

/-- DESIGN CHOICE (log 8): the platform of `State.reset`, the spec's example `CFG_A` (95_test_vectors.md) with its
sentinel, `HAM_REF`, binary64 and the default `SYNC_BIAS`.  The spec gives no platform. -/
def resetPlatform : Platform where
  cfg :=
    { fs := ⟨0x40CF400000000000⟩       -- 16000
      np := 2
      tw := ⟨0x3F80624DD2F1A9FC⟩       -- 0.008
      f0 := ⟨0x408F400000000000⟩       -- 1000
      spacing := .linear
      step := ⟨0x406F400000000000⟩     -- 250
      ratio := ⟨0x3FE999999999999A⟩    -- 0.8
      tsnr := ⟨0x4008000000000000⟩ }   -- 3
  sentinel := 0x57
  ham := .reference
  numerics := .binary64
  syncBias := 0

/-- The machine right after reset (10_state.md R38). -/
def State.reset : State := State.powerOn resetPlatform

end Sys2Proof.Machine
end

