-- ==== Sys2Proof/Machine/Flags.lean ====
section
/-!
DEFINITION. The condition codes (10_state.md R28) and the comparisons that compute them.

None is stored: each lives inside one command.
-/

namespace Sys2Proof.Machine

variable {T : Type}

/-- `RES`, the result of an internal step (10_state.md R28 a). -/
inductive StepResult where
  | idle
  | pitch
  | complete
  | error
  deriving DecidableEq, Repr

/-- SEARCHING iff `TRIG < 0` (10_state.md R25). -/
def searching (s : State) : Bool := decide (s.trig < 0)

/-- The sign of a successive difference (43_synchronizer.md R166: `+1`, `−1`, 0). -/
inductive Slope where
  | flat
  | rising
  | falling
  deriving DecidableEq, Repr

/-- `s <- (d > 0) ? +1 : (d < 0) ? −1 : 0` (43_synchronizer.md R166). -/
def slopeOf (num : Numerics T) (d : T) : Slope :=
  if num.lt (num.ofInt 0) d then .rising
  else if num.lt d (num.ofInt 0) then .falling
  else .flat

/-- `v < 0` (43_synchronizer.md R165, R166). -/
def isNegative (num : Numerics T) (v : T) : Bool := num.lt v (num.ofInt 0)

/-- The decision of one code bit: `SNRDB(PL[i], PU[i]) ≥ CFG.TSNR` (44_frame_decoder.md R185). -/
def decideBit (num : Numerics T) (tsnr pl pu : T) : Bool := num.le tsnr (snrdb num pl pu)

/-- `code = Σ bit[i] × 2^i` (44_frame_decoder.md R186), bit 0 first in the list. -/
def assembleCode (bits : List Bool) : Nat := bits.foldr (fun b acc => b.toNat + 2 * acc) 0

end Sys2Proof.Machine
end

