-- ==== Sys2Proof/Machine/Ops.lean ====
section
/-!
DEFINITION. The named operations over the state: the response port, the event port, the sample buffer, the counters, and
error entry, the block's one way to take an exception (60_exceptions.md R254).
-/

namespace Sys2Proof.Machine

/-! ## Responses (30_encoding.md R87, R88) -/

/-- The code of a status (30_encoding.md R88). -/
def statusCode : Status → BitVec 8
  | .ok => 0x00
  | .illegalOpcode => 0x01
  | .reservedNonzero => 0x02
  | .badConfig => 0x03
  | .badCount => 0x04
  | .badValue => 0x05
  | .counterLimit => 0x06

/-- The length field `M` (30_encoding.md R87); a length that does not fit is a free value (log 17). -/
def lengthField (m : Nat) : BitVec 56 := if m < 2 ^ 56 then BitVec.ofNat 56 m else Config.freeLengthField m

/-- The status word: `STATUS` in bits 63 to 56, `M` in bits 55 to 0 (30_encoding.md R87). -/
def statusWord (st : Status) (m : Nat) : Word := (statusCode st ++ lengthField m : BitVec (8 + 56))

/-- Return one response frame (30_encoding.md R80, R87). -/
def respond (data : List Word) (s : State) : State :=
  { s with respPort := s.respPort ++ [statusWord .ok data.length :: data] }

/-- Refuse the command: nothing but the status word (30_encoding.md R88). -/
def refuse (st : Status) (s : State) : State :=
  { s with respPort := s.respPort ++ [[statusWord st 0]] }

/-- One check of a command: the status to refuse it with, unless `good` (30_encoding.md R88). -/
def check (good : Bool) (st : Status) : Option Status := if good then none else some st

/-- The first check that fails decides the status (30_encoding.md R88). -/
def firstFailure (checks : List (Option Status)) : Option Status := checks.findSome? id

/-- A command: refused by the first failing check, else its effect (00_scope.md R8). -/
def complete (checks : List (Option Status)) (effect : State → Except Fault State) (s : State) :
    Host.Outcome State Fault Refusal :=
  match firstFailure checks with
  | some st => .next (refuse st s)
  | none =>
    match effect s with
    | .ok t => .next t
    | .error f => .fault f

/-- The configuration check (30_encoding.md R88, `BAD_CONFIG`). -/
def configAdmitted (s : State) : Bool := s.plat.admitted

/-- The checks of a command without operands (46_query_control.md R230, R236), in the order of 30_encoding.md R88. -/
def bareChecks (o : Operands) (s : State) : List (Option Status) :=
  [check (reservedZero false false o) .reservedNonzero,
   check (configAdmitted s) .badConfig,
   check (o.data.length == 0) .badCount]

/-- A query: refused by the checks, else one integer data word and no other effect (46_query_control.md R230). -/
def answerQuery (o : Operands) (word : State → Word) (s : State) : Host.Outcome State Fault Refusal :=
  complete (bareChecks o s) (fun s => .ok (respond [word s] s)) s

/-- A returned integer as one word: `zext_64` of a non-negative one, two's complement of `TRIG` (30_encoding.md R85). -/
def integerWord (n : Int) : Word := BitVec.ofInt 64 n

/-! ## Events (30_encoding.md R90) -/

/-- The cause code of an ERROR event (60_exceptions.md R250). -/
def causeCode : Cause → BitVec 2
  | .missedWindow => 1
  | .uncorrectable => 2
  | .validationMismatch => 3

/-- Word 0 of an event frame: `KIND`, `CAUSE`, zeros, `NBYTES` (30_encoding.md R90). -/
def eventHead (kind cause : BitVec 2) (nbytes : Nat) : Word :=
  (kind ++ cause ++ (0 : BitVec 28) ++ BitVec.ofNat 32 nbytes : BitVec (2 + 2 + 28 + 32))

/-- The frame of an event (30_encoding.md R90); `np` is `CFG.NP`. -/
def eventFrame (np : Nat) : Event → Frame
  | .pitch i => [eventHead 1 0 0, BitVec.ofInt 64 i]
  | .message p t => eventHead 2 0 np :: BitVec.ofInt 64 t :: packBytes p
  | .error n c => [eventHead 3 (causeCode c) 0, BitVec.ofInt 64 n]

/-- `emit EV` (00_scope.md R16): append one event to `EVQ` and its frame to the event port. -/
def emit (e : Event) (s : State) : State :=
  { s with evq := s.evq ++ [e], eventPort := s.eventPort ++ [eventFrame s.plat.cfg.np e] }

/-- Error entry, `raise X(PROCESSED)` (60_exceptions.md R254): report the error, then revert to SEARCHING.  Nothing is
saved and nothing else is cleared (R255); there is no return operation (R256). -/
def raiseError (c : Cause) (s : State) : State :=
  { emit (.error s.processed c) s with trig := -1 }

/-! ## The sample buffer (20_memory.md; 42_sample_buffer.md R141) -/

/-- A cell of the buffer holds a finite number, and zero only as `0.0` (30_encoding.md R84). -/
def cellCanonical (x : Binary64) : Bool := isFiniteWord x.bits && x.bits != 0x8000000000000000

/-- The canonical form of the memory: `B` cells (10_state.md R34), each canonical (log 14). -/
def Memory.wf (p : Platform) (m : List Binary64) : Bool := m.length == p.bufferLength && m.all cellCanonical

/-- The absolute index of `BUF[0]`: `PUSHED − B` (20_memory.md R61). -/
def bufferBase (s : State) : Int := (s.pushed : Int) - s.plat.bufferLength

/-- `MemRead(a, n)` (20_memory.md R62): the samples of absolute indices `a` to `a + n − 1`; outside the retained part a
fault (log 16). -/
def memRead (s : State) (a : Int) (n : Nat) : Except Fault (List Binary64) :=
  if bufferBase s ≤ a ∧ a + n ≤ s.pushed then
    .ok ((s.buf.drop (a - bufferBase s).toNat).take n)
  else .error .memReadOutOfRange

/-- `MemWrite` (42_sample_buffer.md R141): shift the chunk `c` into a buffer of `b` cells. -/
def memWrite (b : Nat) (m c : List Binary64) : List Binary64 :=
  if c.length < b then m.drop c.length ++ c else c.drop (c.length - b)

/-- The samples a chunk of `n` adds to `PUSHED`: `min(n, B)` (42_sample_buffer.md R142). -/
def countedSamples (p : Platform) (n : Nat) : Nat := min n p.bufferLength

/-- Store and count a chunk (42_sample_buffer.md R141, R142). -/
def pushSamples (chunk : List Binary64) (s : State) : State :=
  { s with
    buf := memWrite s.plat.bufferLength s.buf chunk
    pushed := s.pushed + countedSamples s.plat chunk.length }

/-! ## The counters -/

/-- Pending: `PUSHED − PROCESSED` (00_scope.md R19). -/
def pending (s : State) : Int := (s.pushed : Int) - s.processed

/-- `THR` (42_sample_buffer.md R144). -/
def threshold (s : State) : Nat := if searching s then s.plat.windowOffset else s.plat.wordLength

/-- The gate of the run loop: `PUSHED − PROCESSED ≥ THR` (42_sample_buffer.md R144). -/
def gateOpen (s : State) : Bool := decide ((threshold s : Int) ≤ pending s)

/-- `maxAcceptableChunkLength()`: `THR − (PUSHED − PROCESSED)` (42_sample_buffer.md R150). -/
def maxChunk (s : State) : Int := (threshold s : Int) - pending s

/-- The reset state of every engine register and register file, `EVQ` included (10_state.md R38; log 12); the platform
and what has passed the ports stay. -/
def resetEngine (s : State) : State :=
  { State.powerOn s.plat with cmdPort := s.cmdPort, respPort := s.respPort, eventPort := s.eventPort }

/-- What answers a frame that is no command: `ILLEGAL_OPCODE` (30_encoding.md R88, R89), the empty frame's cause too. -/
def answerIllegal : DecodeError → State → State
  | .emptyFrame, s => refuse .illegalOpcode s
  | .illegalOpcode _, s => refuse .illegalOpcode s

end Sys2Proof.Machine
end

