-- ==== Sys2Proof/Machine/Encoder.lean ====
section
/-!
DEFINITION. The encoder and the ENCODE command (45_encoder.md), the waveform over any `NUM`.

The evaluation order, which a floating `NUM` must state (00_scope.md R14), is the order the expressions are written in.
-/

namespace Sys2Proof.Machine

variable {T : Type}

/-- `hann(n, N) = 0.5 × (1 − cos(2 × π × n / (N − 1)))` (R212). -/
def hann (num : Numerics T) (n len : Nat) : T :=
  num.mul (num.div (num.ofInt 1) (num.ofInt 2))
    (num.sub (num.ofInt 1)
      (num.cos (num.div (num.mul (num.mul (num.ofInt 2) num.pi) (num.ofInt n)) (num.ofInt ((len : Int) - 1)))))

/-- Sample `n` of a burst of length `len`: `amp × hann(n, N) × sin((((2 × π) × f) × n) / CFG.FS)` (R213). -/
def burstSample (num : Numerics T) (fs : T) (len : Nat) (f amp : T) (n : Nat) : T :=
  num.mul (num.mul amp (hann num n len))
    (num.sin (num.div (num.mul (num.mul (num.mul (num.ofInt 2) num.pi) f) (num.ofInt n)) fs))

/-- A tone burst added to the output at `base` (R213). -/
def burst (num : Numerics T) (fs : T) (base len : Nat) (f amp : T) (out : List T) : List T :=
  out.mapIdx fun j v =>
    if base ≤ j ∧ j < base + len then num.add v (burstSample num fs len f amp (j - base)) else v

/-- The tone that renders bit `i` of a code (R215). -/
def codeTone (num : Numerics T) (c : Config T) (code : Code) (i : Nat) : T :=
  if code.getLsbD i then lowTone num c i else upTone num c i

/-- A codeword rendered at `base`: twelve bursts of amplitude `peak / 12`, in the order of the bits (R215). -/
def codeword (num : Numerics T) (c : Config T) (base len : Nat) (code : Code) (peak : T) (out : List T) : List T :=
  (List.range 12).foldl
    (fun acc i => burst num c.fs base len (codeTone num c code i) (num.div peak (num.ofInt 12)) acc) out

/-- The chirp: one burst at the door frequency with the whole peak (R214). -/
def chirp (num : Numerics T) (c : Config T) (peak : T) (out : List T) : List T :=
  burst num c.fs 0 (doorLength num c) (doorTone num c) peak out

/-- The payload words, each behind the one before (R211). -/
def payloadCodewords (num : Numerics T) (c : Config T) (ham : Ham) (peak : T) (payload : List Byte) (out : List T) : List T :=
  payload.zipIdx.foldl
    (fun acc bk =>
      codeword num c (2 * doorLength num c + bk.2 * wordLength num c) (wordLength num c) (henc ham bk.1) peak acc)
    out

/-- The encoder's output (R210, R211, R216). -/
def waveform (num : Numerics T) (c : Config T) (ham : Ham) (sentinel : Byte) (payload : List Byte) (peak : T) : List T :=
  payloadCodewords num c ham peak payload
    (codeword num c (doorLength num c) (doorLength num c) (henc ham sentinel) peak
      (chirp num c peak (List.replicate (frameLength num c) (num.ofInt 0))))

/-- The response of ENCODE: `LTOT` samples (R216), as port words (30_encoding.md R84). -/
def encodeSamples (num : Numerics T) (c : Config T) (ham : Ham) (sentinel : Byte) (o : Operands) : List Word :=
  (waveform num c ham sentinel (payloadOf o) (peakOf num o)).map num.toBits

/-- The checks of ENCODE in the order of R218. -/
def encodeChecks (o : Operands) (s : State) : List (Option Status) :=
  [check (reservedZero true false o) .reservedNonzero,
   check (configAdmitted s) .badConfig,
   check (o.n.toNat == s.plat.cfg.np && o.data.length == encodeWords o) .badCount,
   check (paddingIsZero (payloadWords o) o.n.toNat) .reservedNonzero,
   check (isFiniteWord (peakWord o)) .badValue]

/-- ENCODE (R216). -/
def execEncode (o : Operands) (s : State) : Host.Outcome State Fault Refusal :=
  complete (encodeChecks o s) (fun s => .ok (respond (encodeSamples s.plat.num s.plat.cfg s.plat.ham s.plat.sentinel o) s)) s

end Sys2Proof.Machine
end

