-- ==== Sys2Proof/Machine/Estimator.lean ====
section
/-!
DEFINITION. The GOERTZEL command (41_goertzel.md R127).
-/

namespace Sys2Proof.Machine

/-- The response of GOERTZEL: the `K` powers of the window over `CFG.FS` (R127), as port words (30_encoding.md R84). -/
def goertzelPowers {T : Type} (num : Numerics T) (c : Config T) (o : Operands) : List Word :=
  (gz num (windowOf num o) c.fs (frequenciesOf num o)).map num.toBits

/-- The checks of GOERTZEL in the order of 30_encoding.md R88. -/
def goertzelChecks (o : Operands) (s : State) : List (Option Status) :=
  [check (reservedZero true true o) .reservedNonzero,
   check (configAdmitted s) .badConfig,
   check (o.n.toNat != 0 && o.data.length == goertzelWords o) .badCount,
   check (allFinite o.data) .badValue]

/-- GOERTZEL (R127). -/
def execGoertzel (o : Operands) (s : State) : Host.Outcome State Fault Refusal :=
  complete (goertzelChecks o s) (fun s => .ok (respond (goertzelPowers s.plat.num s.plat.cfg o) s)) s

end Sys2Proof.Machine
end

