-- ==== Sys2Proof/Machine/FrameDecoder.lean ====
section
/-!
DEFINITION. The frame decoder's step `SYNC_STEP` (44_frame_decoder.md).
-/

namespace Sys2Proof.Machine

variable {T : Type}

/-- The position of the next word window: `TRIG + DOOR + CURSOR × W` (R181). -/
def wordPosition (s : State) : Int :=
  s.trig + s.plat.doorLength + (s.cursor : Int) * s.plat.wordLength

/-- The 12-bit code of a word window (R184 to R186): lane `i` compares the powers at `F[i]` and `FU[i]`. -/
def windowCode (num : Numerics T) (c : Config T) (x : List T) : Code :=
  BitVec.ofNat 12 (assembleCode (List.zipWith (decideBit num c.tsnr)
    (gz num x c.fs (lowTones num c)) (gz num x c.fs (upTones num c))))

/-- `if outcome = CORRECTED_ERROR: CERR <- CERR + 1` (R188). -/
def countCorrection (o : HamOutcome) (s : State) : State :=
  if o = .correctedError then { s with cerr := s.cerr + 1 } else s

/-- The validation word (R189); `target` is the window's position. -/
def acceptValidation (target : Int) (byte : Byte) (s : State) : StepResult × State :=
  if byte ≠ s.plat.sentinel then (.error, raiseError .validationMismatch s)
  else (.pitch, emit (.pitch target) { s with cursor := 1 })

/-- A payload word (R190) and completion (R191). -/
def acceptPayload (target : Int) (byte : Byte) (s : State) : StepResult × State :=
  let t := { s with parsed := s.parsed.set (s.cursor - 1) byte, cursor := s.cursor + 1 }
  if t.cursor = s.plat.cfg.np + 1 then (.complete, { emit (.message t.parsed t.trig) t with trig := -1 })
  else (.pitch, emit (.pitch target) t)

/-- What a decoded word does: the failure (R187), else the correction count, then the word by the cursor. -/
def acceptWord (target : Int) (answer : Byte × HamOutcome) (s : State) : StepResult × State :=
  if answer.2 = .failCorrection then (.error, raiseError .uncorrectable s)
  else
    let t := countCorrection answer.2 s
    if t.cursor = 0 then acceptValidation target answer.1 t else acceptPayload target answer.1 t

/-- `PROCESSED <- PUSHED`, the last action of every synchronized step (R192). -/
def consumePending (s : State) : State := { s with processed := s.pushed }

/-- `SYNC_STEP` (R193). -/
def syncStep (s : State) : Except Fault (StepResult × State) :=
  let target := wordPosition s
  if target < bufferBase s then
    .ok (.error, consumePending (raiseError .missedWindow s))
  else if s.pushed < target + s.plat.wordLength then
    .ok (.idle, consumePending s)
  else
    match memRead s target s.plat.wordLength with
    | .error f => .error f
    | .ok x =>
      let r := acceptWord target (hdec s.plat.ham (windowCode s.plat.num s.plat.cfg x)) s
      .ok (r.1, consumePending r.2)

end Sys2Proof.Machine
end

