-- ==== Sys2Proof/Machine/Synchronizer.lean ====
section
/-!
DEFINITION. The synchronization detector: the sweep, the trigger evaluation and `SEARCH_STEP` (43_synchronizer.md).

The evaluation of the history is written over any `NUM`.
-/

namespace Sys2Proof.Machine

variable {T : Type}

/-! ## The sweep (R161 to R164) -/

/-- One reading: `SNRDB` of the powers at the door frequency and its uptone (R164); the two lanes of `GZ`. -/
def doorReading (num : Numerics T) (c : Config T) (x : List T) : T :=
  snrdb num (gz1 num x (theta num (doorTone num c) c.fs)) (gz1 num x (theta num (doorUptone num c) c.fs))

/-- `HIST <- HIST[1..H−1] ++ [snr]` (R164). -/
def shiftHistory (hist : List T) (snr : T) : List T := hist.drop 1 ++ [snr]

/-- The first index of the door-length window of the iteration that starts now: `p + WO − DOOR` (R162). -/
def searchWindow (s : State) : Int :=
  (s.processed : Int) + s.plat.windowOffset - s.plat.doorLength

/-- `PROCESSED <- PROCESSED + WO` (R161). -/
def advanceSearch (s : State) : State := { s with processed := s.processed + s.plat.windowOffset }

/-- One iteration: skipped if the window's first sample has left the buffer (R163), else a reading (R162, R164). -/
def sweepIteration (s : State) : Except Fault State :=
  if searchWindow s < bufferBase s then .ok (advanceSearch s)
  else
    match memRead s (searchWindow s) s.plat.doorLength with
    | .error f => .error f
    | .ok x => .ok (advanceSearch { s with hist := shiftHistory s.hist (doorReading s.plat.num s.plat.cfg x) })

/-- The sweep of a given number of iterations (R161). -/
def sweep : Nat → State → Except Fault State
  | 0, s => .ok s
  | k + 1, s =>
    match sweepIteration s with
    | .error f => .error f
    | .ok t => sweep k t

/-- `(PUSHED − PROCESSED) div WO`, the number of iterations, taken at entry (R161). -/
def sweepCount (s : State) : Nat := (s.pushed - s.processed) / s.plat.windowOffset

/-! ## The trigger evaluation (R165 to R168) -/

/-- The running maximum of the absolute values, the least index on ties (R165). -/
def maximumFrom (num : Numerics T) : List T → Nat → T × Nat → T × Nat
  | [], _, best => best
  | v :: vs, j, best =>
    maximumFrom num vs (j + 1) (if num.lt best.1 (absNum num v) then (absNum num v, j) else best)

/-- `(maxValue, maxIndex)` of a history (R165).  (The history has 12 entries; of none, it is `(0, 0)`.) -/
def historyMaximum (num : Numerics T) : List T → T × Nat
  | [] => (num.ofInt 0, 0)
  | v :: vs => maximumFrom num vs 1 (absNum num v, 0)

/-- A turning sample qualifies: it has the sign of the maximum and exceeds the level (R166). -/
def qualifies (num : Numerics T) (negative : Bool) (level v : T) : Bool :=
  isNegative num v == negative && num.lt level (absNum num v)

/-- The count of R166 over the rest of the history: `prev` is `HIST[j−1]`, `dir` the last nonzero direction. -/
def peaksFrom (num : Numerics T) (negative : Bool) (level : T) : T → Slope → List T → Nat
  | _, _, [] => 0
  | prev, dir, h :: rest =>
    let s := slopeOf num (num.sub h prev)
    if s = .flat then peaksFrom num negative level h dir rest
    else
      (if dir ≠ .flat ∧ s ≠ dir ∧ qualifies num negative level prev = true then 1 else 0) +
        peaksFrom num negative level h s rest

/-- The peak count of a history (R166). -/
def peakCount (num : Numerics T) (negative : Bool) (level : T) : List T → Nat
  | [] => 0
  | h :: rest => peaksFrom num negative level h .flat rest

/-- `maxIndex` of a history (R165). -/
def maxIndexOf (num : Numerics T) (hist : List T) : Nat := (historyMaximum num hist).2

/-- `negative`, the sign of the reading at `maxIndex` (R165). -/
def maxIsNegative (num : Numerics T) (hist : List T) : Bool :=
  isNegative num (hist.getD (maxIndexOf num hist) (num.ofInt 0))

/-- The number of qualifying peaks: level `maxValue × CFG.RATIO` (R166). -/
def peaksOf (num : Numerics T) (c : Config T) (hist : List T) : Nat :=
  peakCount num (maxIsNegative num hist) (num.mul (historyMaximum num hist).1 c.ratio) hist

/-- The distance guard: `2 × (H − 1 − maxIndex) × WO ≥ DOOR` (R167). -/
def guardHolds (num : Numerics T) (c : Config T) (maxIndex : Nat) : Bool :=
  decide ((doorLength num c : Int) ≤ 2 * ((historyLength num c : Int) - 1 - maxIndex) * windowOffset num c)

/-- The fire value `t = PROCESSED − (H − maxIndex) × WO − SYNC_BIAS` (R168). -/
def fireIndex (s : State) : Int :=
  (s.processed : Int) -
    ((s.plat.historyLength : Int) - maxIndexOf s.plat.num s.hist) * s.plat.windowOffset -
    s.plat.syncBias

/-- The condition of a fire (R168). -/
def firesNow (s : State) : Bool :=
  peaksOf s.plat.num s.plat.cfg s.hist == 1 && guardHolds s.plat.num s.plat.cfg (maxIndexOf s.plat.num s.hist) &&
    decide (0 ≤ fireIndex s)

/-- What a fire does (R168). -/
def fire (s : State) : State :=
  emit (.pitch (fireIndex s))
    { s with trig := fireIndex s, cerr := 0, cursor := 0, parsed := List.replicate s.plat.cfg.np 0 }

/-- The trigger evaluation after the sweep (R168, R169). -/
def evaluateTrigger (s : State) : StepResult × State :=
  if firesNow s then (.pitch, fire s) else (.idle, s)

/-- `SEARCH_STEP` (R160). -/
def searchStep (s : State) : Except Fault (StepResult × State) :=
  match sweep (sweepCount s) s with
  | .error f => .error f
  | .ok t => .ok (evaluateTrigger t)

end Sys2Proof.Machine
end

