-- ==== Sys2Proof/Machine/Push.lean ====
section
/-!
DEFINITION. The streaming sample buffer's commands: PUSH with its run loop, and RDMAXC (42_sample_buffer.md).
-/

namespace Sys2Proof.Machine

/-- `STEP()` (R146). -/
def internalStep (s : State) : Except Fault (StepResult × State) :=
  if searching s then searchStep s else syncStep s

/-- The run loop (R145): step while the result is `PITCH`, at most `bound` times. -/
def runLoop : Nat → State → Except Fault State
  | 0, _ => .error .runLoopExhausted
  | bound + 1, s =>
    match internalStep s with
    | .error f => .error f
    | .ok r => if r.1 = .pitch then runLoop bound r.2 else .ok r.2

/-- The bound of the run loop (R148): a search step, the three words `B = 3 × W` samples can hold, and the last step. -/
def runLoopBound : Nat := 5

/-- The effect of a PUSH before its response (R147): store, count, and run the loop if the gate is open. -/
def pushEffect (chunk : List Binary64) (s : State) : Except Fault State :=
  let t := pushSamples chunk s
  if gateOpen t then runLoop runLoopBound t else .ok t

/-- The counter limit is kept: `PUSHED + min(n, B) < 2^63` (R143). -/
def withinCounterLimit (o : Operands) (s : State) : Bool :=
  decide (s.pushed + countedSamples s.plat o.n.toNat < 2 ^ 63)

/-- The checks of PUSH in the order of 30_encoding.md R88. -/
def pushChecks (o : Operands) (s : State) : List (Option Status) :=
  [check (reservedZero true false o) .reservedNonzero,
   check (configAdmitted s) .badConfig,
   check (o.data.length == pushWords o) .badCount,
   check (allFinite o.data) .badValue,
   check (withinCounterLimit o s) .counterLimit]

/-- PUSH (R147). -/
def execPush (o : Operands) (s : State) : Host.Outcome State Fault Refusal :=
  complete (pushChecks o s)
    (fun s =>
      match pushEffect (chunkOf s.plat.num o) s with
      | .error f => .error f
      | .ok t => .ok (respond [] t))
    s

/-- RDMAXC (R150). -/
def execRdmaxc (o : Operands) (s : State) : Host.Outcome State Fault Refusal :=
  answerQuery o (fun s => integerWord (maxChunk s)) s

end Sys2Proof.Machine
end

