-- ==== Sys2Proof/Machine/Query.lean ====
section
/-!
DEFINITION. The queries and the control commands (46_query_control.md).
-/

namespace Sys2Proof.Machine

/-- NOP (R236). -/
def execNop (o : Operands) (s : State) : Host.Outcome State Fault Refusal :=
  complete (bareChecks o s) (fun s => .ok (respond [] s)) s

/-- RDTRIG: `TRIG` as 64-bit two's complement (R231). -/
def execRdtrig (o : Operands) (s : State) : Host.Outcome State Fault Refusal :=
  answerQuery o (fun s => integerWord s.trig) s

/-- RDWLEN: the word length (R232). -/
def execRdwlen (o : Operands) (s : State) : Host.Outcome State Fault Refusal :=
  answerQuery o (fun s => integerWord s.plat.wordLength) s

/-- RDDLEN: the door length (R233). -/
def execRddlen (o : Operands) (s : State) : Host.Outcome State Fault Refusal :=
  answerQuery o (fun s => integerWord s.plat.doorLength) s

/-- RDCERR: the corrected-error count (R234). -/
def execRdcerr (o : Operands) (s : State) : Host.Outcome State Fault Refusal :=
  answerQuery o (fun s => integerWord s.cerr) s

/-- The checks of RESET: no configuration check (R237; 30_encoding.md R88). -/
def resetChecks (o : Operands) : List (Option Status) :=
  [check (reservedZero false false o) .reservedNonzero,
   check (o.data.length == 0) .badCount]

/-- RESET (R237): the reset state; under a configuration that is not admitted nothing but the response. -/
def execReset (o : Operands) (s : State) : Host.Outcome State Fault Refusal :=
  complete (resetChecks o) (fun s => .ok (respond [] (if configAdmitted s then resetEngine s else s))) s

end Sys2Proof.Machine
end

