-- ==== Sys2Proof/Machine/Dispatch.lean ====
section
/-!
DEFINITION. The dispatch of a command to its meaning (30_encoding.md R82).
-/

namespace Sys2Proof.Machine

-- One arm per row of spec/opcode_table.json.
def exec (i : Instr) (s : State) : Host.Outcome State Fault Refusal :=
  match i with
  | .nop o => Sys2Proof.Machine.execNop o s
  | .push o => Sys2Proof.Machine.execPush o s
  | .rdtrig o => Sys2Proof.Machine.execRdtrig o s
  | .rdwlen o => Sys2Proof.Machine.execRdwlen o s
  | .rddlen o => Sys2Proof.Machine.execRddlen o s
  | .rdcerr o => Sys2Proof.Machine.execRdcerr o s
  | .rdmaxc o => Sys2Proof.Machine.execRdmaxc o s
  | .encode o => Sys2Proof.Machine.execEncode o s
  | .reset o => Sys2Proof.Machine.execReset o s
  | .goertzel o => Sys2Proof.Machine.execGoertzel o s

end Sys2Proof.Machine
end

