-- ==== Sys2Proof/Machine/Step.lean ====
section
/-!
DEFINITION. One step: the next command frame at the port, executed to completion (00_scope.md R7; 30_encoding.md R80).
-/

namespace Sys2Proof.Machine

/-- Take the first frame from the command port, decode it and execute it; a frame that is no command is answered
`ILLEGAL_OPCODE` (30_encoding.md R88, R89).  With no frame at the port there is no step (log 11). -/
def step (s : State) : Host.Outcome State Fault Refusal :=
  match s.cmdPort with
  | [] => .refused .noCommand
  | f :: rest =>
    match decode f with
    | .ok i => exec i { s with cmdPort := rest }
    | .error e => .next (answerIllegal e { s with cmdPort := rest })

/-- The state with the frame of a table word standing first at the command port (log 18). -/
def State.withFetchWord (s : State) (nbits w : Nat) : State :=
  { s with cmdPort := tableFrame nbits w :: s.cmdPort }

end Sys2Proof.Machine
end

