-- ==== Sys2Proof/Machine/Reference.lean ====
section
/-!
DEFINITION. The reference numerics: exact real arithmetic (00_scope.md R14), and its form at the ports (30_encoding.md R84).

The numeric functions of the machine are written over any `NUM`, from the words of a frame to the words of its response;
at this one they are the spec's reference semantics.  The machine itself runs on 64-bit patterns (log 1), since a state must
be plain data.
-/

namespace Sys2Proof.Machine

/-- `NUM.ofBits` into the reals (30_encoding.md R84): the number a finite pattern denotes, both zeros being 0. -/
noncomputable def realOfBits (w : Word) : ℝ :=
  (if (unpack w).neg then -1 else 1) * (unpack w).man * 2 ^ (unpack w).exp

/-- The places behind the binary point that `realToBits` hands on to the rounding: more than any binary64 has. -/
def portPlaces : Nat := 1200

open Classical in
/-- `NUM.toBits` from the reals (30_encoding.md R84): the nearest pattern, ties to even.  What lies behind `portPlaces` places
decides ties only.  A real that is out of range has no nearest pattern, and its word is a free value of its sign in the
greatest binade (log 3). -/
noncomputable def realToBits (x : ℝ) : Word :=
  let scaled := |x| * 2 ^ portPlaces
  (roundPack (decide (x < 0)) ⌊scaled⌋₊ (-(portPlaces : Int)) (decide ((⌊scaled⌋₊ : ℝ) ≠ scaled))).pattern
    (Config.freeRealWord x)

open Classical in
/-- `NUM` over the real numbers (00_scope.md R14). -/
noncomputable def realNumerics : Numerics ℝ where
  add a b := a + b
  sub a b := a - b
  mul a b := a * b
  div a b := a / b
  cos := Real.cos
  sin := Real.sin
  sqrt := Real.sqrt
  log10 := Real.logb 10
  pow a k := a ^ k
  le a b := decide (a ≤ b)
  lt a b := decide (a < b)
  ofInt n := (n : ℝ)
  max a b := max a b
  ofBits := realOfBits
  toBits := realToBits
  pi := Real.pi
  floorMul a b := ⌊a * b⌋
  isFinite _ := true

end Sys2Proof.Machine
end

