-- ==== Sys2Proof/Machine/HostPort.lean ====
section
/-!
DEFINITION. The host's side of the command port: the textual commands as frames, and the PUSHMAX idiom
(30_encoding.md R80, R92).  The machine does not use this file.
-/

namespace Sys2Proof.Machine

/-- A command as the host writes it (30_encoding.md R92); numbers are binary64 words. -/
inductive HostCommand where
  | nop
  | push (samples : List Word)
  | pushZeros (n : Nat)
  | rdtrig
  | rdwlen
  | rddlen
  | rdcerr
  | rdmaxc
  | encode (payload : List Byte) (peak : Word)
  | goertzel (window frequencies : List Word)
  | reset
  deriving DecidableEq, Repr

/-- The operands of a command without any. -/
def bareOperands : Operands := { rsv := 0, k := 0, n := 0, data := [] }

/-- The operands of a PUSH of `samples`: `n` is the list's length (R92). -/
def pushOperands (samples : List Word) : Operands :=
  { rsv := 0, k := 0, n := BitVec.ofNat 32 samples.length, data := samples }

/-- The operands of an ENCODE (30_encoding.md R82, R86). -/
def encodeOperands (payload : List Byte) (peak : Word) : Operands :=
  { rsv := 0, k := 0, n := BitVec.ofNat 32 payload.length, data := packBytes payload ++ [peak] }

/-- The operands of a GOERTZEL (30_encoding.md R82). -/
def goertzelOperands (window frequencies : List Word) : Operands :=
  { rsv := 0, k := BitVec.ofNat 16 frequencies.length, n := BitVec.ofNat 32 window.length,
    data := window ++ frequencies }

/-- The command a textual form stands for (R92). -/
def HostCommand.instr : HostCommand → Instr
  | .nop => .nop bareOperands
  | .push samples => .push (pushOperands samples)
  | .pushZeros n => .push (pushOperands (List.replicate n 0))
  | .rdtrig => .rdtrig bareOperands
  | .rdwlen => .rdwlen bareOperands
  | .rddlen => .rddlen bareOperands
  | .rdcerr => .rdcerr bareOperands
  | .rdmaxc => .rdmaxc bareOperands
  | .encode payload peak => .encode (encodeOperands payload peak)
  | .goertzel window frequencies => .goertzel (goertzelOperands window frequencies)
  | .reset => .reset bareOperands

/-- The host places a command behind what stands at the port (30_encoding.md R80). -/
def hostSend (c : HostCommand) (s : State) : State :=
  { s with cmdPort := s.cmdPort ++ [Sys2Proof.encode c.instr] }

/-- The data words of the last response. -/
def lastData (s : State) : List Word := (s.respPort.getLastD []).drop 1

/-- `PUSHMAX` (R92): RDMAXC giving `m`, PUSH the next `m` samples, until none remain; each round pushes at least one, so
the number of samples bounds the rounds. -/
def pushMax : Nat → List Word → State → Host.Outcome State Fault Refusal
  | 0, _, s => .next s
  | rounds + 1, samples, s =>
    if samples = [] then .next s
    else
      match step (hostSend .rdmaxc s) with
      | .fault f => .fault f
      | .refused r => .refused r
      | .next t =>
        let m := ((lastData t).getD 0 0).toNat
        match step (hostSend (.push (samples.take m)) t) with
        | .fault f => .fault f
        | .refused r => .refused r
        | .next u => pushMax rounds (samples.drop m) u

end Sys2Proof.Machine
end

