-- ==== Sys2Proof/Safety.lean ====
section
/-!
DEFINITION. What counts as a good state, and the words the claims are stated in.
-/

namespace Sys2Proof.Machine

/-! ## Events -/

def Event.isPitch : Event → Bool
  | .pitch _ => true
  | .message _ _ => false
  | .error _ _ => false

def Event.isMessage : Event → Bool
  | .pitch _ => false
  | .message _ _ => true
  | .error _ _ => false

def Event.isError : Event → Bool
  | .pitch _ => false
  | .message _ _ => false
  | .error _ _ => true

/-- An ERROR event with cause MISSED_WINDOW (60_exceptions.md R251). -/
def Event.isMissedWindow : Event → Bool
  | .pitch _ => false
  | .message _ _ => false
  | .error _ c => c == .missedWindow

/-- A MESSAGE event carries `np` bytes (60_exceptions.md R262); the other events carry none. -/
def Event.payloadIs (np : Nat) : Event → Bool
  | .pitch _ => true
  | .message p _ => p.length == np
  | .error _ _ => true

/-- The number of PITCH events whose argument was a fire value (10_state.md R37, I7; 60_exceptions.md R260), in a record
behind an event that was a PITCH or not.  A fire leaves SEARCHING, which only a reset, a MESSAGE or an ERROR enters, so its
PITCH is the one that no PITCH precedes; the PITCHes of the words follow it directly. -/
def countFires : Bool → List Event → Nat
  | _, [] => 0
  | afterPitch, e :: rest => (if e.isPitch && !afterPitch then 1 else 0) + countFires e.isPitch rest

/-- The fires in `EVQ`. -/
def fires (s : State) : Nat := countFires false s.evq

/-! ## The invariant at rest -/

/-- The invariants of 10_state.md R37 under an admitted configuration, with what makes them inductive: `TRIG` is at most
`PUSHED`, `CERR` is at most `CURSOR` while SYNCHRONIZED, and the events come in attempts. -/
structure RestInvariant (s : State) : Prop where
  config : s.plat.admitted = true
  /-- (I1) -/
  processed_le : s.processed ≤ s.pushed
  /-- (I1) -/
  pushed_lt : s.pushed < 2 ^ 63
  /-- (I2) -/
  trig_range : s.trig = -1 ∨ (0 ≤ s.trig ∧ s.trig ≤ s.pushed)
  /-- (I3) -/
  gate_shut : pending s < threshold s
  /-- (I4) -/
  cursor_le_sync : 0 ≤ s.trig → s.cursor ≤ s.plat.cfg.np
  /-- (I4) -/
  cursor_le : s.cursor ≤ s.plat.cfg.np + 1
  cerr_le_sync : 0 ≤ s.trig → s.cerr ≤ s.cursor
  /-- (I5) -/
  cerr_le_cursor : s.cerr ≤ s.cursor + 1
  /-- (I5) -/
  cerr_le : s.cerr ≤ s.plat.cfg.np + 1
  /-- (I6), and the memory's canonical form (log 14). -/
  memory_wf : Memory.wf s.plat s.buf = true
  /-- (I6) -/
  hist_length : s.hist.length = s.plat.historyLength
  /-- (I6) -/
  parsed_length : s.parsed.length = s.plat.cfg.np
  /-- (I7) -/
  messages_le : s.evq.countP Event.isMessage ≤ fires s
  /-- Every fire opens an attempt that a MESSAGE or an ERROR closes, or that is still open. -/
  attempts : s.evq.countP Event.isMessage + s.evq.countP Event.isError + (if 0 ≤ s.trig then 1 else 0) = fires s
  /-- SYNCHRONIZED iff the last event is a PITCH (60_exceptions.md R261). -/
  last_event : 0 ≤ s.trig ↔ (s.evq.getLast?.map Event.isPitch).getD false = true
  /-- 60_exceptions.md R262. -/
  payloads : s.evq.all (Event.payloadIs s.plat.cfg.np) = true

/-- What a host that keeps the chunk bound finds at rest (60_exceptions.md R251): while SYNCHRONIZED, the next word's
window had not fully arrived when samples were last consumed. -/
structure BoundKept (s : State) : Prop where
  inv : RestInvariant s
  bias_le : s.plat.syncBias ≤ s.plat.wordLength
  window_ahead : 0 ≤ s.trig → (s.processed : Int) < wordPosition s + s.plat.wordLength

/-! ## The refusals of 30_encoding.md R88 -/

/-- A reserved field of the command is nonzero (R88, `RESERVED_NONZERO`). -/
def reservedNonzero : Instr → Prop
  | .goertzel o => o.rsv ≠ 0
  | .push o | .encode o => o.rsv ≠ 0 ∨ o.k ≠ 0
  | .nop o | .rdtrig o | .rdwlen o | .rddlen o | .rdcerr o | .rdmaxc o | .reset o => o.rsv ≠ 0 ∨ o.k ≠ 0 ∨ o.n ≠ 0

/-- The configuration matters to the command and is not admitted (R88, `BAD_CONFIG`). -/
def configRefused (i : Instr) (s : State) : Prop :=
  match i with
  | .reset _ => False
  | .nop _ | .push _ | .rdtrig _ | .rdwlen _ | .rddlen _ | .rdcerr _ | .rdmaxc _ | .encode _ | .goertzel _ =>
    s.plat.admitted = false

/-- The counts are wrong (R88, `BAD_COUNT`; the word counts of R82). -/
def countWrong (i : Instr) (s : State) : Prop :=
  match i with
  | .push o => o.data.length ≠ o.n.toNat
  | .encode o => o.n.toNat ≠ s.plat.cfg.np ∨ o.data.length ≠ (o.n.toNat + 7) / 8 + 1
  | .goertzel o => o.n.toNat = 0 ∨ o.data.length ≠ o.n.toNat + o.k.toNat
  | .nop o | .rdtrig o | .rdwlen o | .rddlen o | .rdcerr o | .rdmaxc o | .reset o => o.data ≠ []

/-- A padding byte of the payload is nonzero (R86, R88): the bytes of the payload words behind the `N`-th. -/
def paddingNonzero : Instr → Prop
  | .encode o => ∃ k, o.n.toNat ≤ k ∧ k < 8 * ((o.n.toNat + 7) / 8) ∧ byteAt o.data k ≠ 0
  | .nop _ | .push _ | .rdtrig _ | .rdwlen _ | .rddlen _ | .rdcerr _ | .rdmaxc _ | .reset _ | .goertzel _ => False

/-- The word's exponent bits 62 to 52 are all set: no number (R84). -/
def notANumber (w : Word) : Prop := w.toNat / 2 ^ 52 % 2 ^ 11 = 2 ^ 11 - 1

/-- A numeric data word is not finite (R88, `BAD_VALUE`). -/
def valueNotFinite : Instr → Prop
  | .push o | .goertzel o => ∃ w ∈ o.data, notANumber w
  | .encode o => notANumber (o.data.getD ((o.n.toNat + 7) / 8) 0)
  | .nop _ | .rdtrig _ | .rdwlen _ | .rddlen _ | .rdcerr _ | .rdmaxc _ | .reset _ => False

/-- The counter would reach its limit (R88, `COUNTER_LIMIT`; 42_sample_buffer.md R143). -/
def counterAtLimit (i : Instr) (s : State) : Prop :=
  match i with
  | .push o => 2 ^ 63 ≤ s.pushed + min o.n.toNat (3 * s.plat.wordLength)
  | .nop _ | .rdtrig _ | .rdwlen _ | .rddlen _ | .rdcerr _ | .rdmaxc _ | .encode _ | .reset _ | .goertzel _ => False

/-- No check of R88 refuses the command. -/
def accepted (i : Instr) (s : State) : Prop :=
  ¬ reservedNonzero i ∧ ¬ configRefused i s ∧ ¬ countWrong i s ∧ ¬ paddingNonzero i ∧ ¬ valueNotFinite i ∧
    ¬ counterAtLimit i s

/-- The command is answered with the one status word `w` and changes nothing (R88). -/
def answersOnly (i : Instr) (s : State) (w : Word) : Prop :=
  exec i s = .next { s with respPort := s.respPort ++ [[w]] }

/-! ## The run loop without a bound (42_sample_buffer.md R145) -/

/-- `STEP()` ends in the result `r` and the state `t` (42_sample_buffer.md R146): `SEARCH_STEP` does when SEARCHING,
`SYNC_STEP` when SYNCHRONIZED. -/
inductive StepRun (s : State) (r : StepResult) (t : State) : Prop where
  | searching : s.trig < 0 → searchStep s = .ok (r, t) → StepRun s r t
  | synchronized : 0 ≤ s.trig → syncStep s = .ok (r, t) → StepRun s r t

/-- `repeat RES <- STEP() until RES != PITCH` ends in the given state. -/
inductive LoopRun : State → State → Prop where
  | stop {s t : State} {r : StepResult} : StepRun s r t → r ≠ .pitch → LoopRun s t
  | again {s t u : State} : StepRun s .pitch t → LoopRun t u → LoopRun s u

/-! ## What may be assumed of `HAM` (44_frame_decoder.md R197) -/

/-- (H-RT). -/
def HamRoundTrip (h : Ham) : Prop := ∀ b : Byte, hdec h (henc h b) = (b, .ok)

/-- (H-1BIT). -/
def HamSingleBit (h : Ham) : Prop :=
  ∀ (b : Byte) (k : Fin 12), hdec h (henc h b ^^^ (1#12 <<< (k : Nat))) = (b, .correctedError)

/-! ## Samples of a rendered word, over the reals (45_encoder.md R212 to R215) -/

/-- `hann(n, N)` over the reals (R212). -/
noncomputable def realHann (n len : Nat) : ℝ :=
  (1 / 2) * (1 - Real.cos (2 * Real.pi * n / ((len : ℝ) - 1)))

/-- Tone `k` of the progression over the reals (40_tone_table_geometry.md R106). -/
noncomputable def realTone (c : Config ℝ) (k : Nat) : ℝ :=
  match c.spacing with
  | .linear => c.f0 + k * c.step
  | .geometric => c.f0 * c.step ^ k

/-- Sample `n` of a burst of `len` samples at frequency `f` with amplitude `amp`, over the reals (R213). -/
noncomputable def realBurst (c : Config ℝ) (len : Nat) (f amp : ℝ) (n : Nat) : ℝ :=
  amp * realHann n len * Real.sin (2 * Real.pi * f * n / c.fs)

/-- Sample `n` of the word that renders `code` over `len` samples, over the reals (R215): bit `i` sounds tone `2 i` if
it is 1, else tone `2 i + 1`, each with a twelfth of the peak. -/
noncomputable def realWordSample (c : Config ℝ) (len : Nat) (code : Code) (peak : ℝ) (n : Nat) : ℝ :=
  ∑ i ∈ Finset.range 12,
    realBurst c len (realTone c (if code.getLsbD i then 2 * i else 2 * i + 1)) (peak / 12) n

end Sys2Proof.Machine
end

