-- ==== Sys2Proof/WellFormed.lean ====
section
/-!
DEFINITION. Well-formed commands: the conditions of 30_encoding.md R88 that a frame meets or not by itself, whatever the
state and the configuration.  (`BAD_CONFIG`, ENCODE's `N = CFG.NP` and `COUNTER_LIMIT` look at the machine.)
-/

namespace Sys2Proof

/-- The frame has no reserved bit set, holds the words the table gives it, and its numbers are finite. -/
def Instr.wellFormed : Instr → Bool
  | .nop o | .rdtrig o | .rdwlen o | .rddlen o | .rdcerr o | .rdmaxc o | .reset o =>
    Machine.reservedZero false false o && o.data.length == 0
  | .push o =>
    Machine.reservedZero true false o && o.data.length == Machine.pushWords o && Machine.allFinite o.data
  | .encode o =>
    Machine.reservedZero true false o && o.data.length == Machine.encodeWords o &&
      Machine.paddingIsZero (Machine.payloadWords o) o.n.toNat && Machine.isFiniteWord (Machine.peakWord o)
  | .goertzel o =>
    Machine.reservedZero true true o && o.n.toNat != 0 && o.data.length == Machine.goertzelWords o &&
      Machine.allFinite o.data

end Sys2Proof
end

