-- ==== Sys2Proof/Certificates/Slice0/Obligations.lean ====
section
/-!
DEFINITION. The statements for the provers, each with the rule of spec/ it formalises.
-/

open Sys2Proof Sys2Proof.Machine

/-! ## Encodings (30_encoding.md) -/

/-- R82, R93: words written out bit by bit from R81 decode to the commands they stand for. -/
def Obligations.WordsDecodeAsWritten : Prop :=
  decode [0x0000000000000000] = .ok (.nop ⟨0, 0, 0, []⟩) ∧
  decode [0x0100000000000002, 0x3FF0000000000000, 0xBFE0000000000000] =
    .ok (.push ⟨0, 0, 2, [0x3FF0000000000000, 0xBFE0000000000000]⟩) ∧
  decode [0x0200000000000000] = .ok (.rdtrig ⟨0, 0, 0, []⟩) ∧
  decode [0x0300000000000000] = .ok (.rdwlen ⟨0, 0, 0, []⟩) ∧
  decode [0x0400000000000000] = .ok (.rddlen ⟨0, 0, 0, []⟩) ∧
  decode [0x0500000000000000] = .ok (.rdcerr ⟨0, 0, 0, []⟩) ∧
  decode [0x0600000000000000] = .ok (.rdmaxc ⟨0, 0, 0, []⟩) ∧
  decode [0x0700000000000002, 0x000000000000EF12, 0x3FF0000000000000] =
    .ok (.encode ⟨0, 0, 2, [0x000000000000EF12, 0x3FF0000000000000]⟩) ∧
  decode [0x0800000000000000] = .ok (.reset ⟨0, 0, 0, []⟩) ∧
  decode [0x0900000100000001, 0x3FF0000000000000, 0x0000000000000000] =
    .ok (.goertzel ⟨0, 1, 1, [0x3FF0000000000000, 0x0000000000000000]⟩) ∧
  decode [0x0201000000000000] = .ok (.rdtrig ⟨1, 0, 0, []⟩) ∧
  decode [0x0A00000000000000] = .error (.illegalOpcode 0x0A) ∧
  decode [] = .error .emptyFrame

/-- R81, R82: decoding the frame of a command gives the command back, whatever its operands; and a frame that decodes is
the frame of its command, so no bit of a frame is dropped. -/
def Obligations.DecodeAndEncodeAgree : Prop :=
  (∀ i : Instr, decode (encode i) = .ok i) ∧ ∀ (f : Frame) (i : Instr), decode f = .ok i → encode i = f

/-- R81: the four fields of the header by position, and the data words behind it. -/
def Obligations.HeaderFieldsByPosition : Prop :=
  ∀ (h : Word) (d : List Word),
    (h.toNat / 2 ^ 56 ≤ 9 → ∃ i, decode (h :: d) = .ok i ∧
      (opcodeOf i).toNat = h.toNat / 2 ^ 56 ∧
      (operandsIn i).rsv.toNat = h.toNat / 2 ^ 48 % 2 ^ 8 ∧
      (operandsIn i).k.toNat = h.toNat / 2 ^ 32 % 2 ^ 16 ∧
      (operandsIn i).n.toNat = h.toNat % 2 ^ 32 ∧
      (operandsIn i).data = d) ∧
    (10 ≤ h.toNat / 2 ^ 56 → ∃ e, decode (h :: d) = .error e)

/-- R86: packing a byte sequence and unpacking it gives it back, in `ceil(m / 8)` words with zero padding. -/
def Obligations.BytePackingRoundTrip : Prop :=
  ∀ bs : List Byte,
    unpackBytes (packBytes bs) bs.length = bs ∧
    (packBytes bs).length = (bs.length + 7) / 8 ∧
    (∀ k, k < bs.length → ∀ b, b < 8 → ((packBytes bs).getD (k / 8) 0).getLsbD (8 * (k % 8) + b) =
      (bs.getD k 0).getLsbD b) ∧
    paddingIsZero (packBytes bs) bs.length = true

/-- R90: the words of the three event frames. -/
def Obligations.EventFrameWords : Prop :=
  ∀ (np : Nat) (i : Int) (n : Nat) (p : List Byte), np < 2 ^ 31 →
    eventFrame np (.pitch i) = [0x4000000000000000, BitVec.ofInt 64 i] ∧
    eventFrame np (.error n .missedWindow) = [0xD000000000000000, BitVec.ofNat 64 n] ∧
    eventFrame np (.error n .uncorrectable) = [0xE000000000000000, BitVec.ofNat 64 n] ∧
    eventFrame np (.error n .validationMismatch) = [0xF000000000000000, BitVec.ofNat 64 n] ∧
    eventFrame np (.message p i) =
      BitVec.ofNat 64 (2 ^ 63 + np) :: BitVec.ofInt 64 i :: packBytes p

/-! ## Steps, responses and refusals -/

/-- R7, R80: a step executes the command the frame at the port decodes to, with that frame taken from the port. -/
def Obligations.StepExecutesDecodedCommand : Prop :=
  ∀ (s : State) (f : Frame) (rest : List Frame) (i : Instr),
    s.cmdPort = f :: rest → decode f = .ok i → step s = exec i { s with cmdPort := rest }

/-- The model's choice (log 11): with no command at the port there is no step. -/
def Obligations.StepNeedsCommand : Prop :=
  ∀ s : State, s.cmdPort = [] → step s = .refused .noCommand

/-- R88: the status of every frame, in the order of the table; a refused command changes nothing but the response port,
and an accepted one is answered OK. -/
def Obligations.StatusTable : Prop :=
  (∀ (s : State) (f : Frame) (rest : List Frame), s.cmdPort = f :: rest →
    (f = [] ∨ ∃ h d, f = h :: d ∧ 10 ≤ h.toNat / 2 ^ 56) →
    step s = .next { s with cmdPort := rest, respPort := s.respPort ++ [[0x0100000000000000]] }) ∧
  ∀ (i : Instr) (s : State),
    (reservedNonzero i → answersOnly i s 0x0200000000000000) ∧
    (¬ reservedNonzero i → configRefused i s → answersOnly i s 0x0300000000000000) ∧
    (¬ reservedNonzero i → ¬ configRefused i s → countWrong i s → answersOnly i s 0x0400000000000000) ∧
    (¬ reservedNonzero i → ¬ configRefused i s → ¬ countWrong i s → paddingNonzero i →
      answersOnly i s 0x0200000000000000) ∧
    (¬ reservedNonzero i → ¬ configRefused i s → ¬ countWrong i s → ¬ paddingNonzero i → valueNotFinite i →
      answersOnly i s 0x0500000000000000) ∧
    (¬ reservedNonzero i → ¬ configRefused i s → ¬ countWrong i s → ¬ paddingNonzero i → ¬ valueNotFinite i →
      counterAtLimit i s → answersOnly i s 0x0600000000000000) ∧
    (accepted i s → ∃ t data, exec i s = .next t ∧
      t.respPort = s.respPort ++ [statusWord .ok data.length :: data])

/-- R8, R148, R263, R288: every command, in every state, ends in a next state with exactly one more response frame. -/
def Obligations.EveryCommandCompletes : Prop :=
  ∀ (i : Instr) (s : State), ∃ t r, exec i s = .next t ∧ t.respPort = s.respPort ++ [r]

/-- R83, R88: a well-formed command is answered OK unless the configuration, ENCODE's payload length or the counter limit
refuses it; a command that is not well-formed is refused in every state. -/
def Obligations.WellFormedCommandAccepted : Prop :=
  ∀ (i : Instr) (s : State),
    (i.wellFormed = true → ¬ configRefused i s → ¬ counterAtLimit i s →
      (∀ o, i = .encode o → o.n.toNat = s.plat.cfg.np) →
      ∃ t data, exec i s = .next t ∧ t.respPort = s.respPort ++ [statusWord .ok data.length :: data]) ∧
    (i.wellFormed = false → ∃ st, st ≠ .ok ∧ answersOnly i s (statusWord st 0))

/-! ## Queries and control (46_query_control.md, 42_sample_buffer.md) -/

/-- R236: NOP answers OK and changes nothing else; its refusals. -/
def Obligations.NopOnlyResponds : Prop :=
  decode [0x0000000000000000] = .ok (.nop bareOperands) ∧
  (∀ s : State, s.plat.admitted = true →
    exec (.nop bareOperands) s = .next { s with respPort := s.respPort ++ [[0x0000000000000000]] }) ∧
  ∀ (o : Operands) (s : State),
    (o.rsv ≠ 0 ∨ o.k ≠ 0 ∨ o.n ≠ 0 → answersOnly (.nop o) s 0x0200000000000000) ∧
    (o.rsv = 0 → o.k = 0 → o.n = 0 → s.plat.admitted = false → answersOnly (.nop o) s 0x0300000000000000) ∧
    (o.rsv = 0 → o.k = 0 → o.n = 0 → s.plat.admitted = true → o.data ≠ [] →
      answersOnly (.nop o) s 0x0400000000000000)

/-- R231: RDTRIG. -/
def Obligations.RdtrigReturnsTrigger : Prop :=
  decode [0x0200000000000000] = .ok (.rdtrig bareOperands) ∧
  ∀ s : State, s.plat.admitted = true →
    exec (.rdtrig bareOperands) s =
      .next { s with respPort := s.respPort ++ [[0x0000000000000001, BitVec.ofInt 64 s.trig]] }

/-- R232: RDWLEN. -/
def Obligations.RdwlenReturnsWordLength : Prop :=
  decode [0x0300000000000000] = .ok (.rdwlen bareOperands) ∧
  ∀ s : State, s.plat.admitted = true →
    exec (.rdwlen bareOperands) s =
      .next { s with respPort := s.respPort ++ [[0x0000000000000001, BitVec.ofNat 64 s.plat.wordLength]] }

/-- R233: RDDLEN. -/
def Obligations.RddlenReturnsDoorLength : Prop :=
  decode [0x0400000000000000] = .ok (.rddlen bareOperands) ∧
  ∀ s : State, s.plat.admitted = true →
    exec (.rddlen bareOperands) s =
      .next { s with respPort := s.respPort ++ [[0x0000000000000001, BitVec.ofNat 64 s.plat.doorLength]] }

/-- R234: RDCERR. -/
def Obligations.RdcerrReturnsCorrections : Prop :=
  decode [0x0500000000000000] = .ok (.rdcerr bareOperands) ∧
  ∀ s : State, s.plat.admitted = true →
    exec (.rdcerr bareOperands) s =
      .next { s with respPort := s.respPort ++ [[0x0000000000000001, BitVec.ofNat 64 s.cerr]] }

/-- R150: RDMAXC returns `THR − (PUSHED − PROCESSED)`, at rest a value in `1..THR`. -/
def Obligations.RdmaxcReturnsChunkBound : Prop :=
  decode [0x0600000000000000] = .ok (.rdmaxc bareOperands) ∧
  ∀ s : State, s.plat.admitted = true →
    exec (.rdmaxc bareOperands) s =
      .next { s with respPort := s.respPort ++ [[0x0000000000000001,
        BitVec.ofInt 64 (((if s.trig < 0 then s.plat.wordLength / 4 else s.plat.wordLength : Nat) : Int)
          - ((s.pushed : Int) - s.processed))]] } ∧
    (RestInvariant s →
      1 ≤ (BitVec.ofInt 64 (((if s.trig < 0 then s.plat.wordLength / 4 else s.plat.wordLength : Nat) : Int)
          - ((s.pushed : Int) - s.processed))).toNat ∧
      (BitVec.ofInt 64 (((if s.trig < 0 then s.plat.wordLength / 4 else s.plat.wordLength : Nat) : Int)
          - ((s.pushed : Int) - s.processed))).toNat ≤
        (if s.trig < 0 then s.plat.wordLength / 4 else s.plat.wordLength))

/-- R237: RESET puts every engine register into its reset state and responds OK; under a configuration that is not
admitted it only responds; its refusals. -/
def Obligations.ResetRestoresEngine : Prop :=
  decode [0x0800000000000000] = .ok (.reset bareOperands) ∧
  (∀ s : State,
    (s.plat.admitted = true → ∃ t, exec (.reset bareOperands) s = .next t ∧
      t.pushed = 0 ∧ t.processed = 0 ∧ t.trig = -1 ∧ t.cerr = 0 ∧ t.cursor = 0 ∧
      t.buf = List.replicate (3 * s.plat.wordLength) ⟨0⟩ ∧
      t.hist = List.replicate 12 ⟨0⟩ ∧
      t.parsed = List.replicate s.plat.cfg.np 0 ∧
      t.plat = s.plat ∧ t.cmdPort = s.cmdPort ∧ t.eventPort = s.eventPort ∧
      t.respPort = s.respPort ++ [[0x0000000000000000]]) ∧
    (s.plat.admitted = false →
      exec (.reset bareOperands) s = .next { s with respPort := s.respPort ++ [[0x0000000000000000]] })) ∧
  ∀ (o : Operands) (s : State),
    (o.rsv ≠ 0 ∨ o.k ≠ 0 ∨ o.n ≠ 0 → answersOnly (.reset o) s 0x0200000000000000) ∧
    (o.rsv = 0 → o.k = 0 → o.n = 0 → o.data ≠ [] → answersOnly (.reset o) s 0x0400000000000000)

/-- R38: the reset state, after power-on with any platform and after the RESET command.  (That a RESET empties `EVQ` is also
the choice among those of R237 that log 12 names; how many zeros a configuration that is not admitted gets is the choice
of log 23.) -/
def Obligations.ResetStateValues : Prop :=
  State.reset = State.powerOn State.reset.plat ∧
  ∀ u : State,
    (u = State.powerOn u.plat ∨
      ∃ s, s.plat.admitted = true ∧ exec (.reset bareOperands) s = .next u ∧ u.plat = s.plat) →
    u.pushed = 0 ∧ u.processed = 0 ∧ u.trig = -1 ∧ u.cerr = 0 ∧ u.cursor = 0 ∧
    u.buf = List.replicate u.plat.bufferLength ⟨0⟩ ∧
    u.hist = List.replicate u.plat.historyLength ⟨0⟩ ∧
    u.parsed = List.replicate u.plat.cfg.np 0 ∧
    u.evq = []

/-! ## Frames over all commands -/

/-- R39, R127, R219, R230: a command other than PUSH and RESET writes nothing but its one response frame. -/
def Obligations.ReadOnlyCommandsFrame : Prop :=
  ∀ (i : Instr) (s : State), (∀ o, i ≠ .push o) → (∀ o, i ≠ .reset o) →
    ∃ r, exec i s = .next { s with respPort := s.respPort ++ [r] }

/-- R29, R72: no step changes the platform's parameters. -/
def Obligations.PlatformNeverWritten : Prop :=
  ∀ s t : State, step s = .next t → t.plat = s.plat

/-- R22, R23, R37 (I1): no command but RESET lowers `PUSHED` or `PROCESSED`, and `PROCESSED` stays at most `PUSHED`. -/
def Obligations.CountersNeverDecrease : Prop :=
  ∀ (i : Instr) (s t : State), (∀ o, i ≠ .reset o) → s.processed ≤ s.pushed → exec i s = .next t →
    s.pushed ≤ t.pushed ∧ s.processed ≤ t.processed ∧ t.processed ≤ t.pushed

/-! ## The sample buffer and PUSH (20_memory.md, 42_sample_buffer.md) -/

/-- R141: the buffer keeps its length and holds the last `B` of the old samples followed by the chunk. -/
def Obligations.BufferHoldsNewestSamples : Prop :=
  ∀ (b : Nat) (m c : List Binary64), m.length = b →
    (memWrite b m c).length = b ∧
    memWrite b m c = (m ++ c).drop ((m ++ c).length - b)

/-- R62: a window read is defined iff the window is retained, and is then the cells of the window. -/
def Obligations.WindowReadDefined : Prop :=
  ∀ (s : State) (a : Int) (n : Nat), s.buf.length = s.plat.bufferLength →
    ((s.pushed : Int) - s.plat.bufferLength ≤ a ∧ a + n ≤ s.pushed →
      ∃ x, memRead s a n = .ok x ∧ x.length = n ∧
        ∀ j, j < n → x[j]? = s.buf[(a - ((s.pushed : Int) - s.plat.bufferLength)).toNat + j]?) ∧
    (¬ ((s.pushed : Int) - s.plat.bufferLength ≤ a ∧ a + n ≤ s.pushed) →
      memRead s a n = .error .memReadOutOfRange)

/-- R61: a sample keeps its absolute index as long as it is retained. -/
def Obligations.RetainedSamplesKeepIndex : Prop :=
  ∀ (s : State) (chunk x : List Binary64) (a : Int) (n : Nat), s.buf.length = s.plat.bufferLength →
    memRead s a n = .ok x → bufferBase (pushSamples chunk s) ≤ a → memRead (pushSamples chunk s) a n = .ok x

/-- R61, R142: a chunk of at most `B` samples reads back at the absolute indices from the old `PUSHED` on. -/
def Obligations.PushedSamplesReadBack : Prop :=
  ∀ (s : State) (chunk : List Binary64), s.buf.length = s.plat.bufferLength →
    chunk.length ≤ s.plat.bufferLength → memRead (pushSamples chunk s) s.pushed chunk.length = .ok chunk

/-- R142 (and R141, R259): an accepted PUSH completes; it stores the chunk, counts `min(n, B)` samples, appends its events
to the event stream, responds OK without data, and leaves the platform and the command port alone. -/
def Obligations.PushStoresAndCounts : Prop :=
  ∀ (o : Operands) (s : State), accepted (.push o) s →
    ∃ t evs, exec (.push o) s = .next t ∧
      t.pushed = s.pushed + min o.n.toNat (3 * s.plat.wordLength) ∧
      t.buf = memWrite (3 * s.plat.wordLength) s.buf (o.data.map ofBits) ∧
      t.plat = s.plat ∧ t.cmdPort = s.cmdPort ∧
      t.respPort = s.respPort ++ [[0x0000000000000000]] ∧
      t.evq = s.evq ++ evs ∧
      t.eventPort = s.eventPort ++ evs.map (eventFrame s.plat.cfg.np)

/-- R144: below the gate threshold no step is entered: the PUSH stores, counts and responds, and changes nothing else. -/
def Obligations.PushBelowThreshold : Prop :=
  ∀ (o : Operands) (s : State), accepted (.push o) s →
    ((s.pushed + min o.n.toNat (3 * s.plat.wordLength) : Nat) : Int) - s.processed <
      ((if s.trig < 0 then s.plat.wordLength / 4 else s.plat.wordLength : Nat) : Int) →
    exec (.push o) s = .next
      { s with
        buf := memWrite (3 * s.plat.wordLength) s.buf (o.data.map ofBits)
        pushed := s.pushed + min o.n.toNat (3 * s.plat.wordLength)
        respPort := s.respPort ++ [[0x0000000000000000]] }

/-- R145, R146: with the gate open, a PUSH runs the unbounded loop "repeat the step while its result is PITCH" to its end,
each step being the search step if `TRIG < 0` when it is called and the synchronized step otherwise (`StepRun`). -/
def Obligations.PushRunsLoopToItsEnd : Prop :=
  ∀ (o : Operands) (s : State), accepted (.push o) s →
    ((if s.trig < 0 then s.plat.wordLength / 4 else s.plat.wordLength : Nat) : Int) ≤
      ((s.pushed + min o.n.toNat (3 * s.plat.wordLength) : Nat) : Int) - s.processed →
    ∃ u, LoopRun
        { s with
          buf := memWrite (3 * s.plat.wordLength) s.buf (o.data.map ofBits)
          pushed := s.pushed + min o.n.toNat (3 * s.plat.wordLength) } u ∧
      exec (.push o) s = .next { u with respPort := u.respPort ++ [[0x0000000000000000]] }

/-- R148, R256: from a state at rest, one PUSH emits at most `CFG.NP + 2` events, and all but the last are PITCH; so at
most one is an ERROR and at most one a MESSAGE. -/
def Obligations.PushEventsBounded : Prop :=
  ∀ (o : Operands) (s : State), RestInvariant s → accepted (.push o) s →
    ∃ t evs, exec (.push o) s = .next t ∧ t.evq = s.evq ++ evs ∧
      evs.length ≤ s.plat.cfg.np + 2 ∧ evs.dropLast.all Event.isPitch = true

/-! ## The tone table and geometry (40_tone_table_geometry.md) -/

/-- R100: the word length is the sample rate times the word duration, cut to an integer: over the reals, with the rule's
example; in the machine, whose fields are finite, of the product that its `NUM` gives, and of the exact product where that
is out of the range of binary64 (both the model's reading, log 7), where R11 then refuses the configuration.  And what
admission says of it. -/
def Obligations.WordLengthIsFloor : Prop :=
  (∀ c : Config ℝ, 0 ≤ c.fs * c.tw →
    (wordLength realNumerics c : ℝ) ≤ c.fs * c.tw ∧ c.fs * c.tw < wordLength realNumerics c + 1) ∧
  (∀ c : Config ℝ, c.fs = 16000 → c.tw = 8 / 1000 → wordLength realNumerics c = 128) ∧
  (∀ p : Platform, isFiniteWord p.cfg.fs.bits = true → isFiniteWord p.cfg.tw.bits = true →
    ((mulRounded (unpack p.cfg.fs.bits) (unpack p.cfg.tw.bits)).inRange = true →
      ∀ x : Word, x = (p.num.mul p.cfg.fs p.cfg.tw).bits → isFiniteWord x = true → 0 ≤ realOfBits x →
        (p.wordLength : ℝ) ≤ realOfBits x ∧ realOfBits x < p.wordLength + 1) ∧
    ((mulRounded (unpack p.cfg.fs.bits) (unpack p.cfg.tw.bits)).inRange = false →
      p.admitted = false ∧
      ∀ x : ℝ, x = realOfBits p.cfg.fs.bits * realOfBits p.cfg.tw.bits → 0 ≤ x →
        (p.wordLength : ℝ) ≤ x ∧ x < p.wordLength + 1)) ∧
  ∀ (T : Type) (num : Numerics T) (c : Config T), admitted num c = true →
    4 ≤ wordLength num c ∧ wordLength num c % 4 = 0 ∧ 3 * wordLength num c < 2 ^ 31

/-- R101, R102, R103, R105: the window lengths of an admitted configuration, over any `NUM`; that `H` is 12 is R104, which
the spec derives from R102 and R103. -/
def Obligations.AdmittedGeometry : Prop :=
  ∀ (T : Type) (num : Numerics T) (c : Config T), admitted num c = true →
    doorLength num c = wordLength num c ∧ doorLength num c = 4 * windowOffset num c ∧ 1 ≤ windowOffset num c ∧
    bufferLength num c = 3 * wordLength num c ∧ historyLength num c = 12 ∧
    frameLength num c = 2 * doorLength num c + c.np * wordLength num c

/-- R106, R107: over the reals, `F[i]` and `FU[i]` are tones `2 i` and `2 i + 1` of the progression. -/
def Obligations.ToneTableOverReals : Prop :=
  ∀ (c : Config ℝ) (i : Nat), i < 12 →
    (lowTones realNumerics c)[i]? = some (realTone c (2 * i)) ∧
    (upTones realNumerics c)[i]? = some (realTone c (2 * i + 1))

/-! ## The spectral estimator (41_goertzel.md) -/

/-- R121, R127: GOERTZEL answers, for each frequency, the estimator at that frequency over `CFG.FS`. -/
def Obligations.GoertzelAnswersPowers : Prop :=
  ∀ (o : Operands) (s : State), s.plat.admitted = true → o.rsv = 0 → o.n.toNat ≠ 0 →
    o.data.length = o.n.toNat + o.k.toNat → (∀ w ∈ o.data, ¬ notANumber w) →
    exec (.goertzel o) s = .next { s with respPort := s.respPort ++
      [BitVec.ofNat 64 o.k.toNat :: (o.data.drop o.n.toNat).map fun f =>
        (gz1 s.plat.num ((o.data.take o.n.toNat).map ofBits)
          (s.plat.num.div (s.plat.num.mul (s.plat.num.mul (s.plat.num.ofInt 2) s.plat.num.pi) (ofBits f))
            s.plat.cfg.fs)).bits] }

/-- R123: the recurrence, over any `NUM`: `q (n + 2)` is `s[n]`, from `s[−2] = s[−1] = 0`. -/
def Obligations.GoertzelRecurrenceSteps : Prop :=
  ∀ (T : Type) (num : Numerics T) (θ : T) (x : List T) (q : Nat → T),
    q 0 = num.ofInt 0 → q 1 = num.ofInt 0 →
    (∀ n v, x[n]? = some v →
      q (n + 2) = num.sub (num.add v (num.mul (num.mul (num.ofInt 2) (num.cos θ)) (q (n + 1)))) (q n)) →
    goertzelRecurrence num (num.mul (num.ofInt 2) (num.cos θ)) x (num.ofInt 0) (num.ofInt 0) =
      (q (x.length + 1), q x.length)

/-- R125: over the reals the corrected value is the Fourier sum of the window, and the estimate is its magnitude times
`sqrt 2` over the length. -/
def Obligations.GoertzelIsFourierSum : Prop :=
  ∀ (x : List ℝ) (θ : ℝ),
    correctedValue realNumerics x θ =
      (∑ n ∈ Finset.range x.length, x.getD n 0 * Real.cos (θ * n),
       -∑ n ∈ Finset.range x.length, x.getD n 0 * Real.sin (θ * n)) ∧
    gz1 realNumerics x θ =
      Real.sqrt 2 * Real.sqrt ((∑ n ∈ Finset.range x.length, x.getD n 0 * Real.cos (θ * n)) ^ 2 +
        (∑ n ∈ Finset.range x.length, x.getD n 0 * Real.sin (θ * n)) ^ 2) / x.length

/-- R128: the corner cases of the estimator over the reals. -/
def Obligations.GoertzelCornerCases : Prop :=
  ∀ (x : List ℝ) (θ v : ℝ) (m : ℤ),
    gz1 realNumerics [v] θ = Real.sqrt 2 * |v| ∧
    gz1 realNumerics (List.replicate x.length 0) θ = 0 ∧
    gz1 realNumerics x 0 = Real.sqrt 2 * |x.sum| / x.length ∧
    gz1 realNumerics x (-θ) = gz1 realNumerics x θ ∧
    gz1 realNumerics x (θ + m * (2 * Real.pi)) = gz1 realNumerics x θ ∧
    gz1 realNumerics x Real.pi =
      Real.sqrt 2 * |∑ n ∈ Finset.range x.length, (-1) ^ n * x.getD n 0| / x.length ∧
    0 ≤ gz1 realNumerics x θ

/-- R126: the clamped decibel ratio over the reals and its corner cases. -/
def Obligations.SnrRatioClamped : Prop :=
  ∀ a b : ℝ, 0 ≤ a → 0 ≤ b →
    snrdb realNumerics a b = 10 * Real.logb 10 (max a (10 ^ (-12 : ℤ)) / max b (10 ^ (-12 : ℤ))) ∧
    snrdb realNumerics a a = 0 ∧
    snrdb realNumerics a b = -snrdb realNumerics b a ∧
    snrdb realNumerics 0 1 = -120 ∧
    snrdb realNumerics 1 0 = 120

/-! ## The synchronizer (43_synchronizer.md) -/

/-- R163, R164 (windows by R162): one iteration skips a window whose start has left the buffer, and else shifts the
reading of the door pair over the door-length window into `HIST`. -/
def Obligations.SearchIterationReadsOrSkips : Prop :=
  ∀ s : State, s.plat.admitted = true →
    (s.plat.windowOffset : Int) ≤ (s.pushed : Int) - s.processed →
    ((s.processed : Int) + s.plat.windowOffset - s.plat.doorLength < (s.pushed : Int) - s.plat.bufferLength →
      sweepIteration s = .ok { s with processed := s.processed + s.plat.windowOffset }) ∧
    ((s.pushed : Int) - s.plat.bufferLength ≤ (s.processed : Int) + s.plat.windowOffset - s.plat.doorLength →
      ∃ x, memRead s ((s.processed : Int) + s.plat.windowOffset - s.plat.doorLength) s.plat.doorLength =
          .ok x ∧
        sweepIteration s = .ok
          { s with
            processed := s.processed + s.plat.windowOffset
            hist := s.hist.drop 1 ++
              [snrdb s.plat.num
                (gz1 s.plat.num x (theta s.plat.num (lowTone s.plat.num s.plat.cfg 11) s.plat.cfg.fs))
                (gz1 s.plat.num x (theta s.plat.num (upTone s.plat.num s.plat.cfg 11) s.plat.cfg.fs))] })

/-- R161, R164, R165 (with R168, R169): the search step is the trigger evaluation of the state after
`(PUSHED − PROCESSED) div WO` sweep iterations, one after the other from its own; it consumes whole window offsets until less
than one is pending, and writes nothing but `PROCESSED` and `HIST`, unless it fires. -/
def Obligations.SearchStepConsumesOffsets : Prop :=
  ∀ s : State, s.plat.admitted = true → s.processed ≤ s.pushed →
    ∃ (us : Nat → State) (u : State) (r : StepResult) (t : State),
      us 0 = s ∧ u = us ((s.pushed - s.processed) / s.plat.windowOffset) ∧
      (∀ k, k < (s.pushed - s.processed) / s.plat.windowOffset →
        sweepIteration (us k) = .ok (us (k + 1))) ∧
      searchStep s = .ok (r, t) ∧ (r, t) = evaluateTrigger u ∧
      u.processed = s.processed +
        (s.pushed - s.processed) / s.plat.windowOffset * s.plat.windowOffset ∧
      t.processed = u.processed ∧ t.hist = u.hist ∧
      t.processed ≤ t.pushed ∧ t.pushed - t.processed < s.plat.windowOffset ∧
      ((r = .idle ∧ t = { s with processed := u.processed, hist := u.hist }) ∨
        (r = .pitch ∧ 0 ≤ t.trig ∧
          t = { s with
            processed := u.processed, hist := u.hist
            trig := t.trig, cerr := 0, cursor := 0, parsed := List.replicate s.plat.cfg.np 0
            evq := s.evq ++ [.pitch t.trig]
            eventPort := s.eventPort ++ [[0x4000000000000000, BitVec.ofInt 64 t.trig]] }))

/-- R165: over the reals, the maximum of the absolute readings, at the least index that attains it, and its sign. -/
def Obligations.HistoryMaximumIsLeastIndex : Prop :=
  ∀ (h : List ℝ), h ≠ [] →
    maxIndexOf realNumerics h < h.length ∧
    (historyMaximum realNumerics h).1 = |h.getD (maxIndexOf realNumerics h) 0| ∧
    (∀ j, j < h.length → |h.getD j 0| ≤ (historyMaximum realNumerics h).1) ∧
    (∀ j, j < maxIndexOf realNumerics h → |h.getD j 0| < (historyMaximum realNumerics h).1) ∧
    (maxIsNegative realNumerics h = true ↔ h.getD (maxIndexOf realNumerics h) 0 < 0)

/-- R166: over the reals, the peak count of any history is the number of samples that end a rise or a fall (or a plateau
behind it: from `i` to `j` the history is constant, and it counts once, at its last sample) and start the opposite one, that
have the sign of the maximum and exceed the level. -/
def Obligations.PeakCountCountsTurningSamples : Prop :=
  ∀ (h : List ℝ) (negative : Bool) (level : ℝ),
    peakCount realNumerics negative level h =
      {j : ℕ | j + 1 < h.length ∧
        (∃ i, 1 ≤ i ∧ i ≤ j ∧ (∀ m, i ≤ m → m ≤ j → h.getD m 0 = h.getD j 0) ∧
          (h.getD i 0 - h.getD (i - 1) 0) * (h.getD (j + 1) 0 - h.getD j 0) < 0) ∧
        (h.getD j 0 < 0 ↔ negative = true) ∧ level < |h.getD j 0|}.ncard

/-- R171 (a), (f): over the reals, a constant history has no peak; with `CFG.RATIO ≥ 1` no history has one; with
`CFG.RATIO < 0` and a maximum above 0 every sample of the right sign qualifies.  In binary64 the same of (f), whether the
product is in its range or beyond (the model's choice, log 3), for readings up to `2 ^ 1023`, as every `SNRDB` is; a sample
of 0 is left out where the level may round to 0 too (93_implementation_defined.md U15). -/
def Obligations.NoPeakWithoutDominance : Prop :=
  (∀ (c : Config ℝ) (n : Nat) (v : ℝ) (h : List ℝ),
    peaksOf realNumerics c (List.replicate n v) = 0 ∧
    (1 ≤ c.ratio → peaksOf realNumerics c h = 0) ∧
    (c.ratio < 0 → 0 < (historyMaximum realNumerics h).1 → ∀ (negative : Bool) (w : ℝ),
      qualifies realNumerics negative (realNumerics.mul (historyMaximum realNumerics h).1 c.ratio) w =
        (isNegative realNumerics w == negative))) ∧
  (∀ (c : Config Binary64) (h : List Binary64), isFiniteWord c.ratio.bits = true →
    (∀ v ∈ h, isFiniteWord v.bits = true ∧ |realOfBits v.bits| ≤ 2 ^ (1023 : ℤ)) →
    (1 ≤ realOfBits c.ratio.bits → peaksOf binary64Numerics c h = 0) ∧
    (realOfBits c.ratio.bits < 0 → ∀ (negative : Bool), ∀ v ∈ h, realOfBits v.bits ≠ 0 →
      qualifies binary64Numerics negative (binary64Numerics.mul (historyMaximum binary64Numerics h).1 c.ratio) v =
        (isNegative binary64Numerics v == negative))) ∧
  ∀ a b : Binary64, isFiniteWord a.bits = true → isFiniteWord b.bits = true →
    isFiniteWord (snrdb binary64Numerics a b).bits = true ∧
    |realOfBits (snrdb binary64Numerics a b).bits| ≤ 2 ^ (1023 : ℤ)

/-- R167: the distance guard; in an admitted configuration it is `maxIndex ≤ 9`. -/
def Obligations.DistanceGuard : Prop :=
  ∀ (T : Type) (num : Numerics T) (c : Config T) (m : Nat), admitted num c = true →
    (guardHolds num c m = true ↔
      (doorLength num c : Int) ≤ 2 * ((historyLength num c : Int) - 1 - m) * windowOffset num c) ∧
    (guardHolds num c m = true ↔ m ≤ 9)

/-- R168, R169: what a fire does, exactly under its condition; otherwise nothing. -/
def Obligations.TriggerFires : Prop :=
  ∀ (s : State) (t : Int),
    t = (s.processed : Int) -
      ((s.plat.historyLength : Int) - maxIndexOf s.plat.num s.hist) * s.plat.windowOffset - s.plat.syncBias →
    ((peaksOf s.plat.num s.plat.cfg s.hist = 1 ∧
        (s.plat.doorLength : Int) ≤
          2 * ((s.plat.historyLength : Int) - 1 - maxIndexOf s.plat.num s.hist) * s.plat.windowOffset ∧ 0 ≤ t) →
      evaluateTrigger s = (.pitch,
        { s with
          trig := t, cerr := 0, cursor := 0, parsed := List.replicate s.plat.cfg.np 0
          evq := s.evq ++ [.pitch t]
          eventPort := s.eventPort ++ [[0x4000000000000000, BitVec.ofInt 64 t]] })) ∧
    (¬ (peaksOf s.plat.num s.plat.cfg s.hist = 1 ∧
        (s.plat.doorLength : Int) ≤
          2 * ((s.plat.historyLength : Int) - 1 - maxIndexOf s.plat.num s.hist) * s.plat.windowOffset ∧ 0 ≤ t) →
      evaluateTrigger s = (.idle, s))

/-! ## The frame decoder and the errors (44_frame_decoder.md, 60_exceptions.md) -/

/-- R254: error entry reports the error with `PROCESSED`, reverts to SEARCHING, and writes nothing else. -/
def Obligations.ErrorEntryReportsAndReverts : Prop :=
  ∀ (c : Cause) (s : State),
    raiseError c s =
      { s with
        trig := -1
        evq := s.evq ++ [.error s.processed c]
        eventPort := s.eventPort ++
          [[match c with
            | .missedWindow => 0xD000000000000000
            | .uncorrectable => 0xE000000000000000
            | .validationMismatch => 0xF000000000000000,
            BitVec.ofNat 64 s.processed]] }

/-- R182 (with R254, R192): a word window that has left the buffer raises MISSED_WINDOW. -/
def Obligations.MissedWindowRaised : Prop :=
  ∀ s : State,
    s.trig + s.plat.doorLength + s.cursor * s.plat.wordLength < (s.pushed : Int) - s.plat.bufferLength →
    syncStep s = .ok (.error,
      { s with
        trig := -1
        processed := s.pushed
        evq := s.evq ++ [.error s.processed .missedWindow]
        eventPort := s.eventPort ++ [[0xD000000000000000, BitVec.ofNat 64 s.processed]] })

/-- R183 (with R192): a word window that has not fully arrived leaves everything but `PROCESSED` alone. -/
def Obligations.WindowNotArrivedIdles : Prop :=
  ∀ s : State,
    (s.pushed : Int) - s.plat.bufferLength ≤ s.trig + s.plat.doorLength + s.cursor * s.plat.wordLength →
    (s.pushed : Int) <
      s.trig + s.plat.doorLength + s.cursor * s.plat.wordLength + s.plat.wordLength →
    syncStep s = .ok (.idle, { s with processed := s.pushed })

/-- R187 to R191 (with R192, R254): what a decoded word does, by the Hamming outcome, the cursor and the sentinel;
`cerr` is the count after R188. -/
def Obligations.DecodedWordTransitions : Prop :=
  ∀ (s : State) (target : Int) (cerr : Nat),
    target = s.trig + s.plat.doorLength + s.cursor * s.plat.wordLength →
    (s.pushed : Int) - s.plat.bufferLength ≤ target → target + s.plat.wordLength ≤ s.pushed →
    ∃ x byte outcome, memRead s target s.plat.wordLength = .ok x ∧
      (byte, outcome) = hdec s.plat.ham (windowCode s.plat.num s.plat.cfg x) ∧
      (cerr = (if outcome = .correctedError then s.cerr + 1 else s.cerr) →
        (outcome = .failCorrection →
          syncStep s = .ok (.error,
            { s with
              trig := -1, processed := s.pushed
              evq := s.evq ++ [.error s.processed .uncorrectable]
              eventPort := s.eventPort ++ [eventFrame s.plat.cfg.np (.error s.processed .uncorrectable)] })) ∧
        (outcome ≠ .failCorrection → s.cursor = 0 → byte ≠ s.plat.sentinel →
          syncStep s = .ok (.error,
            { s with
              trig := -1, processed := s.pushed, cerr := cerr
              evq := s.evq ++ [.error s.processed .validationMismatch]
              eventPort := s.eventPort ++ [eventFrame s.plat.cfg.np (.error s.processed .validationMismatch)] })) ∧
        (outcome ≠ .failCorrection → s.cursor = 0 → byte = s.plat.sentinel →
          syncStep s = .ok (.pitch,
            { s with
              cursor := 1, processed := s.pushed, cerr := cerr
              evq := s.evq ++ [.pitch target]
              eventPort := s.eventPort ++ [eventFrame s.plat.cfg.np (.pitch target)] })) ∧
        (outcome ≠ .failCorrection → 1 ≤ s.cursor → s.cursor ≠ s.plat.cfg.np →
          syncStep s = .ok (.pitch,
            { s with
              cursor := s.cursor + 1, processed := s.pushed, cerr := cerr
              parsed := s.parsed.set (s.cursor - 1) byte
              evq := s.evq ++ [.pitch target]
              eventPort := s.eventPort ++ [eventFrame s.plat.cfg.np (.pitch target)] })) ∧
        (outcome ≠ .failCorrection → 1 ≤ s.cursor → s.cursor = s.plat.cfg.np →
          syncStep s = .ok (.complete,
            { s with
              trig := -1, cursor := s.cursor + 1, processed := s.pushed, cerr := cerr
              parsed := s.parsed.set (s.cursor - 1) byte
              evq := s.evq ++ [.message (s.parsed.set (s.cursor - 1) byte) s.trig]
              eventPort := s.eventPort ++
                [eventFrame s.plat.cfg.np (.message (s.parsed.set (s.cursor - 1) byte) s.trig)] })))

/-- R192: every synchronized step completes and consumes the whole pending window; it leaves the samples and, whatever it
ends in, the history as they were (R172). -/
def Obligations.SyncStepConsumesPending : Prop :=
  ∀ s : State, ∃ r t, syncStep s = .ok (r, t) ∧ t.processed = s.pushed ∧
    t.pushed = s.pushed ∧ t.buf = s.buf ∧ t.hist = s.hist ∧ t.plat = s.plat

/-- R185, R186: bit `i` of the code is the decision of lane `i`. -/
def Obligations.CodeBitsByLane : Prop :=
  ∀ (T : Type) (num : Numerics T) (c : Config T) (x : List T) (i : Nat), i < 12 →
    (windowCode num c x).getLsbD i =
      num.le c.tsnr
        (snrdb num (gz1 num x (theta num (lowTone num c i) c.fs))
          (gz1 num x (theta num (upTone num c i) c.fs)))

/-- R199, R200 (general knowledge, of the reference instance only): `HAM_REF` meets (H-RT) and (H-1BIT) of R197. -/
def Obligations.ReferenceHammingCorrects : Prop :=
  HamRoundTrip .reference ∧ HamSingleBit .reference

/-! ## The encoder (45_encoder.md) -/

/-- R216: ENCODE answers the `LTOT` samples of the waveform, rendered from the payload bytes and the peak. -/
def Obligations.EncodeAnswersWaveform : Prop :=
  ∀ (o : Operands) (s : State), accepted (.encode o) s →
    ∃ w samples, exec (.encode o) s = .next { s with respPort := s.respPort ++ [w :: samples] } ∧
      samples.length = s.plat.frameLength ∧
      (s.plat.frameLength < 2 ^ 56 → w = BitVec.ofNat 64 s.plat.frameLength) ∧
      samples = (waveform s.plat.num s.plat.cfg s.plat.ham s.plat.sentinel
        ((List.range o.n.toNat).map fun k => (o.data.getD (k / 8) 0).extractLsb' (8 * (k % 8)) 8)
        (ofBits (o.data.getD ((o.n.toNat + 7) / 8) 0))).map Binary64.bits

/-- R219: ENCODE and GOERTZEL answer the same whatever the engine state; only the platform's parameters matter. -/
def Obligations.PureCommandsIgnoreEngine : Prop :=
  ∀ (o : Operands) (s t : State), s.plat = t.plat →
    (∃ r, exec (.encode o) s = .next { s with respPort := s.respPort ++ [r] } ∧
      exec (.encode o) t = .next { t with respPort := t.respPort ++ [r] }) ∧
    (∃ r, exec (.goertzel o) s = .next { s with respPort := s.respPort ++ [r] } ∧
      exec (.goertzel o) t = .next { t with respPort := t.respPort ++ [r] })

/-- R211, R213, R214, R215 (envelope R212): over the reals, every sample of the frame: the chirp, the validation word and
the payload words, each at its place. -/
def Obligations.WaveformSamples : Prop :=
  ∀ (c : Config ℝ) (ham : Ham) (sentinel : Byte) (payload : List Byte) (peak : ℝ) (out : List ℝ),
    admitted realNumerics c = true → payload.length = c.np → out = waveform realNumerics c ham sentinel payload peak →
    out.length = 2 * wordLength realNumerics c + c.np * wordLength realNumerics c ∧
    ∀ n, n < wordLength realNumerics c →
      out[n]? = some (realBurst c (wordLength realNumerics c) (realTone c 22) peak n) ∧
      out[wordLength realNumerics c + n]? =
        some (realWordSample c (wordLength realNumerics c) (henc ham sentinel) peak n) ∧
      ∀ k b, payload[k]? = some b →
        out[2 * wordLength realNumerics c + k * wordLength realNumerics c + n]? =
          some (realWordSample c (wordLength realNumerics c) (henc ham b) peak n)

/-- R217: over the reals, no sample exceeds the peak. -/
def Obligations.WaveformWithinPeak : Prop :=
  ∀ (c : Config ℝ) (ham : Ham) (sentinel : Byte) (payload : List Byte) (peak : ℝ),
    admitted realNumerics c = true → payload.length = c.np →
    ∀ v ∈ waveform realNumerics c ham sentinel payload peak, |v| ≤ |peak|

/-- R220 (a), (d): over the reals, the first and the last sample of every segment are 0, and a peak of 0 gives silence. -/
def Obligations.SegmentsStartAndEndSilent : Prop :=
  ∀ (c : Config ℝ) (ham : Ham) (sentinel : Byte) (payload : List Byte) (peak : ℝ),
    admitted realNumerics c = true → payload.length = c.np →
    (∀ k, k < c.np + 2 →
      (waveform realNumerics c ham sentinel payload peak)[k * wordLength realNumerics c]? = some 0 ∧
      (waveform realNumerics c ham sentinel payload peak)[k * wordLength realNumerics c +
        (wordLength realNumerics c - 1)]? = some 0) ∧
    waveform realNumerics c ham sentinel payload 0 = List.replicate (frameLength realNumerics c) 0

/-! ## Invariants -/

/-- R38: the invariant holds at `State.reset`. -/
def Obligations.ResetMeetsInvariant : Prop := RestInvariant State.reset

/-- R38, R37: the invariant holds after power-on with any admitted configuration. -/
def Obligations.PowerOnMeetsInvariant : Prop :=
  ∀ p : Platform, p.admitted = true → RestInvariant (State.powerOn p)

/-- R37, R262: every step from a state that meets the invariant leads to one that meets it. -/
def Obligations.StepKeepsInvariant : Prop :=
  ∀ s t : State, RestInvariant s → step s = .next t → RestInvariant t

/-- R251: a host that keeps the chunk bound never sees MISSED_WINDOW, as long as `SYNC_BIAS` is at most a word length
(the model's premise: the rule speaks of the source's formula, whose bias is 0). -/
def Obligations.ChunkBoundNeverMissesWindow : Prop :=
  ∀ (o : Operands) (s : State), BoundKept s → accepted (.push o) s → (o.n.toNat : Int) ≤ maxChunk s →
    ∃ t evs, exec (.push o) s = .next t ∧ BoundKept t ∧ t.evq = s.evq ++ evs ∧
      evs.all (fun e => !e.isMissedWindow) = true
end

