-- ==== Sys2Proof/Laws/Encoding.lean ====
section
/-!
SUPPORT. The fields of a header word (30_encoding.md R81): each field the encoder writes is the field the decoder reads,
and a header word is its four fields.
-/

namespace Sys2Proof

/-- The number a header word is: each field times the place of its lowest bit. -/
theorem headerWord_toNat (opc : BitVec 8) (o : Operands) :
    (headerWord opc o).toNat =
      opc.toNat * 2 ^ 56 + o.rsv.toNat * 2 ^ 48 + o.k.toNat * 2 ^ 32 + o.n.toNat := by
  have ho := opc.isLt
  have hr := o.rsv.isLt
  have hk := o.k.isLt
  have hn := o.n.isLt
  simp only [headerWord, BitVec.toNat_append]
  rw [← Nat.shiftLeft_add_eq_or_of_lt hn, ← Nat.shiftLeft_add_eq_or_of_lt hk,
    ← Nat.shiftLeft_add_eq_or_of_lt hr]
  simp only [Nat.shiftLeft_eq]
  omega

theorem extract_toNat (h : Word) (start len : Nat) :
    (h.extractLsb' start len).toNat = h.toNat / 2 ^ start % 2 ^ len := by
  simp [BitVec.extractLsb'_toNat, Nat.shiftRight_eq_div_pow]

theorem headerWord_opc (opc : BitVec 8) (o : Operands) : opcField (headerWord opc o) = opc := by
  apply BitVec.eq_of_toNat_eq
  have := opc.isLt; have := o.rsv.isLt; have := o.k.isLt; have := o.n.isLt
  rw [opcField, extract_toNat, headerWord_toNat]
  omega

theorem headerWord_operands (opc : BitVec 8) (o : Operands) : operandsOf (headerWord opc o) o.data = o := by
  have := opc.isLt; have := o.rsv.isLt; have := o.k.isLt; have := o.n.isLt
  have hr : (headerWord opc o).extractLsb' 48 8 = o.rsv := by
    apply BitVec.eq_of_toNat_eq; rw [extract_toNat, headerWord_toNat]; omega
  have hk : (headerWord opc o).extractLsb' 32 16 = o.k := by
    apply BitVec.eq_of_toNat_eq; rw [extract_toNat, headerWord_toNat]; omega
  have hn : (headerWord opc o).extractLsb' 0 32 = o.n := by
    apply BitVec.eq_of_toNat_eq; rw [extract_toNat, headerWord_toNat]; omega
  rw [operandsOf, hr, hk, hn]

theorem headerWord_fields (h : Word) (d : List Word) : headerWord (opcField h) (operandsOf h d) = h := by
  apply BitVec.eq_of_toNat_eq
  have := h.isLt
  rw [headerWord_toNat]
  simp only [opcField, operandsOf, extract_toNat]
  omega

end Sys2Proof
end

