-- ==== Sys2Proof/Laws/Numbers.lean ====
section
/-!
SUPPORT. What the numbers of the machine denote: patterns as real numbers and back, the floor
of a product, and what rounding does.
-/

namespace Sys2Proof.Machine

/-- The floor of an unpacked number is that of the real number it stands for. -/
theorem floorValue_eq (u : Unpacked) :
    floorValue u = ⌊(if u.neg then -1 else 1) * (u.man : ℝ) * 2 ^ u.exp⌋ := by
  obtain ⟨neg, man, exp⟩ := u
  have hm : (if neg then -1 else 1) * (man : ℝ) = ((if neg then -(man : Int) else man : Int) : ℝ) := by
    cases neg <;> simp
  simp only [floorValue, hm]
  generalize (if neg then -(man : Int) else man : Int) = m
  split
  · obtain ⟨n, rfl⟩ := Int.eq_ofNat_of_zero_le ‹0 ≤ exp›
    have : (m : ℝ) * 2 ^ ((n : ℤ)) = ((m * 2 ^ n : Int) : ℝ) := by push_cast; simp
    simp only [Int.toNat_natCast]
    rw [this, Int.floor_intCast]
  · obtain ⟨n, hn⟩ := Int.eq_ofNat_of_zero_le (show 0 ≤ -exp by omega)
    obtain rfl : exp = -(n : Int) := by omega
    have : (m : ℝ) * 2 ^ (-(n : ℤ)) = (m : ℝ) / ((2 ^ n : ℕ) : ℝ) := by
      rw [zpow_neg, zpow_natCast, ← div_eq_mul_inv]; push_cast; rfl
    rw [this, Int.neg_neg, Int.toNat_natCast]
    have := Int.floor_div_natCast (k := ℝ) (m : ℝ) (2 ^ n)
    rw [this, Int.floor_intCast]; push_cast; rfl

/-- The exact product stands for the product of the real numbers. -/
theorem mulExact_value (a b : Word) :
    (if (mulExact (unpack a) (unpack b)).neg then -1 else 1) * ((mulExact (unpack a) (unpack b)).man : ℝ) *
      2 ^ (mulExact (unpack a) (unpack b)).exp = realOfBits a * realOfBits b := by
  cases hm : (unpack a).neg <;> cases hn : (unpack b).neg <;>
    simp [mulExact, realOfBits, hm, hn, zpow_add₀] <;> ring

/-- All `floorProduct` does with two finite numbers (40_tone_table_geometry.md R100): the floor of the number `mul` gives,
where there is one and the product is in range; else of the real product. -/
theorem floorProduct_cases (mul : Binary64 → Binary64 → Binary64) {a b : Binary64}
    (ha : isFiniteWord a.bits = true) (hb : isFiniteWord b.bits = true) :
    ((mulRounded (unpack a.bits) (unpack b.bits)).inRange = true ∧ isFiniteWord (mul a b).bits = true ∧
      floorProduct mul a b = ⌊realOfBits (mul a b).bits⌋) ∨
    (¬ ((mulRounded (unpack a.bits) (unpack b.bits)).inRange = true ∧ isFiniteWord (mul a b).bits = true) ∧
      floorProduct mul a b = ⌊realOfBits a.bits * realOfBits b.bits⌋) := by
  cases h : (mulRounded (unpack a.bits) (unpack b.bits)).inRange && isFiniteWord (mul a b).bits
  · refine .inr ⟨by simpa using h, ?_⟩
    simp only [floorProduct, ha, hb, h, Bool.and_self]
    rw [floorValue_eq, mulExact_value]
  · refine .inl ⟨(Bool.and_eq_true_iff.1 h).1, (Bool.and_eq_true_iff.1 h).2, ?_⟩
    simp only [floorProduct, ha, hb, h, Bool.and_self]
    rw [floorValue_eq, realOfBits]

/-! ## The shape of a pattern -/

/-- The shape of a finite pattern: 53 digits at most, all of them above the least exponent. -/
theorem unpack_shape {w : Word} (h : isFiniteWord w = true) :
    (unpack w).man < 2 ^ 53 ∧ -1074 ≤ (unpack w).exp ∧ ((unpack w).man < 2 ^ 52 → (unpack w).exp = -1074) ∧
    packGrid (unpack w).man (unpack w).exp < 2047 * 2 ^ 52 ∧
    w.toNat = (if (unpack w).neg then 2 ^ 63 else 0) + packGrid (unpack w).man (unpack w).exp := by
  have hw := w.isLt
  have hE : exponentField w < 2047 := by
    have : exponentField w ≠ 2047 := by simpa [isFiniteWord] using h
    have : exponentField w < 2 ^ 11 := Nat.mod_lt _ (by decide)
    omega
  have hn : w.toNat = w.toNat / 2 ^ 63 * 2 ^ 63 + exponentField w * 2 ^ 52 + w.toNat % 2 ^ 52 := by
    simp only [exponentField]; omega
  have hs : (if (w.toNat / 2 ^ 63 == 1) = true then 2 ^ 63 else 0) = w.toNat / 2 ^ 63 * 2 ^ 63 := by
    simp only [beq_iff_eq]; split <;> omega
  have hf : w.toNat % 2 ^ 52 < 2 ^ 52 := Nat.mod_lt _ (by decide)
  have hu : unpack w = if exponentField w = 0 then ⟨w.toNat / 2 ^ 63 == 1, w.toNat % 2 ^ 52, -1074⟩
      else ⟨w.toNat / 2 ^ 63 == 1, w.toNat % 2 ^ 52 + 2 ^ 52, (exponentField w : Int) - 1075⟩ := rfl
  by_cases hE0 : exponentField w = 0
  · rw [if_pos hE0] at hu
    have hp : packGrid (w.toNat % 2 ^ 52) (-1074) = w.toNat % 2 ^ 52 := if_pos hf
    rw [hu]
    refine ⟨hf.trans (by norm_num), le_rfl, fun _ => rfl, ?_, ?_⟩
    · show packGrid (w.toNat % 2 ^ 52) (-1074) < _
      rw [hp]; exact hf.trans (by norm_num)
    · show w.toNat = (if (w.toNat / 2 ^ 63 == 1) = true then 2 ^ 63 else 0) + packGrid (w.toNat % 2 ^ 52) (-1074)
      rw [hE0, Nat.zero_mul, Nat.add_zero] at hn
      rw [hp, hs]; exact hn
  · rw [if_neg hE0] at hu
    have hb : ¬ w.toNat % 2 ^ 52 + 2 ^ 52 < 2 ^ 52 := by omega
    have hx : ((exponentField w : Int) - 1075 + 1075).toNat = exponentField w := by omega
    have hp : packGrid (w.toNat % 2 ^ 52 + 2 ^ 52) ((exponentField w : Int) - 1075) =
        exponentField w * 2 ^ 52 + w.toNat % 2 ^ 52 := by
      rw [packGrid, if_neg hb, hx, Nat.shiftLeft_eq, Nat.add_sub_cancel]
    rw [hu]
    refine ⟨?_, ?_, fun h => absurd h hb, ?_, ?_⟩
    · show w.toNat % 2 ^ 52 + 2 ^ 52 < 2 ^ 53; omega
    · show -1074 ≤ (exponentField w : Int) - 1075; omega
    · show packGrid (w.toNat % 2 ^ 52 + 2 ^ 52) ((exponentField w : Int) - 1075) < _
      rw [hp]; omega
    · show w.toNat = (if (w.toNat / 2 ^ 63 == 1) = true then 2 ^ 63 else 0) +
        packGrid (w.toNat % 2 ^ 52 + 2 ^ 52) ((exponentField w : Int) - 1075)
      rw [hp, hs, ← Nat.add_assoc]; exact hn

/-- The magnitude of a pattern's number. -/
theorem abs_realOfBits (w : Word) : |realOfBits w| = ((unpack w).man : ℝ) * 2 ^ (unpack w).exp := by
  have h1 : |(if (unpack w).neg then -1 else 1 : ℝ)| = 1 := by cases (unpack w).neg <;> simp
  rw [realOfBits, abs_mul, abs_mul, h1, one_mul, Nat.abs_cast, abs_of_pos (by positivity : (0 : ℝ) < 2 ^ (unpack w).exp)]

/-- The number of a pattern made of a sign and digits on a grid. -/
theorem realOfBits_ofNat (neg : Bool) {q : Nat} {e : Int} (hq : q ≤ 2 ^ 53) (he : -1074 ≤ e)
    (hq52 : q < 2 ^ 52 → e = -1074) (hp : packGrid q e < 2047 * 2 ^ 52) :
    isFiniteWord (BitVec.ofNat 64 ((if neg then 2 ^ 63 else 0) + packGrid q e)) = true ∧
    realOfBits (BitVec.ofNat 64 ((if neg then 2 ^ 63 else 0) + packGrid q e)) =
      (if neg then -1 else 1) * (q : ℝ) * 2 ^ e := by
  set n := (if neg then 2 ^ 63 else 0) + packGrid q e with hn
  have hw : (BitVec.ofNat 64 n).toNat = n := by
    rw [BitVec.toNat_ofNat]; apply Nat.mod_eq_of_lt; rw [hn]; split <;> omega
  have hf : exponentField (BitVec.ofNat 64 n) = packGrid q e / 2 ^ 52 := by
    rw [exponentField, hw, hn]; split <;> omega
  have hs : ((BitVec.ofNat 64 n).toNat / 2 ^ 63 == 1) = neg := by
    rw [hw, hn]; cases neg <;> simp <;> omega
  have hr : (BitVec.ofNat 64 n).toNat % 2 ^ 52 = packGrid q e % 2 ^ 52 := by
    rw [hw, hn]; split <;> omega
  refine ⟨by rw [isFiniteWord, hf, bne_iff_ne]; omega, ?_⟩
  have hu : unpack (BitVec.ofNat 64 n) = if packGrid q e / 2 ^ 52 = 0 then ⟨neg, packGrid q e % 2 ^ 52, -1074⟩
      else ⟨neg, packGrid q e % 2 ^ 52 + 2 ^ 52, ((packGrid q e / 2 ^ 52 : Nat) : Int) - 1075⟩ := by
    rw [unpack, hf, hs, hr]
  rw [realOfBits]
  generalize unpack (BitVec.ofNat 64 n) = u at *
  subst hu
  clear hw hf hs hr hn
  unfold packGrid at *
  by_cases h52 : q < 2 ^ 52
  · obtain rfl := hq52 h52
    simp only [h52, if_true, Nat.div_eq_of_lt, Nat.mod_eq_of_lt]
  · simp only [h52, if_false, Nat.shiftLeft_eq] at hp ⊢
    obtain ⟨E, hE⟩ : ∃ E : Nat, e + 1075 = E + 1 := ⟨(e + 1074).toNat, by omega⟩
    have hE' : (e + 1075).toNat = E + 1 := by omega
    rw [hE'] at hp ⊢
    rcases Nat.lt_or_ge q (2 ^ 53) with h53 | h53
    · have h1 : ((E + 1) * 2 ^ 52 + (q - 2 ^ 52)) / 2 ^ 52 = E + 1 := by omega
      have h2 : ((E + 1) * 2 ^ 52 + (q - 2 ^ 52)) % 2 ^ 52 = q - 2 ^ 52 := by omega
      have h3 : q - 2 ^ 52 + 2 ^ 52 = q := by omega
      have h4 : ((E + 1 : Nat) : Int) - 1075 = e := by push_cast; omega
      simp only [h1, h2, h3, h4, Nat.succ_ne_zero, if_false]
    · obtain rfl : q = 2 ^ 53 := by omega
      have h1 : ((E + 1) * 2 ^ 52 + (2 ^ 53 - 2 ^ 52)) / 2 ^ 52 = E + 2 := by omega
      have h2 : ((E + 1) * 2 ^ 52 + (2 ^ 53 - 2 ^ 52)) % 2 ^ 52 = 0 := by omega
      have h4 : ((E + 2 : Nat) : Int) - 1075 = e + 1 := by push_cast; omega
      simp only [h1, h2, h4, Nat.succ_ne_zero, if_false, zpow_add_one₀ (two_ne_zero (α := ℝ))]
      push_cast; ring

/-! ## Rounding -/

/-- Rounding off digits that are all 0 changes nothing. -/
theorem roundShift_exact (m s : Nat) : roundShift (m * 2 ^ s) s false = m := by
  have hp : 0 < 2 ^ s := by positivity
  simp [roundShift, Nat.shiftRight_eq_div_pow, Nat.mul_div_cancel _ hp]

/-- The length of a number with `s` zero digits behind it. -/
theorem log2_shift {m : Nat} (hm : m ≠ 0) (s : Nat) : Nat.log2 (m * 2 ^ s) = Nat.log2 m + s := by
  have h := (Nat.log2_eq_iff hm).1 rfl
  refine (Nat.log2_eq_iff (Nat.mul_ne_zero hm (by positivity))).2 ⟨?_, ?_⟩
  · rw [Nat.pow_add]; exact Nat.mul_le_mul_right _ h.1
  · rw [show m.log2 + s + 1 = (m.log2 + 1) + s by omega, Nat.pow_add]
    exact Nat.mul_lt_mul_of_pos_right h.2 (by positivity)

/-- Rounding off `shift` bits leaves what stands above them, or one more. -/
theorem roundShift_bounds (m shift : Nat) (sticky : Bool) :
    m / 2 ^ shift ≤ roundShift m shift sticky ∧ roundShift m shift sticky ≤ m / 2 ^ shift + 1 := by
  simp only [roundShift, Nat.shiftRight_eq_div_pow]
  split <;> omega

/-- The digits on the grid: at most 53 of them, all 53 above the least exponent; at least as much as any number on a grid
as fine that the given one is at least. -/
theorem gridMan_bounds {man : Nat} (hm : man ≠ 0) (exp : Int) (sticky : Bool) :
    gridMan man exp sticky ≤ 2 ^ 53 ∧ (-1074 < gridExponent man exp → 2 ^ 52 ≤ gridMan man exp sticky) := by
  have h := (Nat.log2_eq_iff hm).1 rfl
  have hg : gridExponent man exp = max (exp + (Nat.log2 man : Int) - 52) (-1074) := rfl
  unfold gridMan
  generalize gridExponent man exp = e at *
  split
  · have hb := roundShift_bounds man (e - exp).toNat sticky
    constructor
    · refine hb.2.trans (Nat.div_lt_of_lt_mul (h.2.trans_le ?_))
      rw [← Nat.pow_add]; exact Nat.pow_le_pow_right (by decide) (by omega)
    · intro he
      refine le_trans ((Nat.le_div_iff_mul_le (by positivity)).2 ?_) hb.1
      rw [← Nat.pow_add]; exact (Nat.pow_le_pow_right (by decide) (by omega)).trans h.1
  · rw [Nat.shiftLeft_eq]
    constructor
    · refine (Nat.mul_le_mul_right _ h.2.le).trans ?_
      rw [← Nat.pow_add]; exact Nat.pow_le_pow_right (by decide) (by omega)
    · intro he
      refine le_trans ?_ (Nat.mul_le_mul_right _ h.1)
      rw [← Nat.pow_add]; exact Nat.pow_le_pow_right (by decide) (by omega)

/-- Rounding is monotone at the numbers of binary64: one that is at most the exact number is at most the rounded one. -/
theorem le_gridMan {m man : Nat} {k exp : Int} (hm : man ≠ 0) (hm53 : m ≤ 2 ^ 53) (hk : -1074 ≤ k)
    (h : (m : ℝ) * 2 ^ k ≤ man * 2 ^ exp) (sticky : Bool) :
    (m : ℝ) * 2 ^ k ≤ gridMan man exp sticky * 2 ^ gridExponent man exp := by
  have hb := gridMan_bounds hm exp sticky
  by_cases hlt : k < gridExponent man exp
  · have h1 : (2 : ℝ) ^ 52 ≤ gridMan man exp sticky := by exact_mod_cast hb.2 (by omega)
    have h2 : (m : ℝ) ≤ 2 ^ 53 := by exact_mod_cast hm53
    calc (m : ℝ) * 2 ^ k ≤ 2 ^ 53 * 2 ^ k := by gcongr
      _ = 2 ^ 52 * 2 ^ (k + 1) := by rw [zpow_add_one₀ two_ne_zero]; ring
      _ ≤ gridMan man exp sticky * 2 ^ gridExponent man exp := by gcongr; norm_num; omega
  · unfold gridMan
    generalize gridExponent man exp = e at *
    obtain ⟨d, hd⟩ := Int.eq_ofNat_of_zero_le (show 0 ≤ k - e by omega)
    obtain rfl : k = e + d := by omega
    rw [zpow_add₀ two_ne_zero, zpow_natCast] at *
    rw [← mul_assoc, mul_right_comm] at *
    refine mul_le_mul_of_nonneg_right ?_ (by positivity)
    split
    · obtain ⟨c, hc⟩ := Int.eq_ofNat_of_zero_le (show 0 ≤ e - exp by omega)
      have h1 : m * 2 ^ d * 2 ^ c ≤ man := by
        have : (m : ℝ) * 2 ^ d * 2 ^ c * 2 ^ exp ≤ man * 2 ^ exp := by
          convert h using 1
          rw [show e = exp + c by omega, zpow_add₀ two_ne_zero, zpow_natCast]; ring
        exact_mod_cast le_of_mul_le_mul_right this (by positivity)
      have h2 := (Nat.le_div_iff_mul_le (by positivity)).2 h1
      rw [hc, Int.toNat_natCast]
      exact_mod_cast h2.trans (roundShift_bounds man c sticky).1
    · obtain ⟨c, hc⟩ := Int.eq_ofNat_of_zero_le (show 0 ≤ exp - e by omega)
      rw [hc, Int.toNat_natCast, Nat.shiftLeft_eq]
      rw [show exp = e + c by omega, zpow_add₀ two_ne_zero, zpow_natCast] at h
      have : (m : ℝ) * 2 ^ d * 2 ^ e ≤ man * 2 ^ c * 2 ^ e := by convert h using 1; ring
      exact_mod_cast le_of_mul_le_mul_right this (by positivity)

/-- All `roundPack` does: it gives the pattern of the rounded number; or the number is beyond the range of binary64. -/
theorem roundPack_cases (neg : Bool) {man : Nat} (hm : man ≠ 0) (exp : Int) (sticky : Bool) :
    (∃ w, roundPack neg man exp sticky = .nearest w ∧ isFiniteWord w = true ∧
      realOfBits w = (if neg then -1 else 1) * (gridMan man exp sticky : ℝ) * 2 ^ gridExponent man exp) ∨
    (roundPack neg man exp sticky = .beyond neg ∧ (1023 : Int) ≤ exp + Nat.log2 man) := by
  obtain ⟨h53, h52⟩ := gridMan_bounds hm exp sticky
  have he : -1074 ≤ gridExponent man exp := le_max_right _ _
  have hq : gridMan man exp sticky < 2 ^ 52 → gridExponent man exp = -1074 := fun h => by
    by_contra hne; exact absurd (h52 (by omega)) (by omega)
  have hg : gridExponent man exp = max (exp + (Nat.log2 man : Int) - 52) (-1074) := rfl
  unfold roundPack
  simp only [hm, if_false]
  generalize gridMan man exp sticky = q at *
  generalize gridExponent man exp = e at *
  by_cases hp : 2047 * 2 ^ 52 ≤ packGrid q e
  · refine .inr ⟨by simp only [hp, if_true], ?_⟩
    unfold packGrid at hp
    rw [Nat.shiftLeft_eq] at hp
    split at hp <;> omega
  · have hv := realOfBits_ofNat neg h53 he hq (not_le.1 hp)
    refine .inl ?_
    by_cases h0 : packGrid q e = 0
    · refine ⟨0, by rw [if_neg hp, if_pos h0], rfl, ?_⟩
      have : q = 0 := by
        unfold packGrid at h0; split at h0
        · exact h0
        · rw [Nat.shiftLeft_eq] at h0; omega
      subst this
      simp [realOfBits, unpack, exponentField]
    · refine ⟨_, by rw [if_neg hp, if_neg h0], ?_⟩
      have : (if neg = true then packGrid q e + 2 ^ 63 else packGrid q e) =
          (if neg = true then 2 ^ 63 else 0) + packGrid q e := by split <;> omega
      rw [this]; exact hv

/-- The free value in place of a number beyond the range: a number of that sign, from `2 ^ 1023` on. -/
theorem beyondRange_value (neg : Bool) (free : Word) :
    isFiniteWord (beyondRange neg free) = true ∧
    ∃ x : ℝ, 2 ^ (1023 : ℤ) ≤ x ∧ realOfBits (beyondRange neg free) = (if neg then -1 else 1) * x := by
  have hf : free.toNat % 2 ^ 52 < 2 ^ 52 := Nat.mod_lt _ (by decide)
  have hp : packGrid (2 ^ 52 + free.toNat % 2 ^ 52) 971 = 2046 * 2 ^ 52 + free.toNat % 2 ^ 52 := by
    unfold packGrid; rw [if_neg (by omega), Nat.shiftLeft_eq,
      show ((971 : Int) + 1075).toNat = 2046 from rfl]; omega
  have h := realOfBits_ofNat neg (q := 2 ^ 52 + free.toNat % 2 ^ 52) (e := 971) (by omega) (by omega) (by omega)
    (by rw [hp]; omega)
  rw [hp, ← Nat.add_assoc] at h
  refine ⟨h.1, _, ?_, h.2.trans (mul_assoc _ _ _)⟩
  have : (2 : ℝ) ^ 52 ≤ ((2 ^ 52 + free.toNat % 2 ^ 52 : Nat) : ℝ) := by exact_mod_cast Nat.le_add_right _ _
  calc (2 : ℝ) ^ (1023 : ℤ) = 2 ^ 52 * 2 ^ (971 : ℤ) := by
        rw [show (1023 : ℤ) = ((52 : ℕ) : ℤ) + 971 by norm_num, zpow_add₀ two_ne_zero, zpow_natCast]
    _ ≤ _ := by gcongr

/-- What an operation whose exact result is `man * 2 ^ exp` answers, whatever the free value: a number of that sign, at
least as large as every binary64 up to `2 ^ 1023` that the exact result is at least as large as. -/
theorem roundPack_pattern (neg : Bool) (man : Nat) (exp : Int) (sticky : Bool) (free : Word) :
    isFiniteWord ((roundPack neg man exp sticky).pattern free) = true ∧
    ∃ x : ℝ, 0 ≤ x ∧ (man = 0 → x = 0) ∧
      realOfBits ((roundPack neg man exp sticky).pattern free) = (if neg then -1 else 1) * x ∧
      ∀ w : Word, isFiniteWord w = true → |realOfBits w| ≤ man * 2 ^ exp → |realOfBits w| ≤ 2 ^ (1023 : ℤ) → |realOfBits w| ≤ x := by
  by_cases hm : man = 0
  · subst hm
    refine ⟨by simp [roundPack, Rounded.pattern, isFiniteWord, exponentField], 0, le_rfl, fun _ => rfl, by simp [roundPack, Rounded.pattern, realOfBits, unpack, exponentField], ?_⟩
    intro w _ h _; simpa using h
  rcases roundPack_cases neg hm exp sticky with ⟨w, hr, hf, hv⟩ | ⟨hr, _⟩
  · rw [hr]
    refine ⟨hf, _, ?_, fun h => absurd h hm, hv.trans (mul_assoc _ _ _), fun w hw h _ => ?_⟩
    · positivity
    · rw [abs_realOfBits] at h ⊢
      obtain ⟨h53, h1074, _⟩ := unpack_shape hw
      exact le_gridMan hm h53.le h1074 h sticky
  · rw [hr]
    obtain ⟨hf, x, hx, hv⟩ := beyondRange_value neg free
    exact ⟨hf, x, le_trans (by positivity) hx, fun h => absurd h hm, hv, fun w _ _ h => h.trans hx⟩

/-- How large the answer is at most, where the exact result is in range. -/
theorem roundPack_le (neg : Bool) {man : Nat} {exp k : Int} (hk : exp + Nat.log2 man ≤ k) (h0 : -1022 ≤ k)
    (h1 : k < 1023) (sticky : Bool) (free : Word) :
    |realOfBits ((roundPack neg man exp sticky).pattern free)| ≤ 2 ^ (k + 1) := by
  by_cases hm : man = 0
  · subst hm
    simp [roundPack, Rounded.pattern, realOfBits, unpack, exponentField]; positivity
  rcases roundPack_cases neg hm exp sticky with ⟨w, hr, _, hv⟩ | ⟨_, hb⟩
  · have hs : |(if neg then -1 else 1 : ℝ)| = 1 := by cases neg <;> simp
    have hq : (gridMan man exp sticky : ℝ) ≤ 2 ^ 53 := by exact_mod_cast (gridMan_bounds hm exp sticky).1
    have he : gridExponent man exp ≤ k - 52 := max_le (by omega) (by omega)
    rw [hr, Rounded.pattern, hv, abs_mul, abs_mul, hs, one_mul, Nat.abs_cast,
      abs_of_pos (by positivity : (0 : ℝ) < 2 ^ gridExponent man exp)]
    calc (gridMan man exp sticky : ℝ) * 2 ^ gridExponent man exp ≤ 2 ^ 53 * 2 ^ (k - 52) := by
          gcongr; norm_num
      _ = 2 ^ (k + 1) := by
          rw [show k + 1 = ((53 : ℕ) : ℤ) + (k - 52) by push_cast; ring, zpow_add₀ two_ne_zero, zpow_natCast]
  · omega

/-- A product that no binary64 is nearest to is large. -/
theorem mulRounded_beyond {a b : Word} (h : (mulRounded (unpack a) (unpack b)).inRange = false) :
    2 ^ (1023 : ℤ) ≤ |realOfBits a * realOfBits b| := by
  have hm : (mulExact (unpack a) (unpack b)).man ≠ 0 := by
    intro h0; simp [mulRounded, roundPack, h0, Rounded.inRange] at h
  have hbig : (1023 : Int) ≤ (mulExact (unpack a) (unpack b)).exp + Nat.log2 (mulExact (unpack a) (unpack b)).man := by
    rcases roundPack_cases (mulExact (unpack a) (unpack b)).neg hm (mulExact (unpack a) (unpack b)).exp false with
      ⟨w, hw, _⟩ | ⟨_, hb⟩
    · rw [mulRounded, hw] at h; cases h
    · exact hb
  have hlog : 2 ^ Nat.log2 (mulExact (unpack a) (unpack b)).man ≤ (mulExact (unpack a) (unpack b)).man :=
    Nat.log2_self_le hm
  rw [← mulExact_value]
  generalize mulExact (unpack a) (unpack b) = u at *
  have h1 : |(if u.neg then -1 else 1 : ℝ)| = 1 := by cases u.neg <;> simp
  rw [abs_mul, abs_mul, h1, one_mul, Nat.abs_cast, abs_of_pos (by positivity : (0 : ℝ) < 2 ^ u.exp)]
  calc (2 : ℝ) ^ (1023 : ℤ) ≤ 2 ^ ((Nat.log2 u.man : ℤ) + u.exp) := zpow_le_zpow_right₀ (by norm_num) (by omega)
    _ = (2 ^ Nat.log2 u.man : ℕ) * 2 ^ u.exp := by rw [zpow_add₀ two_ne_zero]; push_cast; rw [zpow_natCast]
    _ ≤ u.man * 2 ^ u.exp := by gcongr

/-- A number of binary64 is rounded to itself, whatever number of zero digits stands behind it. -/
theorem roundPack_exact (neg : Bool) {m : Nat} {x : Int} (s : Nat) (hm : m ≠ 0) (h53 : m < 2 ^ 53) (hx : -1074 ≤ x)
    (h52 : m < 2 ^ 52 → x = -1074) (hp : packGrid m x < 2047 * 2 ^ 52) :
    roundPack neg (m * 2 ^ s) (x - s) false =
      .nearest (BitVec.ofNat 64 ((if neg then 2 ^ 63 else 0) + packGrid m x)) := by
  have hs : 0 < 2 ^ s := by positivity
  have hg : gridExponent (m * 2 ^ s) (x - s) = x := by
    rw [gridExponent, log2_shift hm]
    rcases Nat.lt_or_ge m (2 ^ 52) with h | h
    · have : Nat.log2 m < 52 := (Nat.log2_lt hm).2 h
      have := h52 h
      push_cast; omega
    · have : Nat.log2 m = 52 := (Nat.log2_eq_iff hm).2 ⟨h, h53⟩
      push_cast; omega
  have hq : gridMan (m * 2 ^ s) (x - s) false = m := by
    rw [gridMan, hg]
    split
    · rw [show (x - (x - (s : Int))).toNat = s by omega, roundShift_exact]
    · obtain rfl : s = 0 := by omega
      simp
  have hp0 : packGrid m x ≠ 0 := by
    unfold packGrid; split
    · exact hm
    · rw [Nat.shiftLeft_eq]; omega
  have hmul : m * 2 ^ s ≠ 0 := Nat.mul_ne_zero hm hs.ne'
  have hadd : (if neg = true then packGrid m x + 2 ^ 63 else packGrid m x) =
      (if neg = true then 2 ^ 63 else 0) + packGrid m x := by split <;> omega
  unfold roundPack
  simp only [hmul, hg, hq, not_le.2 hp, hp0, if_false, hadd]

/-! ## The ports -/

/-- A finite pattern carried into the reals and back is itself, negative zero becoming 0 (30_encoding.md R84). -/
theorem realToBits_realOfBits {w : Word} (h : isFiniteWord w = true) : realToBits (realOfBits w) = (ofBits w).bits := by
  obtain ⟨h53, hx, h52, hp, hw⟩ := unpack_shape h
  have habs := abs_realOfBits w
  have hr : realOfBits w = (if (unpack w).neg then -1 else 1) * (unpack w).man * 2 ^ (unpack w).exp := rfl
  generalize unpack w = u at *
  obtain ⟨neg, m, x⟩ := u
  simp only at *
  by_cases hm : m = 0
  · subst hm
    have hz : realOfBits w = 0 := by rw [hr]; simp
    have hb : (ofBits w).bits = 0 := by
      cases neg with
      | false =>
        have : w = 0 := by apply BitVec.eq_of_toNat_eq; simpa [packGrid] using hw
        rw [this]; rfl
      | true =>
        have : w = 0x8000000000000000 := by apply BitVec.eq_of_toNat_eq; simpa [packGrid] using hw
        rw [this]; rfl
    rw [hz, hb]
    simp [realToBits, roundPack, Rounded.pattern]
  · obtain ⟨s, hs⟩ := Int.eq_ofNat_of_zero_le (show 0 ≤ x + 1200 by omega)
    have hscale : |realOfBits w| * 2 ^ portPlaces = ((m * 2 ^ s : Nat) : ℝ) := by
      rw [habs, mul_assoc]
      have h2 : (2 : ℝ) ^ x * 2 ^ portPlaces = 2 ^ s := by
        rw [← zpow_natCast, ← zpow_natCast, ← zpow_add₀ (by norm_num)]
        congr 1
      rw [h2]; push_cast; rfl
    have hneg : decide (realOfBits w < 0) = neg := by
      have hpos : 0 < (m : ℝ) * 2 ^ x := by
        have : (0 : ℝ) < m := by exact_mod_cast Nat.pos_of_ne_zero hm
        positivity
      rw [hr, mul_assoc]
      cases neg
      · simp; exact hpos.le
      · simp; simpa using hpos
    have hpack := roundPack_exact neg s hm h53 hx h52 hp
    have hex : -(portPlaces : Int) = x - s := by simp only [portPlaces]; push_cast; omega
    have hbits : (ofBits w).bits = w := by
      rw [ofBits, if_neg]
      rintro rfl
      have : packGrid m x = 0 := by
        revert hw; cases neg <;> simp; omega
      unfold packGrid at this; split at this
      · exact hm this
      · rw [Nat.shiftLeft_eq] at this; omega
    rw [hbits, realToBits, hscale, Nat.floor_natCast, hex]
    have hd : decide (((m * 2 ^ s : Nat) : ℝ) ≠ ((m * 2 ^ s : Nat) : ℝ)) = false := by simp
    rw [hd, hneg, hpack, ← hw, Rounded.pattern, BitVec.ofNat_toNat, BitVec.setWidth_eq]

end Sys2Proof.Machine
end

