-- ==== Sys2Proof/Laws/State.lean ====
section
/-!
SUPPORT. What each update of the state does to each field, one lemma per field, all by `rfl`.
-/

namespace Sys2Proof.Machine

/-! ## respond -/

@[simp] theorem respond_plat (d : List Word) (s : State) : (respond d s).plat = s.plat := rfl
@[simp] theorem respond_pushed (d : List Word) (s : State) : (respond d s).pushed = s.pushed := rfl
@[simp] theorem respond_processed (d : List Word) (s : State) : (respond d s).processed = s.processed := rfl
@[simp] theorem respond_trig (d : List Word) (s : State) : (respond d s).trig = s.trig := rfl
@[simp] theorem respond_cerr (d : List Word) (s : State) : (respond d s).cerr = s.cerr := rfl
@[simp] theorem respond_cursor (d : List Word) (s : State) : (respond d s).cursor = s.cursor := rfl
@[simp] theorem respond_buf (d : List Word) (s : State) : (respond d s).buf = s.buf := rfl
@[simp] theorem respond_hist (d : List Word) (s : State) : (respond d s).hist = s.hist := rfl
@[simp] theorem respond_parsed (d : List Word) (s : State) : (respond d s).parsed = s.parsed := rfl
@[simp] theorem respond_evq (d : List Word) (s : State) : (respond d s).evq = s.evq := rfl
@[simp] theorem respond_cmdPort (d : List Word) (s : State) : (respond d s).cmdPort = s.cmdPort := rfl
@[simp] theorem respond_respPort (d : List Word) (s : State) : (respond d s).respPort = s.respPort ++ [statusWord .ok d.length :: d] := rfl
@[simp] theorem respond_eventPort (d : List Word) (s : State) : (respond d s).eventPort = s.eventPort := rfl

/-! ## refuse -/

@[simp] theorem refuse_plat (r : Status) (s : State) : (refuse r s).plat = s.plat := rfl
@[simp] theorem refuse_pushed (r : Status) (s : State) : (refuse r s).pushed = s.pushed := rfl
@[simp] theorem refuse_processed (r : Status) (s : State) : (refuse r s).processed = s.processed := rfl
@[simp] theorem refuse_trig (r : Status) (s : State) : (refuse r s).trig = s.trig := rfl
@[simp] theorem refuse_cerr (r : Status) (s : State) : (refuse r s).cerr = s.cerr := rfl
@[simp] theorem refuse_cursor (r : Status) (s : State) : (refuse r s).cursor = s.cursor := rfl
@[simp] theorem refuse_buf (r : Status) (s : State) : (refuse r s).buf = s.buf := rfl
@[simp] theorem refuse_hist (r : Status) (s : State) : (refuse r s).hist = s.hist := rfl
@[simp] theorem refuse_parsed (r : Status) (s : State) : (refuse r s).parsed = s.parsed := rfl
@[simp] theorem refuse_evq (r : Status) (s : State) : (refuse r s).evq = s.evq := rfl
@[simp] theorem refuse_cmdPort (r : Status) (s : State) : (refuse r s).cmdPort = s.cmdPort := rfl
@[simp] theorem refuse_respPort (r : Status) (s : State) : (refuse r s).respPort = s.respPort ++ [[statusWord r 0]] := rfl
@[simp] theorem refuse_eventPort (r : Status) (s : State) : (refuse r s).eventPort = s.eventPort := rfl

/-! ## emit -/

@[simp] theorem emit_plat (e : Event) (s : State) : (emit e s).plat = s.plat := rfl
@[simp] theorem emit_pushed (e : Event) (s : State) : (emit e s).pushed = s.pushed := rfl
@[simp] theorem emit_processed (e : Event) (s : State) : (emit e s).processed = s.processed := rfl
@[simp] theorem emit_trig (e : Event) (s : State) : (emit e s).trig = s.trig := rfl
@[simp] theorem emit_cerr (e : Event) (s : State) : (emit e s).cerr = s.cerr := rfl
@[simp] theorem emit_cursor (e : Event) (s : State) : (emit e s).cursor = s.cursor := rfl
@[simp] theorem emit_buf (e : Event) (s : State) : (emit e s).buf = s.buf := rfl
@[simp] theorem emit_hist (e : Event) (s : State) : (emit e s).hist = s.hist := rfl
@[simp] theorem emit_parsed (e : Event) (s : State) : (emit e s).parsed = s.parsed := rfl
@[simp] theorem emit_evq (e : Event) (s : State) : (emit e s).evq = s.evq ++ [e] := rfl
@[simp] theorem emit_cmdPort (e : Event) (s : State) : (emit e s).cmdPort = s.cmdPort := rfl
@[simp] theorem emit_respPort (e : Event) (s : State) : (emit e s).respPort = s.respPort := rfl
@[simp] theorem emit_eventPort (e : Event) (s : State) : (emit e s).eventPort = s.eventPort ++ [eventFrame s.plat.cfg.np e] := rfl

/-! ## raiseError -/

@[simp] theorem raiseError_plat (c : Cause) (s : State) : (raiseError c s).plat = s.plat := rfl
@[simp] theorem raiseError_pushed (c : Cause) (s : State) : (raiseError c s).pushed = s.pushed := rfl
@[simp] theorem raiseError_processed (c : Cause) (s : State) : (raiseError c s).processed = s.processed := rfl
@[simp] theorem raiseError_trig (c : Cause) (s : State) : (raiseError c s).trig = -1 := rfl
@[simp] theorem raiseError_cerr (c : Cause) (s : State) : (raiseError c s).cerr = s.cerr := rfl
@[simp] theorem raiseError_cursor (c : Cause) (s : State) : (raiseError c s).cursor = s.cursor := rfl
@[simp] theorem raiseError_buf (c : Cause) (s : State) : (raiseError c s).buf = s.buf := rfl
@[simp] theorem raiseError_hist (c : Cause) (s : State) : (raiseError c s).hist = s.hist := rfl
@[simp] theorem raiseError_parsed (c : Cause) (s : State) : (raiseError c s).parsed = s.parsed := rfl
@[simp] theorem raiseError_evq (c : Cause) (s : State) : (raiseError c s).evq = s.evq ++ [.error s.processed c] := rfl
@[simp] theorem raiseError_cmdPort (c : Cause) (s : State) : (raiseError c s).cmdPort = s.cmdPort := rfl
@[simp] theorem raiseError_respPort (c : Cause) (s : State) : (raiseError c s).respPort = s.respPort := rfl
@[simp] theorem raiseError_eventPort (c : Cause) (s : State) : (raiseError c s).eventPort = s.eventPort ++ [eventFrame s.plat.cfg.np (.error s.processed c)] := rfl

/-! ## pushSamples -/

@[simp] theorem pushSamples_plat (c : List Binary64) (s : State) : (pushSamples c s).plat = s.plat := rfl
@[simp] theorem pushSamples_pushed (c : List Binary64) (s : State) : (pushSamples c s).pushed = s.pushed + countedSamples s.plat c.length := rfl
@[simp] theorem pushSamples_processed (c : List Binary64) (s : State) : (pushSamples c s).processed = s.processed := rfl
@[simp] theorem pushSamples_trig (c : List Binary64) (s : State) : (pushSamples c s).trig = s.trig := rfl
@[simp] theorem pushSamples_cerr (c : List Binary64) (s : State) : (pushSamples c s).cerr = s.cerr := rfl
@[simp] theorem pushSamples_cursor (c : List Binary64) (s : State) : (pushSamples c s).cursor = s.cursor := rfl
@[simp] theorem pushSamples_buf (c : List Binary64) (s : State) : (pushSamples c s).buf = memWrite s.plat.bufferLength s.buf c := rfl
@[simp] theorem pushSamples_hist (c : List Binary64) (s : State) : (pushSamples c s).hist = s.hist := rfl
@[simp] theorem pushSamples_parsed (c : List Binary64) (s : State) : (pushSamples c s).parsed = s.parsed := rfl
@[simp] theorem pushSamples_evq (c : List Binary64) (s : State) : (pushSamples c s).evq = s.evq := rfl
@[simp] theorem pushSamples_cmdPort (c : List Binary64) (s : State) : (pushSamples c s).cmdPort = s.cmdPort := rfl
@[simp] theorem pushSamples_respPort (c : List Binary64) (s : State) : (pushSamples c s).respPort = s.respPort := rfl
@[simp] theorem pushSamples_eventPort (c : List Binary64) (s : State) : (pushSamples c s).eventPort = s.eventPort := rfl

/-! ## advanceSearch -/

@[simp] theorem advanceSearch_plat (s : State) : (advanceSearch s).plat = s.plat := rfl
@[simp] theorem advanceSearch_pushed (s : State) : (advanceSearch s).pushed = s.pushed := rfl
@[simp] theorem advanceSearch_processed (s : State) : (advanceSearch s).processed = s.processed + s.plat.windowOffset := rfl
@[simp] theorem advanceSearch_trig (s : State) : (advanceSearch s).trig = s.trig := rfl
@[simp] theorem advanceSearch_cerr (s : State) : (advanceSearch s).cerr = s.cerr := rfl
@[simp] theorem advanceSearch_cursor (s : State) : (advanceSearch s).cursor = s.cursor := rfl
@[simp] theorem advanceSearch_buf (s : State) : (advanceSearch s).buf = s.buf := rfl
@[simp] theorem advanceSearch_hist (s : State) : (advanceSearch s).hist = s.hist := rfl
@[simp] theorem advanceSearch_parsed (s : State) : (advanceSearch s).parsed = s.parsed := rfl
@[simp] theorem advanceSearch_evq (s : State) : (advanceSearch s).evq = s.evq := rfl
@[simp] theorem advanceSearch_cmdPort (s : State) : (advanceSearch s).cmdPort = s.cmdPort := rfl
@[simp] theorem advanceSearch_respPort (s : State) : (advanceSearch s).respPort = s.respPort := rfl
@[simp] theorem advanceSearch_eventPort (s : State) : (advanceSearch s).eventPort = s.eventPort := rfl

/-! ## consumePending -/

@[simp] theorem consumePending_plat (s : State) : (consumePending s).plat = s.plat := rfl
@[simp] theorem consumePending_pushed (s : State) : (consumePending s).pushed = s.pushed := rfl
@[simp] theorem consumePending_processed (s : State) : (consumePending s).processed = s.pushed := rfl
@[simp] theorem consumePending_trig (s : State) : (consumePending s).trig = s.trig := rfl
@[simp] theorem consumePending_cerr (s : State) : (consumePending s).cerr = s.cerr := rfl
@[simp] theorem consumePending_cursor (s : State) : (consumePending s).cursor = s.cursor := rfl
@[simp] theorem consumePending_buf (s : State) : (consumePending s).buf = s.buf := rfl
@[simp] theorem consumePending_hist (s : State) : (consumePending s).hist = s.hist := rfl
@[simp] theorem consumePending_parsed (s : State) : (consumePending s).parsed = s.parsed := rfl
@[simp] theorem consumePending_evq (s : State) : (consumePending s).evq = s.evq := rfl
@[simp] theorem consumePending_cmdPort (s : State) : (consumePending s).cmdPort = s.cmdPort := rfl
@[simp] theorem consumePending_respPort (s : State) : (consumePending s).respPort = s.respPort := rfl
@[simp] theorem consumePending_eventPort (s : State) : (consumePending s).eventPort = s.eventPort := rfl

/-! ## fire -/

@[simp] theorem fire_plat (s : State) : (fire s).plat = s.plat := rfl
@[simp] theorem fire_pushed (s : State) : (fire s).pushed = s.pushed := rfl
@[simp] theorem fire_processed (s : State) : (fire s).processed = s.processed := rfl
@[simp] theorem fire_trig (s : State) : (fire s).trig = fireIndex s := rfl
@[simp] theorem fire_cerr (s : State) : (fire s).cerr = 0 := rfl
@[simp] theorem fire_cursor (s : State) : (fire s).cursor = 0 := rfl
@[simp] theorem fire_buf (s : State) : (fire s).buf = s.buf := rfl
@[simp] theorem fire_hist (s : State) : (fire s).hist = s.hist := rfl
@[simp] theorem fire_parsed (s : State) : (fire s).parsed = List.replicate s.plat.cfg.np 0 := rfl
@[simp] theorem fire_evq (s : State) : (fire s).evq = s.evq ++ [.pitch (fireIndex s)] := rfl
@[simp] theorem fire_cmdPort (s : State) : (fire s).cmdPort = s.cmdPort := rfl
@[simp] theorem fire_respPort (s : State) : (fire s).respPort = s.respPort := rfl
@[simp] theorem fire_eventPort (s : State) : (fire s).eventPort = s.eventPort ++ [eventFrame s.plat.cfg.np (.pitch (fireIndex s))] := rfl

/-! ## resetEngine -/

@[simp] theorem resetEngine_plat (s : State) : (resetEngine s).plat = s.plat := rfl
@[simp] theorem resetEngine_pushed (s : State) : (resetEngine s).pushed = 0 := rfl
@[simp] theorem resetEngine_processed (s : State) : (resetEngine s).processed = 0 := rfl
@[simp] theorem resetEngine_trig (s : State) : (resetEngine s).trig = -1 := rfl
@[simp] theorem resetEngine_cerr (s : State) : (resetEngine s).cerr = 0 := rfl
@[simp] theorem resetEngine_cursor (s : State) : (resetEngine s).cursor = 0 := rfl
@[simp] theorem resetEngine_buf (s : State) : (resetEngine s).buf = List.replicate s.plat.bufferLength ⟨0⟩ := rfl
@[simp] theorem resetEngine_hist (s : State) : (resetEngine s).hist = List.replicate s.plat.historyLength ⟨0⟩ := rfl
@[simp] theorem resetEngine_parsed (s : State) : (resetEngine s).parsed = List.replicate s.plat.cfg.np 0 := rfl
@[simp] theorem resetEngine_evq (s : State) : (resetEngine s).evq = [] := rfl
@[simp] theorem resetEngine_cmdPort (s : State) : (resetEngine s).cmdPort = s.cmdPort := rfl
@[simp] theorem resetEngine_respPort (s : State) : (resetEngine s).respPort = s.respPort := rfl
@[simp] theorem resetEngine_eventPort (s : State) : (resetEngine s).eventPort = s.eventPort := rfl

/-! ## powerOn -/

@[simp] theorem powerOn_plat (p : Platform) : (State.powerOn p).plat = p := rfl
@[simp] theorem powerOn_pushed (p : Platform) : (State.powerOn p).pushed = 0 := rfl
@[simp] theorem powerOn_processed (p : Platform) : (State.powerOn p).processed = 0 := rfl
@[simp] theorem powerOn_trig (p : Platform) : (State.powerOn p).trig = -1 := rfl
@[simp] theorem powerOn_cerr (p : Platform) : (State.powerOn p).cerr = 0 := rfl
@[simp] theorem powerOn_cursor (p : Platform) : (State.powerOn p).cursor = 0 := rfl
@[simp] theorem powerOn_buf (p : Platform) : (State.powerOn p).buf = List.replicate p.bufferLength ⟨0⟩ := rfl
@[simp] theorem powerOn_hist (p : Platform) : (State.powerOn p).hist = List.replicate p.historyLength ⟨0⟩ := rfl
@[simp] theorem powerOn_parsed (p : Platform) : (State.powerOn p).parsed = List.replicate p.cfg.np 0 := rfl
@[simp] theorem powerOn_evq (p : Platform) : (State.powerOn p).evq = [] := rfl
@[simp] theorem powerOn_cmdPort (p : Platform) : (State.powerOn p).cmdPort = [] := rfl
@[simp] theorem powerOn_respPort (p : Platform) : (State.powerOn p).respPort = [] := rfl
@[simp] theorem powerOn_eventPort (p : Platform) : (State.powerOn p).eventPort = [] := rfl

/-! ## withFetchWord -/

@[simp] theorem withFetchWord_plat (s : State) (k w : Nat) : (s.withFetchWord k w).plat = s.plat := rfl
@[simp] theorem withFetchWord_pushed (s : State) (k w : Nat) : (s.withFetchWord k w).pushed = s.pushed := rfl
@[simp] theorem withFetchWord_processed (s : State) (k w : Nat) : (s.withFetchWord k w).processed = s.processed := rfl
@[simp] theorem withFetchWord_trig (s : State) (k w : Nat) : (s.withFetchWord k w).trig = s.trig := rfl
@[simp] theorem withFetchWord_cerr (s : State) (k w : Nat) : (s.withFetchWord k w).cerr = s.cerr := rfl
@[simp] theorem withFetchWord_cursor (s : State) (k w : Nat) : (s.withFetchWord k w).cursor = s.cursor := rfl
@[simp] theorem withFetchWord_buf (s : State) (k w : Nat) : (s.withFetchWord k w).buf = s.buf := rfl
@[simp] theorem withFetchWord_hist (s : State) (k w : Nat) : (s.withFetchWord k w).hist = s.hist := rfl
@[simp] theorem withFetchWord_parsed (s : State) (k w : Nat) : (s.withFetchWord k w).parsed = s.parsed := rfl
@[simp] theorem withFetchWord_evq (s : State) (k w : Nat) : (s.withFetchWord k w).evq = s.evq := rfl
@[simp] theorem withFetchWord_cmdPort (s : State) (k w : Nat) : (s.withFetchWord k w).cmdPort = tableFrame k w :: s.cmdPort := rfl
@[simp] theorem withFetchWord_respPort (s : State) (k w : Nat) : (s.withFetchWord k w).respPort = s.respPort := rfl
@[simp] theorem withFetchWord_eventPort (s : State) (k w : Nat) : (s.withFetchWord k w).eventPort = s.eventPort := rfl

/-! ## countCorrection -/

@[simp] theorem countCorrection_plat (o : HamOutcome) (s : State) : (countCorrection o s).plat = s.plat := by
  unfold countCorrection; split <;> rfl
@[simp] theorem countCorrection_pushed (o : HamOutcome) (s : State) : (countCorrection o s).pushed = s.pushed := by
  unfold countCorrection; split <;> rfl
@[simp] theorem countCorrection_processed (o : HamOutcome) (s : State) : (countCorrection o s).processed = s.processed := by
  unfold countCorrection; split <;> rfl
@[simp] theorem countCorrection_trig (o : HamOutcome) (s : State) : (countCorrection o s).trig = s.trig := by
  unfold countCorrection; split <;> rfl
@[simp] theorem countCorrection_cursor (o : HamOutcome) (s : State) : (countCorrection o s).cursor = s.cursor := by
  unfold countCorrection; split <;> rfl
@[simp] theorem countCorrection_buf (o : HamOutcome) (s : State) : (countCorrection o s).buf = s.buf := by
  unfold countCorrection; split <;> rfl
@[simp] theorem countCorrection_hist (o : HamOutcome) (s : State) : (countCorrection o s).hist = s.hist := by
  unfold countCorrection; split <;> rfl
@[simp] theorem countCorrection_parsed (o : HamOutcome) (s : State) : (countCorrection o s).parsed = s.parsed := by
  unfold countCorrection; split <;> rfl
@[simp] theorem countCorrection_evq (o : HamOutcome) (s : State) : (countCorrection o s).evq = s.evq := by
  unfold countCorrection; split <;> rfl
@[simp] theorem countCorrection_cmdPort (o : HamOutcome) (s : State) : (countCorrection o s).cmdPort = s.cmdPort := by
  unfold countCorrection; split <;> rfl
@[simp] theorem countCorrection_respPort (o : HamOutcome) (s : State) : (countCorrection o s).respPort = s.respPort := by
  unfold countCorrection; split <;> rfl
@[simp] theorem countCorrection_eventPort (o : HamOutcome) (s : State) : (countCorrection o s).eventPort = s.eventPort := by
  unfold countCorrection; split <;> rfl

theorem countCorrection_cerr (o : HamOutcome) (s : State) :
    (countCorrection o s).cerr = s.cerr + (if o = .correctedError then 1 else 0) := by
  unfold countCorrection; split <;> rfl

end Sys2Proof.Machine
end

