-- ==== Sys2Proof/Laws/Ops.lean ====
section
/-!
SUPPORT. What each shared operation can do, said once: the checks, the geometry, the sample buffer, the sweep, the trigger
evaluation, the acceptance of a word, the internal steps and the run loop.
-/

namespace Sys2Proof

/-! ## The `NUM` of a platform: what a supplied one has in common with binary64 -/

@[simp] theorem Platform.num_ofBits (p : Platform) : p.num.ofBits = Machine.ofBits := by
  unfold Platform.num; cases p.numerics <;> rfl

@[simp] theorem Platform.num_toBits (p : Platform) : p.num.toBits = Machine.toBits := by
  unfold Platform.num; cases p.numerics <;> rfl

@[simp] theorem Platform.num_floorMul (p : Platform) : p.num.floorMul = Machine.floorProduct p.num.mul := by
  unfold Platform.num; cases p.numerics <;> rfl

@[simp] theorem Platform.num_isFinite (p : Platform) : p.num.isFinite = Machine.f64IsFinite := by
  unfold Platform.num; cases p.numerics <;> rfl

end Sys2Proof

namespace Sys2Proof.Machine

variable {T : Type}

/-! ## Checks and completion -/

@[simp] theorem firstFailure_nil : firstFailure [] = none := rfl

@[simp] theorem check_true (st : Status) : check true st = none := rfl

@[simp] theorem check_false (st : Status) : check false st = some st := rfl

@[simp] theorem firstFailure_none (cs : List (Option Status)) : firstFailure (none :: cs) = firstFailure cs := by
  simp [firstFailure]

@[simp] theorem firstFailure_some (st : Status) (cs : List (Option Status)) :
    firstFailure (some st :: cs) = some st := by
  simp [firstFailure]

/-- A check that fails decides unless an earlier one did. -/
theorem firstFailure_check (b : Bool) (st : Status) (cs : List (Option Status)) :
    firstFailure (check b st :: cs) = if b then firstFailure cs else some st := by
  cases b <;> simp

theorem complete_refused {cs : List (Option Status)} {eff : State → Except Fault State} {s : State} {st : Status}
    (h : firstFailure cs = some st) : complete cs eff s = .next (refuse st s) := by
  simp [complete, h]

theorem complete_ok {cs : List (Option Status)} {eff : State → Except Fault State} {s t : State}
    (h : firstFailure cs = none) (he : eff s = .ok t) : complete cs eff s = .next t := by
  simp [complete, h, he]

/-- A command without a fault: not refused, it has its effect. -/
theorem complete_pure {cs : List (Option Status)} {f : State → State} {s : State} (h : firstFailure cs = none) :
    complete cs (fun s => .ok (f s)) s = .next (f s) :=
  complete_ok h rfl

/-- All a command can do: be refused, have its effect, or stop on its effect's fault. -/
theorem complete_cases (cs : List (Option Status)) (eff : State → Except Fault State) (s : State) :
    (∃ st, firstFailure cs = some st ∧ complete cs eff s = .next (refuse st s)) ∨
    (firstFailure cs = none ∧ ∃ t, eff s = .ok t ∧ complete cs eff s = .next t) ∨
    (firstFailure cs = none ∧ ∃ f, eff s = .error f ∧ complete cs eff s = .fault f) := by
  cases h : firstFailure cs with
  | some st => exact .inl ⟨st, rfl, complete_refused h⟩
  | none =>
    cases he : eff s with
    | ok t => exact .inr (.inl ⟨rfl, t, rfl, complete_ok h he⟩)
    | error f => exact .inr (.inr ⟨rfl, f, rfl, by simp [complete, h, he]⟩)

/-! ## Geometry of an admitted configuration -/

/-- What admission says of the word length (00_scope.md R11). -/
theorem admitted_wordLength {num : Numerics T} {c : Config T} (h : admitted num c = true) :
    4 ≤ wordLength num c ∧ wordLength num c % 4 = 0 ∧ 3 * wordLength num c < 2 ^ 31 := by
  simp only [admitted, Bool.and_eq_true, decide_eq_true_eq] at h
  tauto

theorem admitted_payload {num : Numerics T} {c : Config T} (h : admitted num c = true) : 1 ≤ c.np ∧ c.np < 2 ^ 31 := by
  simp only [admitted, Bool.and_eq_true, decide_eq_true_eq] at h
  tauto

theorem windowOffset_pos {num : Numerics T} {c : Config T} (h : admitted num c = true) : 1 ≤ windowOffset num c := by
  have := admitted_wordLength h
  unfold windowOffset; omega

/-- The history of an admitted configuration has twelve entries (40_tone_table_geometry.md R104). -/
theorem admitted_historyLength {num : Numerics T} {c : Config T} (h : admitted num c = true) : historyLength num c = 12 := by
  have := admitted_wordLength h
  unfold historyLength bufferLength windowOffset
  have : 3 * wordLength num c = 12 * (wordLength num c / 4) := by omega
  rw [this]; exact Nat.mul_div_cancel _ (by omega)

/-- The lengths of a platform whose configuration is admitted, in the platform's own words. -/
theorem platform_lengths {p : Platform} (h : p.admitted = true) :
    4 ≤ p.wordLength ∧ p.wordLength = 4 * p.windowOffset ∧ p.doorLength = p.wordLength ∧
      p.bufferLength = 3 * p.wordLength ∧ p.historyLength = 12 := by
  have := admitted_wordLength h
  refine ⟨this.1, ?_, rfl, rfl, admitted_historyLength h⟩
  simp only [Platform.windowOffset, windowOffset, Platform.wordLength]; omega

/-! ## The sample buffer -/

theorem memRead_eq_ok {s : State} {a : Int} {n : Nat} (h : bufferBase s ≤ a ∧ a + n ≤ s.pushed) :
    memRead s a n = .ok ((s.buf.drop (a - bufferBase s).toNat).take n) := by
  simp [memRead, h]

theorem memRead_eq_error {s : State} {a : Int} {n : Nat} (h : ¬ (bufferBase s ≤ a ∧ a + n ≤ s.pushed)) :
    memRead s a n = .error .memReadOutOfRange := by
  simp [memRead, h]

/-- A write of a chunk keeps the number of cells. -/
theorem memWrite_length {b : Nat} {m : List Binary64} (c : List Binary64) (h : m.length = b) :
    (memWrite b m c).length = b := by
  unfold memWrite
  split <;> simp <;> omega

/-- Every cell after a write was a cell before or is a sample of the chunk. -/
theorem memWrite_mem {b : Nat} {m c : List Binary64} {x : Binary64} (h : x ∈ memWrite b m c) : x ∈ m ∨ x ∈ c := by
  unfold memWrite at h
  split at h
  · rcases List.mem_append.1 h with h | h
    · exact .inl (List.mem_of_mem_drop h)
    · exact .inr h
  · exact .inr (List.mem_of_mem_drop h)

/-- The number a finite word denotes is canonical: finite, and zero only as `0.0`. -/
theorem ofBits_canonical {w : Word} (h : isFiniteWord w = true) : cellCanonical (ofBits w) = true := by
  unfold ofBits
  split
  · decide
  · simpa [cellCanonical, h] using ‹¬ w = _›

theorem Memory.wf_iff (p : Platform) (m : List Binary64) :
    Memory.wf p m = true ↔ m.length = p.bufferLength ∧ ∀ x ∈ m, cellCanonical x = true := by
  simp [Memory.wf]

/-- A write of canonical samples keeps the canonical form of the memory. -/
theorem memWrite_wf {p : Platform} {m chunk : List Binary64} (hm : Memory.wf p m = true)
    (hc : ∀ x ∈ chunk, cellCanonical x = true) : Memory.wf p (memWrite p.bufferLength m chunk) = true := by
  rw [Memory.wf_iff] at hm ⊢
  exact ⟨memWrite_length chunk hm.1, fun x hx => (memWrite_mem hx).elim (hm.2 x) (hc x)⟩

/-- The samples of a frame whose numbers are finite are canonical. -/
theorem chunkOf_canonical {o : Operands} (p : Platform) (h : allFinite o.data = true) :
    ∀ x ∈ chunkOf p.num o, cellCanonical x = true := by
  intro x hx
  obtain ⟨w, hw, rfl⟩ := List.mem_map.1 hx
  rw [p.num_ofBits]
  exact ofBits_canonical (List.all_eq_true.1 h w hw)

/-- The memory after power-on has the canonical form, whatever the platform. -/
theorem powerOn_wf (p : Platform) : Memory.wf p (State.powerOn p).buf = true := by
  rw [Memory.wf_iff]
  refine ⟨by simp, fun x hx => ?_⟩
  obtain ⟨-, rfl⟩ := List.mem_replicate.1 hx
  decide

theorem reset_memory_wf : Memory.wf State.reset.plat State.reset.buf = true := powerOn_wf _

/-! ## The sweep -/

/-- All one iteration can do: skip, read, or (never, in range) fault. -/
theorem sweepIteration_cases (s : State) :
    (searchWindow s < bufferBase s ∧ sweepIteration s = .ok (advanceSearch s)) ∨
    (¬ searchWindow s < bufferBase s ∧ ∃ x, memRead s (searchWindow s) s.plat.doorLength = .ok x ∧
      sweepIteration s = .ok (advanceSearch
        { s with hist := shiftHistory s.hist (doorReading s.plat.num s.plat.cfg x) })) ∨
    (¬ searchWindow s < bufferBase s ∧ ∃ f, memRead s (searchWindow s) s.plat.doorLength = .error f ∧
      sweepIteration s = .error f) := by
  unfold sweepIteration
  by_cases h : searchWindow s < bufferBase s
  · simp [h]
  · cases hm : memRead s (searchWindow s) s.plat.doorLength <;> simp [h]

/-- An iteration writes `HIST` and `PROCESSED` only. -/
theorem sweepIteration_frame {s t : State} (h : sweepIteration s = .ok t) :
    t = { s with hist := t.hist, processed := s.processed + s.plat.windowOffset } := by
  rcases sweepIteration_cases s with ⟨-, h'⟩ | ⟨-, x, -, h'⟩ | ⟨-, f, -, h'⟩ <;> rw [h'] at h <;> cases h <;> rfl

/-- The sweep of `k` iterations writes `HIST` and advances `PROCESSED` by `k × WO`, and nothing else. -/
theorem sweep_frame : ∀ {k : Nat} {s t : State}, sweep k s = .ok t →
    t = { s with hist := t.hist, processed := s.processed + k * s.plat.windowOffset }
  | 0, s, t, h => by cases h; simp
  | k + 1, s, t, h => by
    simp only [sweep] at h
    cases hi : sweepIteration s with
    | error f => simp [hi] at h
    | ok u =>
      rw [hi] at h
      have hu := sweepIteration_frame hi
      have ht := sweep_frame h
      rw [hu] at ht
      rw [ht]
      simp only [Nat.add_mul, Nat.one_mul, State.mk.injEq, true_and, and_true]
      omega

/-- An iteration keeps the length of a history that has entries. -/
theorem sweepIteration_hist_length {s t : State} (h : sweepIteration s = .ok t) (hl : 1 ≤ s.hist.length) :
    t.hist.length = s.hist.length := by
  rcases sweepIteration_cases s with ⟨-, h'⟩ | ⟨-, x, -, h'⟩ | ⟨-, f, -, h'⟩ <;> rw [h'] at h <;> cases h
  · rfl
  · simp [shiftHistory]; omega

/-! ## The trigger evaluation and the acceptance of a word -/

theorem evaluateTrigger_cases (s : State) :
    (firesNow s = true ∧ evaluateTrigger s = (.pitch, fire s)) ∨
    (firesNow s = false ∧ evaluateTrigger s = (.idle, s)) := by
  cases h : firesNow s <;> simp [evaluateTrigger, h]

/-- All a decoded word can do. -/
theorem acceptWord_cases (target : Int) (a : Byte × HamOutcome) (s : State) :
    (a.2 = .failCorrection ∧ acceptWord target a s = (.error, raiseError .uncorrectable s)) ∨
    (a.2 ≠ .failCorrection ∧ s.cursor = 0 ∧
      acceptWord target a s = acceptValidation target a.1 (countCorrection a.2 s)) ∨
    (a.2 ≠ .failCorrection ∧ s.cursor ≠ 0 ∧
      acceptWord target a s = acceptPayload target a.1 (countCorrection a.2 s)) := by
  by_cases h : a.2 = .failCorrection
  · simp [acceptWord, h]
  · by_cases hc : s.cursor = 0 <;> simp [acceptWord, h, hc]

/-! ## The internal steps and the run loop -/

/-- An iteration completes when a whole window offset is pending. -/
theorem sweepIteration_ok {s : State} (h : s.processed + s.plat.windowOffset ≤ s.pushed) :
    ∃ t, sweepIteration s = .ok t := by
  rcases sweepIteration_cases s with ⟨-, h'⟩ | ⟨-, x, -, h'⟩ | ⟨hb, f, hm, -⟩
  · exact ⟨_, h'⟩
  · exact ⟨_, h'⟩
  · rw [memRead_eq_ok ⟨by omega, by simp only [searchWindow]; omega⟩] at hm
    cases hm

/-- The sweep completes when every window offset it consumes is pending. -/
theorem sweep_ok : ∀ {k : Nat} {s : State}, s.processed + k * s.plat.windowOffset ≤ s.pushed →
    ∃ t, sweep k s = .ok t
  | 0, s, _ => ⟨s, rfl⟩
  | k + 1, s, h => by
    rw [Nat.add_mul, Nat.one_mul] at h
    obtain ⟨t, ht⟩ := sweepIteration_ok (s := s) (by omega)
    have hf := sweepIteration_frame ht
    have hp : t.plat = s.plat := by rw [hf]
    have hq : t.processed = s.processed + s.plat.windowOffset := by rw [hf]
    have hr : t.pushed = s.pushed := by rw [hf]
    simp only [sweep, ht]
    exact sweep_ok (by rw [hp, hq, hr]; omega)

/-- A sweep that completes is a chain of iterations, each from the state the one before leaves. -/
theorem sweep_chain : ∀ {k : Nat} {s t : State}, sweep k s = .ok t →
    ∃ us : Nat → State, us 0 = s ∧ us k = t ∧ ∀ j, j < k → sweepIteration (us j) = .ok (us (j + 1))
  | 0, s, t, h => ⟨fun _ => s, rfl, by simpa [sweep] using h, fun j hj => absurd hj (Nat.not_lt_zero j)⟩
  | k + 1, s, t, h => by
    simp only [sweep] at h
    cases hi : sweepIteration s with
    | error f => simp [hi] at h
    | ok u =>
      rw [hi] at h
      obtain ⟨us, h0, hk, hs⟩ := sweep_chain h
      refine ⟨fun j => Nat.casesOn j s us, rfl, hk, fun j hj => ?_⟩
      cases j with
      | zero => exact hi.trans (congrArg Except.ok h0.symm)
      | succ j => exact hs j (by omega)

/-- The sweep consumes no more than is pending. -/
theorem sweepCount_mul_le (s : State) : sweepCount s * s.plat.windowOffset ≤ s.pushed - s.processed :=
  Nat.div_mul_le_self _ _

/-- All the sweep of a search step can do: it completes, in a state that differs in `HIST` and `PROCESSED` only. -/
theorem sweep_total (s : State) :
    ∃ t, sweep (sweepCount s) s = .ok t ∧
      t = { s with hist := t.hist, processed := s.processed + sweepCount s * s.plat.windowOffset } := by
  have hmul := sweepCount_mul_le s
  by_cases h : s.processed ≤ s.pushed
  · obtain ⟨t, ht⟩ := sweep_ok (k := sweepCount s) (s := s) (by omega)
    exact ⟨t, ht, sweep_frame ht⟩
  · have h0 : sweepCount s = 0 := by simp [sweepCount, Nat.sub_eq_zero_of_le (by omega : s.pushed ≤ s.processed)]
    rw [h0]
    exact ⟨s, rfl, by simp⟩

/-- The sweep keeps the length of a history that has entries. -/
theorem sweep_hist_length : ∀ {k : Nat} {s t : State}, sweep k s = .ok t → 1 ≤ s.hist.length →
    t.hist.length = s.hist.length
  | 0, s, t, h, _ => by cases h; rfl
  | k + 1, s, t, h, hl => by
    simp only [sweep] at h
    cases hi : sweepIteration s with
    | error f => simp [hi] at h
    | ok u =>
      rw [hi] at h
      have hu := sweepIteration_hist_length hi hl
      rw [sweep_hist_length h (by omega), hu]

/-- All a search step can do: sweep, then fire or not. -/
theorem searchStep_total (s : State) :
    ∃ t, sweep (sweepCount s) s = .ok t ∧
      t = { s with hist := t.hist, processed := s.processed + sweepCount s * s.plat.windowOffset } ∧
      searchStep s = .ok (evaluateTrigger t) := by
  obtain ⟨t, ht, hf⟩ := sweep_total s
  exact ⟨t, ht, hf, by simp [searchStep, ht]⟩

/-- All a synchronized step can do. -/
theorem syncStep_cases (s : State) :
    (wordPosition s < bufferBase s ∧
      syncStep s = .ok (.error, consumePending (raiseError .missedWindow s))) ∨
    (bufferBase s ≤ wordPosition s ∧ (s.pushed : Int) < wordPosition s + s.plat.wordLength ∧
      syncStep s = .ok (.idle, consumePending s)) ∨
    (bufferBase s ≤ wordPosition s ∧ wordPosition s + s.plat.wordLength ≤ s.pushed ∧
      ∃ x, memRead s (wordPosition s) s.plat.wordLength = .ok x ∧
        let r := acceptWord (wordPosition s) (hdec s.plat.ham (windowCode s.plat.num s.plat.cfg x)) s
        syncStep s = .ok (r.1, consumePending r.2)) := by
  unfold syncStep
  by_cases h1 : wordPosition s < bufferBase s
  · simp [h1]
  · by_cases h2 : (s.pushed : Int) < wordPosition s + s.plat.wordLength
    · simp [h1, h2]; omega
    · right; right
      refine ⟨by omega, by omega, _, memRead_eq_ok ⟨by omega, by omega⟩, ?_⟩
      simp only [h1, h2, if_false, memRead_eq_ok (s := s) (a := wordPosition s) (n := s.plat.wordLength) ⟨by omega, by omega⟩]

/-- A synchronized step always completes. -/
theorem syncStep_total (s : State) : ∃ r t, syncStep s = .ok (r, t) := by
  rcases syncStep_cases s with ⟨-, h⟩ | ⟨-, -, h⟩ | ⟨-, -, x, -, h⟩ <;> exact ⟨_, _, h⟩

/-- The word that ends a synchronized step in PITCH moves the cursor on by one and the position by `W`. -/
theorem syncStep_pitch {s t : State} (h : syncStep s = .ok (.pitch, t)) :
    bufferBase s ≤ wordPosition s ∧ wordPosition s + s.plat.wordLength ≤ s.pushed ∧
      t.plat = s.plat ∧ t.pushed = s.pushed ∧ t.trig = s.trig ∧ t.cursor = s.cursor + 1 ∧ t.processed = s.pushed := by
  rcases syncStep_cases s with ⟨-, h'⟩ | ⟨-, -, h'⟩ | ⟨h1, h2, x, -, h'⟩
  · rw [h'] at h; cases h
  · rw [h'] at h; cases h
  · refine ⟨h1, h2, ?_⟩
    simp only [h', Except.ok.injEq, Prod.mk.injEq] at h
    obtain ⟨hr, rfl⟩ := h
    rcases acceptWord_cases (wordPosition s) (hdec s.plat.ham (windowCode s.plat.num s.plat.cfg x)) s with
      ⟨-, ha⟩ | ⟨-, hc, ha⟩ | ⟨-, hc, ha⟩ <;> rw [ha] at hr ⊢
    · cases hr
    · unfold acceptValidation at hr ⊢
      split at hr
      · cases hr
      · simp_all
    · unfold acceptPayload at hr ⊢
      simp only at hr ⊢
      split at hr
      · cases hr
      · simp_all

/-- Synchronized, the loop completes in as many steps as there are whole words up to `PUSHED`, and one more. -/
theorem runLoop_sync : ∀ (fuel : Nat) (s : State), 0 ≤ s.trig → s.plat.admitted = true →
    (s.pushed : Int) < wordPosition s + (fuel : Int) * s.plat.wordLength → 1 ≤ fuel →
    ∃ t, runLoop fuel s = .ok t
  | 0, s, _, _, _, h => by omega
  | fuel + 1, s, ht, ha, hw, _ => by
    obtain ⟨r, t, h⟩ := syncStep_total s
    have hi : internalStep s = .ok (r, t) := by simp [internalStep, searching, h]; omega
    by_cases hr : r = .pitch
    · subst hr
      obtain ⟨h1, h2, h3, h4, h5, h6, h7⟩ := syncStep_pitch h
      have hwl := admitted_wordLength ha
      have hpos : wordPosition t = wordPosition s + s.plat.wordLength := by
        simp only [wordPosition, h3, h5, h6]; push_cast; ring
      simp only [runLoop, hi, if_true]
      refine runLoop_sync fuel t (by omega) (h3 ▸ ha) ?_ ?_
      · rw [hpos, h3, h4]; push_cast at hw; linarith
      · by_contra h0
        have : fuel = 0 := by omega
        subst this
        simp at hw; omega
    · exact ⟨t, by simp [runLoop, hi, hr]⟩

/-- A search step that ends in PITCH has fired. -/
theorem searchStep_pitch {s t : State} (h : searchStep s = .ok (.pitch, t)) :
    0 ≤ t.trig ∧ t.plat = s.plat ∧ t.pushed = s.pushed ∧ t.cursor = 0 := by
  obtain ⟨u, -, hu, h'⟩ := searchStep_total s
  rw [h'] at h
  simp only [Except.ok.injEq] at h
  have hp : u.plat = s.plat := by rw [hu]
  have hq : u.pushed = s.pushed := by rw [hu]
  rcases evaluateTrigger_cases u with ⟨hf, he⟩ | ⟨-, he⟩ <;> rw [he] at h <;> cases h
  refine ⟨?_, by simpa using hp, by simpa using hq, by simp⟩
  simp only [firesNow, Bool.and_eq_true, decide_eq_true_eq] at hf
  simpa using hf.2

/-- The bound of the run loop is never used up. -/
theorem runLoop_total {s : State} (ha : s.plat.admitted = true) : ∃ t, runLoop runLoopBound s = .ok t := by
  -- a synchronized step with the position in the buffer has at most three words before it
  have sync : ∀ (fuel : Nat) (u : State), 4 ≤ fuel → 0 ≤ u.trig → u.plat.admitted = true →
      ∃ t, runLoop fuel u = .ok t := by
    intro fuel u hfu hu hau
    have hwu := platform_lengths hau
    by_cases hb : bufferBase u ≤ wordPosition u
    · refine runLoop_sync fuel u hu hau ?_ (by omega)
      simp only [bufferBase] at hb
      have : (4 : Int) * u.plat.wordLength ≤ fuel * u.plat.wordLength := by
        apply mul_le_mul_of_nonneg_right <;> omega
      omega
    · rcases syncStep_cases u with ⟨-, h⟩ | ⟨h, -⟩ | ⟨h, -⟩
      · obtain ⟨n, rfl⟩ : ∃ n, fuel = n + 1 := ⟨fuel - 1, by omega⟩
        refine ⟨consumePending (raiseError .missedWindow u), ?_⟩
        have hi : internalStep u = .ok (.error, consumePending (raiseError .missedWindow u)) := by
          simp [internalStep, searching, h]; omega
        simp [runLoop, hi]
      · omega
      · omega
  by_cases ht : 0 ≤ s.trig
  · exact sync _ s (by decide) ht ha
  · obtain ⟨u, -, hu, h'⟩ := searchStep_total s
    have hi : internalStep s = .ok (evaluateTrigger u) := by simp [internalStep, searching, h']; omega
    show ∃ t, runLoop (4 + 1) s = .ok t
    by_cases hr : (evaluateTrigger u).1 = .pitch
    · have h'' : searchStep s = .ok (.pitch, (evaluateTrigger u).2) := by rw [h', ← hr]
      obtain ⟨h1, h2, h3, h4⟩ := searchStep_pitch h''
      simp only [runLoop, hi, hr, if_true]
      exact sync 4 _ (le_refl _) h1 (h2 ▸ ha)
    · exact ⟨(evaluateTrigger u).2, by simp [runLoop, hi, hr]⟩

end Sys2Proof.Machine
end

