-- ==== Sys2Proof/Laws/PerInstr.lean ====
section
/-!
SUPPORT. Per-command laws: the family FrameHeader, the shape of a command's frame (30_encoding.md R81).
-/

namespace Sys2Proof.Laws.FrameHeader

/-- The frame begins with a header of the command's opcode, and the data words stand behind it. -/
def Statement (i : Instr) : Prop :=
  ∃ h, encode i = h :: (operandsIn i).data ∧ opcField h = opcodeOf i

theorem nop (o : Operands) : Statement (.nop o) := ⟨_, rfl, headerWord_opc _ _⟩
theorem push (o : Operands) : Statement (.push o) := ⟨_, rfl, headerWord_opc _ _⟩
theorem rdtrig (o : Operands) : Statement (.rdtrig o) := ⟨_, rfl, headerWord_opc _ _⟩
theorem rdwlen (o : Operands) : Statement (.rdwlen o) := ⟨_, rfl, headerWord_opc _ _⟩
theorem rddlen (o : Operands) : Statement (.rddlen o) := ⟨_, rfl, headerWord_opc _ _⟩
theorem rdcerr (o : Operands) : Statement (.rdcerr o) := ⟨_, rfl, headerWord_opc _ _⟩
theorem rdmaxc (o : Operands) : Statement (.rdmaxc o) := ⟨_, rfl, headerWord_opc _ _⟩
theorem encode (o : Operands) : Statement (.encode o) := ⟨_, rfl, headerWord_opc _ _⟩
theorem reset (o : Operands) : Statement (.reset o) := ⟨_, rfl, headerWord_opc _ _⟩
theorem goertzel (o : Operands) : Statement (.goertzel o) := ⟨_, rfl, headerWord_opc _ _⟩

end Sys2Proof.Laws.FrameHeader
end

