-- ==== Sys2Proof/Laws/Rounding.lean ====
section
/-!
SUPPORT. What the operations of the binary64 `NUM` do with numbers: their results are numbers, their comparisons are those
of the real numbers, and a product keeps its sign and its size, in the range of binary64 and beyond it.
-/

namespace Sys2Proof.Machine

/-! ## Comparisons -/

/-- A mantissa brought down to a lower exponent stands for the same number. -/
theorem alignedMan_value (u : Unpacked) {e : Int} (h : e ≤ u.exp) :
    (alignedMan u e : ℝ) * 2 ^ e = (if u.neg then -1 else 1) * (u.man : ℝ) * 2 ^ u.exp := by
  obtain ⟨d, hd⟩ := Int.eq_ofNat_of_zero_le (show 0 ≤ u.exp - e by omega)
  rw [show u.exp = e + d by omega, zpow_add₀ two_ne_zero, zpow_natCast]
  simp only [alignedMan, hd, Int.toNat_natCast, Nat.shiftLeft_eq]
  cases u.neg <;> simp <;> ring

/-- The order of two patterns is that of their numbers. -/
theorem valueLe_iff (a b : Word) : valueLe (unpack a) (unpack b) = true ↔ realOfBits a ≤ realOfBits b := by
  rw [realOfBits, realOfBits, ← alignedMan_value _ (min_le_left _ (unpack b).exp),
    ← alignedMan_value _ (min_le_right (unpack a).exp _), valueLe, decide_eq_true_iff]
  rw [mul_le_mul_iff_left₀ (by positivity)]
  exact_mod_cast Iff.rfl

theorem f64Le_iff {a b : Binary64} (ha : isFiniteWord a.bits = true) (hb : isFiniteWord b.bits = true) :
    f64Le a b = true ↔ realOfBits a.bits ≤ realOfBits b.bits := by
  simp only [f64Le, f64Compare, ha, hb, Bool.and_self, valueLe_iff]

theorem f64Lt_iff {a b : Binary64} (ha : isFiniteWord a.bits = true) (hb : isFiniteWord b.bits = true) :
    f64Lt a b = true ↔ realOfBits a.bits < realOfBits b.bits := by
  simp only [f64Lt, f64Compare, ha, hb, Bool.and_self, Bool.not_eq_true', ← not_le, ← valueLe_iff b.bits a.bits,
    Bool.not_eq_true]

/-! ## Every result is a number -/

theorem asNumber_isFinite (w : Word) : isFiniteWord (asNumber w) = true := by
  unfold asNumber; split
  · exact (‹_ ∧ _› : _ ∧ _).1
  · rfl

theorem roundPack_isFinite (neg : Bool) (man : Nat) (exp : Int) (sticky : Bool) (free : Word) :
    isFiniteWord ((roundPack neg man exp sticky).pattern free) = true := (roundPack_pattern neg man exp sticky free).1

theorem f64Binary_isFinite (op : NumOp) {r : Unpacked → Unpacked → Rounded}
    (hr : ∀ u v free, isFiniteWord ((r u v).pattern free) = true) (a b : Binary64) :
    isFiniteWord (f64Binary op r a b).bits = true := by
  unfold f64Binary; split
  · exact hr _ _ _
  · exact asNumber_isFinite _

theorem f64Unary_isFinite (free : Word → Word) {r : Unpacked → Rounded}
    (hr : ∀ u free, isFiniteWord ((r u).pattern free) = true) (a : Binary64) :
    isFiniteWord (f64Unary free r a).bits = true := by
  unfold f64Unary; split
  · exact hr _ _
  · exact asNumber_isFinite _

theorem addRounded_isFinite (u v : Unpacked) (free : Word) : isFiniteWord ((addRounded u v).pattern free) = true :=
  roundPack_isFinite _ _ _ _ _

theorem mulRounded_isFinite (u v : Unpacked) (free : Word) : isFiniteWord ((mulRounded u v).pattern free) = true :=
  roundPack_isFinite _ _ _ _ _

theorem divRounded_isFinite (u v : Unpacked) (free : Word) : isFiniteWord ((divRounded u v).pattern free) = true := by
  unfold divRounded; split
  · exact asNumber_isFinite _
  · exact roundPack_isFinite _ _ _ _ _

theorem sqrtRounded_isFinite (u : Unpacked) (free : Word) : isFiniteWord ((sqrtRounded u).pattern free) = true := by
  unfold sqrtRounded; split
  · simp [Rounded.pattern, isFiniteWord, exponentField]
  · split
    · exact asNumber_isFinite _
    · exact roundPack_isFinite _ _ _ _ _

theorem cosRounded_isFinite (u : Unpacked) (free : Word) : isFiniteWord ((cosRounded u).pattern free) = true := by
  unfold cosRounded; split <;> exact roundPack_isFinite _ _ _ _ _

theorem sinRounded_isFinite (u : Unpacked) (free : Word) : isFiniteWord ((sinRounded u).pattern free) = true := by
  unfold sinRounded; split <;> exact roundPack_isFinite _ _ _ _ _

theorem log10Rounded_isFinite (u : Unpacked) (free : Word) : isFiniteWord ((log10Rounded u).pattern free) = true := by
  unfold log10Rounded; split
  · exact asNumber_isFinite _
  · exact roundPack_isFinite _ _ _ _ _

/-- Whatever its operands and the free values are, every operation of the binary64 `NUM` answers a number
(30_encoding.md R84; 41_goertzel.md R126: `SNRDB` is always finite). -/
theorem f64_isFinite (a b : Binary64) (k : Nat) (n : Int) :
    isFiniteWord (f64Add a b).bits = true ∧ isFiniteWord (f64Sub a b).bits = true ∧
    isFiniteWord (f64Mul a b).bits = true ∧ isFiniteWord (f64Div a b).bits = true ∧
    isFiniteWord (f64Cos a).bits = true ∧ isFiniteWord (f64Sin a).bits = true ∧
    isFiniteWord (f64Sqrt a).bits = true ∧ isFiniteWord (f64Log10 a).bits = true ∧
    isFiniteWord (f64Pow a k).bits = true ∧ isFiniteWord (f64OfInt n).bits = true :=
  ⟨f64Binary_isFinite _ addRounded_isFinite _ _, f64Binary_isFinite _ (fun _ _ => addRounded_isFinite _ _) _ _,
    f64Binary_isFinite _ mulRounded_isFinite _ _, f64Binary_isFinite _ divRounded_isFinite _ _,
    f64Unary_isFinite _ cosRounded_isFinite _, f64Unary_isFinite _ sinRounded_isFinite _,
    f64Unary_isFinite _ sqrtRounded_isFinite _, f64Unary_isFinite _ log10Rounded_isFinite _,
    f64Unary_isFinite _ (fun _ => roundPack_isFinite _ _ _ _) _, roundPack_isFinite _ _ _ _ _⟩

/-! ## Products and absolute values -/

/-- A product keeps its sign, and is at least as large as every number up to `2 ^ 1023` that the exact product is at least
as large as: in the range of binary64 and beyond it. -/
theorem f64Mul_value {a b : Binary64} (ha : isFiniteWord a.bits = true) (hb : isFiniteWord b.bits = true) :
    ∃ x : ℝ, 0 ≤ x ∧ (realOfBits a.bits = 0 → x = 0) ∧
      realOfBits (f64Mul a b).bits = (if (unpack a.bits).neg != (unpack b.bits).neg then -1 else 1) * x ∧
      ∀ w : Word, isFiniteWord w = true → |realOfBits w| ≤ |realOfBits a.bits * realOfBits b.bits| →
        |realOfBits w| ≤ 2 ^ (1023 : ℤ) → |realOfBits w| ≤ x := by
  have hm : f64Mul a b = ⟨(mulRounded (unpack a.bits) (unpack b.bits)).pattern (Config.freeNumber .mul a.bits b.bits)⟩ := by
    simp only [f64Mul, f64Binary, ha, hb, Bool.and_self]
  have habs : |realOfBits a.bits * realOfBits b.bits| =
      ((mulExact (unpack a.bits) (unpack b.bits)).man : ℝ) * 2 ^ (mulExact (unpack a.bits) (unpack b.bits)).exp := by
    rw [abs_mul, abs_realOfBits, abs_realOfBits]
    simp only [mulExact, zpow_add₀ (two_ne_zero (α := ℝ))]
    push_cast; ring
  obtain ⟨x, h0, hz, hx⟩ := (roundPack_pattern _ _ _ _ _).2
  rw [hm, habs]
  refine ⟨x, h0, fun ha0 => hz ?_, hx⟩
  have h := abs_realOfBits a.bits
  rw [ha0, abs_zero, eq_comm, mul_eq_zero, or_iff_left (by positivity), Nat.cast_eq_zero] at h
  simp only [mulExact, h, Nat.zero_mul]

/-- The number 0 less a number is its opposite, exactly. -/
theorem f64Sub_zero {v : Binary64} (hv : isFiniteWord v.bits = true) :
    realOfBits (f64Sub ⟨0⟩ v).bits = -realOfBits v.bits := by
  obtain ⟨h53, hx, h52, hp, _⟩ := unpack_shape hv
  have h0 : unpack 0 = ⟨false, 0, -1074⟩ := by simp [unpack, exponentField]
  have hsub : f64Sub ⟨0⟩ v = ⟨(addRounded (unpack 0) { unpack v.bits with neg := !(unpack v.bits).neg }).pattern
      (Config.freeNumber .sub 0 v.bits)⟩ := by
    simp only [f64Sub, f64Binary, hv, show isFiniteWord (0 : Word) = true from rfl, Bool.and_self]
  have hval : realOfBits v.bits = (if (unpack v.bits).neg then -1 else 1) * (unpack v.bits).man * 2 ^ (unpack v.bits).exp := rfl
  rw [hsub, h0, hval]
  generalize unpack v.bits = u at *
  obtain ⟨neg, m, x⟩ := u
  simp only at *
  obtain ⟨s, hs⟩ := Int.eq_ofNat_of_zero_le (show 0 ≤ x - -1074 by omega)
  have hmin : min (-1074) x = x - s := by omega
  have hsum : alignedMan ⟨false, 0, -1074⟩ (x - s) + alignedMan ⟨!neg, m, x⟩ (x - s) =
      if neg then ((m * 2 ^ s : Nat) : Int) else -((m * 2 ^ s : Nat) : Int) := by
    simp only [alignedMan, show (x - (x - (s : Int))).toNat = s by omega, Nat.shiftLeft_eq]
    cases neg <;> simp
  simp only [addRounded, hmin, hsum, roundInt]
  by_cases hm : m = 0
  · subst hm
    cases neg <;> simp [roundPack, Rounded.pattern, realOfBits, unpack, exponentField]
  · have hpos : 0 < m * 2 ^ s := Nat.pos_of_ne_zero (Nat.mul_ne_zero hm (by positivity))
    have hn : decide ((if neg then ((m * 2 ^ s : Nat) : Int) else -((m * 2 ^ s : Nat) : Int)) < 0) = !neg := by
      cases neg <;> simp only [Bool.false_eq_true, if_true, if_false, Bool.not_true, Bool.not_false,
        decide_eq_true_iff, decide_eq_false_iff_not] <;> omega
    have habs : (if neg then ((m * 2 ^ s : Nat) : Int) else -((m * 2 ^ s : Nat) : Int)).natAbs = m * 2 ^ s := by
      cases neg <;> simp only [Bool.false_eq_true, if_true, if_false] <;> omega
    rw [hn, habs, roundPack_exact (!neg) s hm h53 hx h52 hp, Rounded.pattern, (realOfBits_ofNat (!neg) h53.le hx h52 hp).2]
    cases neg <;> simp

/-- The absolute value of a number. -/
theorem absNum_value {v : Binary64} (hv : isFiniteWord v.bits = true) :
    isFiniteWord (absNum binary64Numerics v).bits = true ∧
      realOfBits (absNum binary64Numerics v).bits = |realOfBits v.bits| := by
  have h0 : binary64Numerics.ofInt 0 = ⟨0⟩ := rfl
  have hz : realOfBits 0 = 0 := by simp [realOfBits, unpack, exponentField]
  have hlt := f64Lt_iff (a := v) (b := ⟨0⟩) hv rfl
  rw [hz] at hlt
  unfold absNum
  rw [h0]
  by_cases h : realOfBits v.bits < 0
  · rw [if_pos (show binary64Numerics.lt v ⟨0⟩ = true from hlt.2 h)]
    exact ⟨(f64_isFinite ⟨0⟩ v 0 0).2.1, (f64Sub_zero hv).trans (abs_of_neg h).symm⟩
  · rw [if_neg (show ¬ binary64Numerics.lt v ⟨0⟩ = true from fun hc => h (hlt.1 hc))]
    exact ⟨hv, (abs_of_nonneg (not_lt.1 h)).symm⟩

/-! ## The peak test (43_synchronizer.md R165, R166) -/

/-- A history of which no sample qualifies has no peak, over any `NUM`. -/
theorem peaksFrom_eq_zero {T : Type} {num : Numerics T} {negative : Bool} {level : T} :
    ∀ {rest : List T} {prev : T} {dir : Slope}, (∀ v ∈ prev :: rest, qualifies num negative level v = false) →
      peaksFrom num negative level prev dir rest = 0
  | [], _, _, _ => rfl
  | h :: rest, prev, dir, hq => by
    have hrest := fun d => peaksFrom_eq_zero (dir := d) fun v hv => hq v (List.mem_cons_of_mem _ hv)
    simp [peaksFrom, hrest, hq prev]

/-- The running maximum of numbers is a number, not below the one it starts from nor below any absolute value it meets. -/
theorem maximumFrom_value {vs : List Binary64} (hv : ∀ v ∈ vs, isFiniteWord v.bits = true) :
    ∀ (j : Nat) (best : Binary64 × Nat), isFiniteWord best.1.bits = true →
      isFiniteWord (maximumFrom binary64Numerics vs j best).1.bits = true ∧
      realOfBits best.1.bits ≤ realOfBits (maximumFrom binary64Numerics vs j best).1.bits ∧
      (∀ v ∈ vs, |realOfBits v.bits| ≤ realOfBits (maximumFrom binary64Numerics vs j best).1.bits) ∧
      ((maximumFrom binary64Numerics vs j best).1 = best.1 ∨
        ∃ v ∈ vs, (maximumFrom binary64Numerics vs j best).1 = absNum binary64Numerics v) := by
  induction vs with
  | nil => intro j best hb; simp [maximumFrom, hb]
  | cons v vs ih =>
    intro j best hb
    obtain ⟨hf, habs⟩ := absNum_value (hv v (List.mem_cons_self ..))
    have ih := ih fun w hw => hv w (List.mem_cons_of_mem _ hw)
    have hlt : binary64Numerics.lt best.1 (absNum binary64Numerics v) = true ↔
        realOfBits best.1.bits < |realOfBits v.bits| := by rw [← habs]; exact f64Lt_iff hb hf
    simp only [maximumFrom, List.forall_mem_cons, List.exists_mem_cons_iff]
    by_cases h : realOfBits best.1.bits < |realOfBits v.bits|
    · rw [if_pos (hlt.2 h)]
      obtain ⟨h1, h2, h3, h4⟩ := ih (j + 1) (absNum binary64Numerics v, j) hf
      rw [habs] at h2
      exact ⟨h1, h.le.trans h2, ⟨h2, h3⟩, h4.imp_right .inr |>.elim (fun e => .inr (.inl e)) .inr⟩
    · rw [if_neg (fun hc => h (hlt.1 hc))]
      obtain ⟨h1, h2, h3, h4⟩ := ih (j + 1) best hb
      exact ⟨h1, h2, ⟨(not_lt.1 h).trans h2, h3⟩, h4.imp_right .inr⟩

/-- The maximum of a history of numbers is the absolute value of one of them, and no other is larger. -/
theorem historyMaximum_value {h : List Binary64} (hv : ∀ v ∈ h, isFiniteWord v.bits = true) (hne : h ≠ []) :
    isFiniteWord (historyMaximum binary64Numerics h).1.bits = true ∧
    (∀ v ∈ h, |realOfBits v.bits| ≤ realOfBits (historyMaximum binary64Numerics h).1.bits) ∧
    ∃ v ∈ h, realOfBits (historyMaximum binary64Numerics h).1.bits = |realOfBits v.bits| := by
  obtain ⟨v, vs, rfl⟩ := List.exists_cons_of_ne_nil hne
  obtain ⟨hf, habs⟩ := absNum_value (hv v (List.mem_cons_self ..))
  have hvs := fun w hw => hv w (List.mem_cons_of_mem v hw)
  obtain ⟨h1, h2, h3, h4⟩ := maximumFrom_value hvs 1 (absNum binary64Numerics v, 0) hf
  rw [habs] at h2
  refine ⟨h1, List.forall_mem_cons.2 ⟨h2, h3⟩, ?_⟩
  rcases h4 with h4 | ⟨w, hw, h4⟩
  · exact ⟨v, List.mem_cons_self .., by rw [historyMaximum, h4, habs]⟩
  · exact ⟨w, List.mem_cons_of_mem _ hw, by rw [historyMaximum, h4, (absNum_value (hvs w hw)).2]⟩

/-! ## The size of a reading (41_goertzel.md R126) -/

/-- The terms of the series do not grow. -/
theorem atanhSeries_le {z2 : Nat} (hz : z2 ≤ 2 ^ 320) :
    ∀ (fuel k power sum : Nat), atanhSeries z2 fuel k power sum ≤ sum + fuel * power
  | 0, _, _, _ => by simp [atanhSeries]
  | fuel + 1, k, power, sum => by
    have h1 : (power * z2) >>> 320 ≤ power := by
      rw [Nat.shiftRight_eq_div_pow]
      exact Nat.div_le_of_le_mul (by rw [Nat.mul_comm (2 ^ 320)]; exact Nat.mul_le_mul_left _ hz)
    have h2 := atanhSeries_le hz fuel (k + 2) ((power * z2) >>> 320) (sum + power / k)
    have h3 : fuel * ((power * z2) >>> 320) ≤ fuel * power := Nat.mul_le_mul_left _ h1
    have h4 : power / k ≤ power := Nat.div_le_self _ _
    rw [atanhSeries, Nat.succ_mul]; omega

theorem lnFix_le (y : Nat) : lnFix y ≤ 2 ^ 328 := by
  have hz : ((y - 2 ^ 320) <<< 320) / (y + 2 ^ 320) ≤ 2 ^ 320 := by
    rw [Nat.shiftLeft_eq]
    exact Nat.div_le_of_le_mul (Nat.mul_le_mul_right _ (by omega))
  have hz2 : (((y - 2 ^ 320) <<< 320) / (y + 2 ^ 320) * (((y - 2 ^ 320) <<< 320) / (y + 2 ^ 320))) >>> 320 ≤ 2 ^ 320 := by
    rw [Nat.shiftRight_eq_div_pow]
    exact Nat.div_le_of_le_mul (Nat.mul_le_mul hz hz)
  have h := atanhSeries_le hz2 104 1 (((y - 2 ^ 320) <<< 320) / (y + 2 ^ 320)) 0
  have h2 : 104 * (((y - 2 ^ 320) <<< 320) / (y + 2 ^ 320)) ≤ 104 * 2 ^ 320 := Nat.mul_le_mul_left _ hz
  have h3 : 2 * (104 * 2 ^ 320) ≤ 2 ^ 328 := by
    rw [show 328 = 8 + 320 from rfl, Nat.pow_add, ← Nat.mul_assoc]; exact Nat.mul_le_mul_right _ (by decide)
  rw [Nat.zero_add] at h
  exact (Nat.mul_le_mul_left 2 (h.trans h2)).trans h3

theorem ln2Fix_le : ln2Fix ≤ 2 ^ 320 := by decide +kernel

theorem le_ln10Fix : 2 ^ 320 ≤ ln10Fix := by decide +kernel

theorem lnSum_le : 2 ^ 328 + 2 ^ 11 * 2 ^ 320 ≤ 2 ^ 332 := by decide +kernel

/-- The natural logarithm of a number of binary64, scaled. -/
theorem ln_le {L : Nat} {x : Int} (hL : L ≤ 2 ^ 328) (hx : x.natAbs ≤ 2 ^ 11) :
    ((L : Int) + x * (ln2Fix : Int)).natAbs ≤ 2 ^ 332 := by
  have e1 : ((L : Int) + x * (ln2Fix : Int)).natAbs ≤ L + x.natAbs * ln2Fix := by
    refine (Int.natAbs_add_le _ _).trans (le_of_eq ?_)
    rw [Int.natAbs_mul, Int.natAbs_natCast, Int.natAbs_natCast]
  exact e1.trans ((Nat.add_le_add hL (Nat.mul_le_mul hx ln2Fix_le)).trans lnSum_le)

/-- The decimal logarithm, scaled, from the natural one. -/
theorem log10_lt {n : Nat} (hn : n ≤ 2 ^ 332) : (n <<< 320) / ln10Fix < 2 ^ 333 := by
  refine (Nat.div_le_of_le_mul ?_ : _ ≤ 2 ^ 332).trans_lt (Nat.pow_lt_pow_right (by decide) (by decide))
  rw [Nat.shiftLeft_eq, Nat.mul_comm]; exact Nat.mul_le_mul le_ln10Fix hn

/-- The decimal logarithm of a positive number of binary64 is small. -/
theorem log10Rounded_small {w : Word} (hw : isFiniteWord w = true) (hm : (unpack w).man ≠ 0)
    (hn : (unpack w).neg = false) (free : Word) :
    |realOfBits ((log10Rounded (unpack w)).pattern free)| ≤ 2 ^ (101 : ℤ) := by
  obtain ⟨am, ae, b52, bp, -⟩ := unpack_shape hw
  generalize unpack w = u at *
  have bexp : u.exp ≤ 971 := by
    unfold packGrid at bp; rw [Nat.shiftLeft_eq] at bp; split at bp <;> omega
  have hlen : Nat.log2 u.man < 53 := (Nat.log2_lt hm).2 am
  simp only [log10Rounded, hm, hn, or_self, if_false, Bool.false_eq_true]
  have hq := log10_lt (ln_le (x := u.exp + Nat.log2 u.man) (lnFix_le ((u.man <<< 320) >>> Nat.log2 u.man)) (by omega))
  generalize (lnFix ((u.man <<< 320) >>> Nat.log2 u.man) : Int) + (u.exp + Nat.log2 u.man) * (ln2Fix : Int) = ln at *
  generalize hqq : ln.natAbs <<< 320 / ln10Fix = q at *
  refine roundPack_le _ (k := 100) ?_ (by norm_num) (by norm_num) _ _
  by_cases h0 : q = 0
  · rw [h0]; simp [Nat.log2]
  · have := (Nat.log2_lt h0).2 hq
    omega

end Sys2Proof.Machine
end

