-- ==== Sys2Proof/Laws/Safety.lean ====
section
/-!
SUPPORT. What the words of the claims say: the step dispatch, the fires of an event record.
-/

namespace Sys2Proof.Machine

/-- The step relation of the claims is the dispatch of the machine (42_sample_buffer.md R146). -/
theorem stepRun_iff {s t : State} {r : StepResult} : StepRun s r t ↔ internalStep s = .ok (r, t) := by
  by_cases h : s.trig < 0
  · simp only [internalStep, searching, h, decide_true, if_true]
    exact ⟨fun
      | .searching _ hs => hs
      | .synchronized h0 _ => absurd h (by omega), .searching h⟩
  · simp only [internalStep, searching, h, decide_false, Bool.false_eq_true, if_false]
    exact ⟨fun
      | .searching h0 _ => absurd h0 h
      | .synchronized _ hs => hs, .synchronized (by omega)⟩

/-- Whether the last event of a record is a PITCH; `afterPitch` if there is none. -/
def endsInPitch (afterPitch : Bool) (l : List Event) : Bool := (l.getLast?.map Event.isPitch).getD afterPitch

@[simp] theorem endsInPitch_append (b : Bool) (l : List Event) (e : Event) : endsInPitch b (l ++ [e]) = e.isPitch := by
  simp [endsInPitch]

/-- A further event is a fire iff it is a PITCH that follows no PITCH. -/
theorem countFires_append (e : Event) : ∀ (l : List Event) (b : Bool),
    countFires b (l ++ [e]) = countFires b l + (if e.isPitch && !endsInPitch b l then 1 else 0)
  | [], b => by simp [countFires, endsInPitch]
  | x :: l, b => by
    have h : endsInPitch b (x :: l) = endsInPitch x.isPitch l := by
      cases l with
      | nil => rfl
      | cons y l => simp [endsInPitch, List.getLast?_cons_cons]; cases h : (y :: l).getLast? <;> simp_all
    rw [List.cons_append, countFires, countFires, countFires_append e l x.isPitch, h]
    omega

end Sys2Proof.Machine
end

