-- ==== Sys2Proof/Tests/Slice0.lean ====
section
/-!
SUPPORT. The model's own tests, one step each, and the witnesses of the statements' hypotheses.

The expected values are those of spec/95_test_vectors.md, by the vector's or program's number, or are written out by hand
from the rule named.
-/

namespace Sys2Proof.Tests

-- One theorem at a time: many concurrent kernel evaluations would each hold a thread's stack.
set_option Elab.async false

open Sys2Proof Sys2Proof.Machine

/-! ## Small states -/

/-- `CFG_S` of 95_test_vectors.md. -/
def smallConfig : Config Binary64 where
  fs := ⟨0x4010000000000000⟩       -- 4
  np := 1
  tw := ⟨0x3FF0000000000000⟩       -- 1
  f0 := ⟨0x3FB999999999999A⟩       -- 0.1
  spacing := .linear
  step := ⟨0x3FA999999999999A⟩     -- 0.05
  ratio := ⟨0x3FE999999999999A⟩    -- 0.8
  tsnr := ⟨0x4008000000000000⟩     -- 3

/-- The platform of `CFG_S` with a given `HAM`. -/
def smallPlatform (h : Ham) : Platform := { resetPlatform with cfg := smallConfig, ham := h }

def smallState : State := State.powerOn (smallPlatform .reference)

/-- `CFG_S`, synchronized at rest: the validation word begins at sample 12, of which nothing has arrived. -/
def smallSynchronized : State :=
  { smallState with pushed := 12, processed := 12, trig := 8, evq := [.pitch 8] }

/-- A `HAM` whose decoder answers `a` for every code. -/
def constantHam (a : Byte × HamOutcome) : Ham := .tables (Vector.replicate 256 0) (Vector.replicate 4096 a)

/-- `CFG_S`, synchronized, `cursor` words decoded, the next word's window being the last four samples. -/
def wordArrived (cursor : Nat) (a : Byte × HamOutcome) : State :=
  { State.powerOn (smallPlatform (constantHam a)) with
    pushed := 16 + 4 * cursor, processed := 12 + 4 * cursor, trig := 8, cursor := cursor }

/-- The configuration of vector T-4, 44100 and 0.0872, which is not admitted. -/
def badState : State :=
  { State.reset with
    plat := { resetPlatform with
      cfg := { resetPlatform.cfg with fs := ⟨0x40E5888000000000⟩, tw := ⟨0x3FB652BD3C361134⟩ } } }

/-- The state after the step on `f`, and the response frame the step adds. -/
def after (f : Frame) (s : State) : State :=
  match step { s with cmdPort := [f] } with
  | .next t => t
  | .fault _ => s
  | .refused _ => s

def answer (f : Frame) (s : State) : Frame := (after f s).respPort.getLastD []

/-- The history of small integers. -/
def historyOf (h : List Int) : List Binary64 := h.map f64OfInt

/-- `CFG_A` with `PROCESSED = 448` and a history (95_test_vectors.md 2.4). -/
def evaluationState (bias : Nat) (h : List Int) : State :=
  { State.powerOn { resetPlatform with syncBias := bias } with
    pushed := 448, processed := 448, hist := historyOf h }

/-! ## Decoding: words written out bit by bit from 30_encoding.md R81 -/

/-- R81, R236: OPC 0000_0000, the rest zero. -/
theorem test_decode_nop :
    decode [0b0000000000000000000000000000000000000000000000000000000000000000#64] = .ok (.nop ⟨0, 0, 0, []⟩) := by decide
/-- R81: OPC 0000_0001, RSV 0, K 0, N 2, two samples. -/
theorem test_decode_push :
    decode [0b0000000100000000000000000000000000000000000000000000000000000010#64, 1, 2] =
      .ok (.push ⟨0, 0, 2, [1, 2]⟩) := by decide
/-- R81: OPC 0000_0010, RSV 1000_0001. -/
theorem test_decode_query :
    decode [0b0000001010000001000000000000000000000000000000000000000000000000#64] = .ok (.rdtrig ⟨0x81, 0, 0, []⟩) := by
  decide
/-- R81: OPC 0000_0111, N 3. -/
theorem test_decode_encode :
    decode [0b0000011100000000000000000000000000000000000000000000000000000011#64, 7, 8] =
      .ok (.encode ⟨0, 0, 3, [7, 8]⟩) := by decide
/-- R81: OPC 0000_1000. -/
theorem test_decode_reset :
    decode [0b0000100000000000000000000000000000000000000000000000000000000000#64] = .ok (.reset ⟨0, 0, 0, []⟩) := by decide
/-- R81: OPC 0000_1001, K 0000_0000_0000_0011, N 4. -/
theorem test_decode_goertzel :
    decode [0b0000100100000000000000000000001100000000000000000000000000000100#64] = .ok (.goertzel ⟨0, 3, 4, []⟩) := by
  decide
/-- Q-9: no command has opcode 0xFF. -/
theorem test_decode_illegal : decode [0xFF00000000000000] = .error (.illegalOpcode 0xFF) := by decide

/-! ## Well-formedness: an ill-formed term for each check -/

theorem test_wellFormed_nop : (Instr.nop ⟨0, 0, 0, []⟩).wellFormed = true := by decide
theorem test_illFormed_rsv : (Instr.nop ⟨1, 0, 0, []⟩).wellFormed = false := by decide
theorem test_illFormed_k : (Instr.push ⟨0, 1, 0, []⟩).wellFormed = false := by decide
theorem test_illFormed_n : (Instr.rdtrig ⟨0, 0, 1, []⟩).wellFormed = false := by decide
theorem test_illFormed_bare_data : (Instr.reset ⟨0, 0, 0, [0]⟩).wellFormed = false := by decide
theorem test_wellFormed_push : (Instr.push ⟨0, 0, 1, [0x3FF0000000000000]⟩).wellFormed = true := by decide
theorem test_illFormed_push_count : (Instr.push ⟨0, 0, 2, [0x3FF0000000000000]⟩).wellFormed = false := by decide
theorem test_illFormed_push_nan : (Instr.push ⟨0, 0, 1, [0x7FF8000000000000]⟩).wellFormed = false := by decide
theorem test_wellFormed_encode :
    (Instr.encode ⟨0, 0, 2, [0x000000000000EF12, 0x3FF0000000000000]⟩).wellFormed = true := by decide
theorem test_illFormed_encode_count : (Instr.encode ⟨0, 0, 2, [0x000000000000EF12]⟩).wellFormed = false := by decide
theorem test_illFormed_encode_padding :
    (Instr.encode ⟨0, 0, 2, [0x0000000000FFEF12, 0x3FF0000000000000]⟩).wellFormed = false := by decide
theorem test_illFormed_encode_peak :
    (Instr.encode ⟨0, 0, 2, [0x000000000000EF12, 0x7FF0000000000000]⟩).wellFormed = false := by decide
theorem test_wellFormed_goertzel : (Instr.goertzel ⟨0, 1, 1, [0, 0]⟩).wellFormed = true := by decide
theorem test_illFormed_goertzel_empty : (Instr.goertzel ⟨0, 1, 0, [0]⟩).wellFormed = false := by decide
theorem test_illFormed_goertzel_count : (Instr.goertzel ⟨0, 1, 1, [0]⟩).wellFormed = false := by decide
theorem test_illFormed_goertzel_inf : (Instr.goertzel ⟨0, 1, 1, [0, 0xFFF0000000000000]⟩).wellFormed = false := by decide

/-! ## Responses and refusals (95_test_vectors.md 2.7) -/

theorem test_Q1_rdtrig : answer [0x0200000000000000] State.reset = [0x0000000000000001, 0xFFFFFFFFFFFFFFFF] := by
  decide +kernel
theorem test_Q2_rdwlen : answer [0x0300000000000000] State.reset = [0x0000000000000001, 0x0000000000000080] := by
  decide +kernel
theorem test_Q3_rddlen : answer [0x0400000000000000] State.reset = [0x0000000000000001, 0x0000000000000080] := by
  decide +kernel
theorem test_Q4_rdcerr : answer [0x0500000000000000] State.reset = [0x0000000000000001, 0x0000000000000000] := by
  decide +kernel
theorem test_Q5_rdmaxc : answer [0x0600000000000000] State.reset = [0x0000000000000001, 0x0000000000000020] := by
  decide +kernel
/-- B-8: synchronized and nothing pending, the bound is `W`. -/
theorem test_B8_rdmaxc :
    answer [0x0600000000000000] { State.reset with pushed := 448, processed := 448, trig := 352 } =
      [0x0000000000000001, 0x0000000000000080] := by decide +kernel
theorem test_Q6_nop : answer [0x0000000000000000] State.reset = [0x0000000000000000] := by decide +kernel
theorem test_Q7_reset :
    after [0x0800000000000000] { smallSynchronized with cerr := 1, cursor := 1 } =
      { smallState with respPort := [[0x0000000000000000]] } := by decide +kernel
theorem test_Q8_Q10_illegal :
    answer [0x0A00000000000000] State.reset = [0x0100000000000000] ∧ answer [] State.reset = [0x0100000000000000] := by
  decide +kernel
theorem test_Q11_Q12_Q13_reserved :
    answer [0x0201000000000000] State.reset = [0x0200000000000000] ∧
    answer [0x0200000000000001] State.reset = [0x0200000000000000] ∧
    answer [0x0100000100000000] State.reset = [0x0200000000000000] := by decide +kernel
theorem test_Q14_Q15_Q18_Q20_count :
    answer [0x0200000000000000, 0x0000000000000000] State.reset = [0x0400000000000000] ∧
    answer [0x0100000000000002, 0x3FF0000000000000] State.reset = [0x0400000000000000] ∧
    answer [0x0700000000000003, 0x0000000000EFEF12, 0x3FF0000000000000] State.reset = [0x0400000000000000] ∧
    answer [0x0900000100000000, 0x409F400000000000] State.reset = [0x0400000000000000] := by decide +kernel
theorem test_Q16_Q17_value :
    answer [0x0100000000000001, 0x7FF8000000000000] State.reset = [0x0500000000000000] ∧
    answer [0x0100000000000001, 0xFFF0000000000000] State.reset = [0x0500000000000000] := by decide +kernel
theorem test_Q19_padding :
    answer [0x0700000000000002, 0x0000000000FFEF12, 0x3FF0000000000000] State.reset = [0x0200000000000000] := by
  decide +kernel
theorem test_Q21_config :
    answer [0x0600000000000000] badState = [0x0300000000000000] ∧
    answer [0x0800000000000000] badState = [0x0000000000000000] := by decide +kernel
theorem test_Q22_negative_zero :
    (after [0x0100000000000001, 0x8000000000000000] State.reset).buf.getLastD ⟨1⟩ = ⟨0⟩ := by decide +kernel

/-! ## Geometry and tones (2.1) -/

theorem test_T1_geometry :
    (resetPlatform.wordLength, resetPlatform.windowOffset, resetPlatform.bufferLength, resetPlatform.historyLength,
      resetPlatform.frameLength) = (128, 32, 384, 12, 512) := by decide +kernel
theorem test_T2_tones :
    lowTones binary64Numerics resetPlatform.cfg =
      historyOf [1000, 1500, 2000, 2500, 3000, 3500, 4000, 4500, 5000, 5500, 6000, 6500] ∧
    upTones binary64Numerics resetPlatform.cfg =
      historyOf [1250, 1750, 2250, 2750, 3250, 3750, 4250, 4750, 5250, 5750, 6250, 6750] := by decide +kernel
theorem test_T4_T5_T8_not_admitted :
    badState.plat.admitted = false ∧
    admitted binary64Numerics
      { resetPlatform.cfg with fs := ⟨0x40BF400000000000⟩, tw := ⟨0x3F3A36E2EB1C432D⟩ } = false ∧
    admitted binary64Numerics { resetPlatform.cfg with np := 0 } = false := by decide +kernel

/-- R29, R106: a field is a number of `NUM` as it stands, however small: tone 0 of a progression from 2 to the power −1030. -/
theorem test_R106_first_frequency :
    tone binary64Numerics { resetPlatform.cfg with f0 := ⟨0x0000100000000000⟩ } 0 = ⟨0x0000100000000000⟩ := by
  decide +kernel

/-! ## The estimator (2.2) -/

/-- G-14, first power, in the bit pattern that program P2 gives. -/
theorem test_G14_goertzel :
    answer [0x0900000100000004, 0x3FF0000000000000, 0x4000000000000000, 0x4008000000000000, 0x4010000000000000,
      0x409F400000000000] State.reset = [0x0000000000000001, 0x400484CD2CA339BC] := by decide +kernel
/-- R-1 to R-3: 0 dB, −120 dB, +120 dB. -/
theorem test_R1_R2_R3_snrdb :
    snrdb binary64Numerics ⟨0⟩ ⟨0⟩ = ⟨0⟩ ∧
    snrdb binary64Numerics ⟨0⟩ ⟨0x3FF0000000000000⟩ = f64OfInt (-120) ∧
    snrdb binary64Numerics ⟨0x3FF0000000000000⟩ ⟨0⟩ = f64OfInt 120 := by decide +kernel

/-- R84: to nearest, ties to even (2 to the 53 plus 1, 2 and 3), and a cut remainder breaks the tie. -/
theorem test_R84_rounding :
    roundPack false (2 ^ 53 + 1) 0 false = .nearest 0x4340000000000000 ∧
    roundPack false (2 ^ 53 + 2) 0 false = .nearest 0x4340000000000001 ∧
    roundPack true (2 ^ 53 + 3) 0 false = .nearest 0xC340000000000002 ∧
    roundPack false (2 ^ 53 + 1) 0 true = .nearest 0x4340000000000001 ∧
    roundPack false (2 ^ 1024 - 2 ^ 970) 0 false = .beyond false := by decide +kernel

/-! ## PUSH (2.3) -/

theorem test_B1_push :
    let t := after [0x0100000000000001, 0x3FF0000000000000] smallState
    (t.buf, t.pushed, t.processed, t.evq) = (List.replicate 11 ⟨0⟩ ++ [⟨0x3FF0000000000000⟩], 1, 1, []) := by
  decide +kernel
theorem test_B9_limit :
    answer (0x010000000000000A :: List.replicate 10 0) { State.reset with pushed := 2 ^ 63 - 10, processed := 2 ^ 63 - 10 } =
      [0x0600000000000000] ∧
    answer (0x0100000000000009 :: List.replicate 9 0) { State.reset with pushed := 2 ^ 63 - 10, processed := 2 ^ 63 - 10 } =
      [0x0000000000000000] := by decide +kernel
/-- B-5. -/
theorem test_B5_memWrite :
    memWrite 12 (historyOf [0, 0, 0, 0, 0, 0, 0, 0, 1, 2, 3, 4])
      (historyOf [5, 6, 7, 8, 9, 10, 11, 12, 13, 14, 15, 16, 17, 18, 19]) =
    historyOf [8, 9, 10, 11, 12, 13, 14, 15, 16, 17, 18, 19] := by decide +kernel

/-! ## The trigger evaluation (2.4) -/

theorem test_V4_V13_fire :
    (evaluateTrigger (evaluationState 0 [0, 0, 0, 0, 0, 0, 1, 3, 10, 25, 10, 3])).2.trig = 352 ∧
    (evaluateTrigger (evaluationState 96 [0, 0, 0, 0, 0, 0, 1, 3, 10, 25, 10, 3])).2.trig = 256 := by decide +kernel
theorem test_V8_V9_V10_V12_fire :
    (evaluateTrigger (evaluationState 0 [0, 0, 0, 0, -1, -3, -10, -25, -10, -3, 0, 0])).2.trig = 288 ∧
    (evaluateTrigger (evaluationState 0 [25, 25, 25, 25, 21, 25, 25, 25, 25, 25, 25, 25])).2.trig = 64 ∧
    (evaluateTrigger (evaluationState 0 [0, 0, 0, 0, 0, 10, 25, 25, 25, 10, 0, 0])).2.trig = 256 ∧
    (evaluateTrigger (evaluationState 0 [0, 0, -24, 0, 0, 0, 1, 3, 10, 25, 10, 3])).2.trig = 352 := by decide +kernel
theorem test_V2_V3_V5_V14_idle :
    (evaluateTrigger (evaluationState 0 [0, 0, 0, 0, 0, 0, 0, 0, 1, 3, 10, 25])).1 = .idle ∧
    (evaluateTrigger (evaluationState 0 [0, 0, 0, 0, 0, 0, 0, 1, 3, 10, 25, 10])).1 = .idle ∧
    (evaluateTrigger (evaluationState 0 [0, 0, 5, 24, 6, 0, 1, 3, 10, 25, 10, 3])).1 = .idle ∧
    (evaluateTrigger (evaluationState 96 [25, 25, 25, 25, 21, 25, 25, 25, 25, 25, 25, 25])).1 = .idle := by
  decide +kernel

/-- R171 (f): the reading 25 does not exceed `25 × 2 ^ 1023`, which is beyond the range of binary64. -/
theorem test_R171_hugeRatio_never_qualifies (negative : Bool) :
    qualifies binary64Numerics negative (f64Mul ⟨0x4039000000000000⟩ ⟨0x7FE0000000000000⟩) ⟨0x4039000000000000⟩ = false := by
  have hf : isFiniteWord (0x4039000000000000 : Word) = true := rfl
  obtain ⟨x, _, _, hv, hx⟩ := f64Mul_value (a := ⟨0x4039000000000000⟩) (b := ⟨0x7FE0000000000000⟩) hf rfl
  have hu : unpack 0x4039000000000000 = ⟨false, 0x19000000000000, -48⟩ := by decide
  have hr : unpack 0x7FE0000000000000 = ⟨false, 2 ^ 52, 971⟩ := by decide
  have h25 : realOfBits 0x4039000000000000 = 25 := by rw [realOfBits, hu]; norm_num
  have h1 : 1 ≤ |realOfBits 0x7FE0000000000000| := by
    rw [abs_realOfBits, hr]; exact one_le_mul_of_one_le_of_one_le (by norm_num) (one_le_zpow₀ (by norm_num) (by norm_num))
  have hle := hx _ hf (by rw [abs_mul]; exact le_mul_of_one_le_right (abs_nonneg _) h1)
    (by rw [h25]; exact le_trans (by norm_num) (zpow_le_zpow_right₀ (m := 5) (by norm_num) (by norm_num)))
  have habs := absNum_value (v := ⟨0x4039000000000000⟩) hf
  have hlt : binary64Numerics.lt (f64Mul ⟨0x4039000000000000⟩ ⟨0x7FE0000000000000⟩)
      (absNum binary64Numerics ⟨0x4039000000000000⟩) = false := by
    refine Bool.eq_false_iff.2 fun h => ?_
    have h := (f64Lt_iff (f64_isFinite _ _ 0 0).2.2.1 habs.1).1 h
    rw [habs.2, hv, hu, hr] at h
    simp only [bne_self_eq_false, Bool.false_eq_true, if_false, one_mul] at h
    exact absurd hle (not_le.2 h)
  simp only [qualifies, hlt, Bool.and_false]

/-! ## The decoder and the Hamming port (2.5) -/

theorem test_H1_H2_encode :
    [0x00, 0x01, 0x12, 0x57, 0xA5, 0xEF, 0xFF].map (henc .reference) =
      [0x000, 0x007, 0x198, 0x536, 0xA27, 0xEF6, 0xF77] := by decide +kernel
theorem test_H3_to_H8_decode :
    [0x536, 0x526, 0x1B8, 0x000, 0xFFF, 0x803, 0x999, 0x003, 0x00C, 0x800].map (hdec .reference) =
      [(0x57, .ok), (0x57, .correctedError), (0x12, .correctedError), (0x00, .ok), (0x7F, .correctedError),
       (0x00, .failCorrection), (0x00, .failCorrection), (0x01, .correctedError), (0x09, .correctedError),
       (0x00, .correctedError)] := by decide +kernel
/-- D-3 (with `PROCESSED` 448). -/
theorem test_D3_missed :
    syncStep { State.reset with pushed := 832, processed := 448, trig := 256 } =
      .ok (.error,
        { State.reset with
          pushed := 832, processed := 832, trig := -1, evq := [.error 448 .missedWindow]
          eventPort := [[0xD000000000000000, 0x00000000000001C0]] }) := by decide +kernel
/-- R201 (a), (b): a silent lane decides 0 for `CFG.TSNR = 3.0` and 1 for 0; P2: the lanes that make 0xEF6. -/
theorem test_decisions :
    decideBit binary64Numerics (f64OfInt 3) ⟨0⟩ ⟨0⟩ = false ∧ decideBit binary64Numerics ⟨0⟩ ⟨0⟩ ⟨0⟩ = true ∧
    assembleCode [false, true, true, false, true, true, true, true, false, true, true, true] = 0xEF6 := by
  decide +kernel
/-- D-8 in the small: the last payload word completes the message (R191). -/
theorem test_D8_complete :
    acceptWord 16 (0xEF, .ok) { smallSynchronized with cursor := 1 } =
      (.complete,
        { smallSynchronized with
          trig := -1, cursor := 2, parsed := [0xEF], evq := [.pitch 8, .message [0xEF] 8]
          eventPort := [[0x8000000000000001, 0x0000000000000008, 0x00000000000000EF]] }) := by decide +kernel

/-! ## The encoder (2.6) -/

/-- E-1: 0, 0.0006117918928693622, 0. -/
theorem test_E1_hann :
    [0, 1, 127].map (fun n => hann binary64Numerics n 128) = [⟨0⟩, ⟨0x3F440C1515FE9600⟩, ⟨0⟩] := by
  decide +kernel
/-- E-3 (with P2): `out[1]` of the chirp under `CFG_A`. -/
theorem test_E3_chirp :
    (burstSample binary64Numerics (f64OfInt 16000) 128 (f64OfInt 6500) (f64OfInt 1) 1).bits = 0x3F364676E27360B1 := by
  decide +kernel
/-! ## The host's forms (30_encoding.md R92) and the table's words (log 18) -/

/-- P1 step 3: `PUSH []` is `0x0100000000000000`. -/
theorem test_R92_push_empty : encode (HostCommand.push []).instr = [0x0100000000000000] := by decide
/-- P2 step 2: `ENCODE [0x12, 0xEF], 1.0`. -/
theorem test_R92_encode :
    encode (HostCommand.encode [0x12, 0xEF] 0x3FF0000000000000).instr =
      [0x0700000000000002, 0x000000000000EF12, 0x3FF0000000000000] := by decide
theorem test_tableWord :
    decodeTableWord 64 0x0600000000000000 = some (.rdmaxc ⟨0, 0, 0, []⟩) ∧
    decodeTableWord 64 0x0100000000000002 = some (.push ⟨0, 0, 2, [0, 0]⟩) := by decide
/-- The step runs the placed word as the first command after reset. -/
theorem test_fetchWord :
    step (State.reset.withFetchWord 64 0x0200000000000000) = exec (.rdtrig ⟨0, 0, 0, []⟩) State.reset := rfl

/-! ## Witnesses: concrete values that meet the hypotheses of each statement, clause by clause -/

theorem test_smallConfig_admitted : smallState.plat.admitted = true := by decide +kernel

/-- `CFG_S` over the reals, for the statements at `realNumerics`. -/
noncomputable def realConfig : Config ℝ where
  fs := 4
  np := 1
  tw := 1
  f0 := 1 / 10
  spacing := .linear
  step := 1 / 20
  ratio := 4 / 5
  tsnr := 3

theorem test_realConfig_wordLength : wordLength realNumerics realConfig = 4 := by
  simp [wordLength, realNumerics, realConfig]

theorem test_realConfig_admitted : admitted realNumerics realConfig = true := by
  simp only [admitted, finitePositive, test_realConfig_wordLength]
  simp [realNumerics, realConfig]

theorem test_resetConfig_admitted : State.reset.plat.admitted = true := by decide +kernel

theorem test_badConfig_not_admitted : badState.plat.admitted = false := by decide +kernel

/-- A state at rest while SYNCHRONIZED. -/
theorem test_witness_restInvariant : RestInvariant smallSynchronized := by
  constructor <;> decide +kernel

/-- A state at rest while SEARCHING. -/
theorem test_witness_restInvariant_searching : RestInvariant { smallState with pushed := 5, processed := 5 } := by
  constructor <;> decide +kernel

theorem test_witness_boundKept : BoundKept smallSynchronized := by
  refine ⟨test_witness_restInvariant, by decide, fun _ => by decide +kernel⟩

/-- One sample. -/
def onePush : Operands := ⟨0, 0, 1, [0x3FF0000000000000]⟩

/-- A PUSH of `n` zeros. -/
def zeroPush (n : Nat) : Operands := pushOperands (List.replicate n 0)

theorem zeroPush_accepted {n : Nat} {s : State} (hn : n < 2 ^ 32) (hc : s.plat.admitted = true)
    (hp : s.pushed + n < 2 ^ 63) : accepted (.push (zeroPush n)) s := by
  have e : (zeroPush n).n.toNat = n := by simp [zeroPush, pushOperands]; omega
  refine ⟨by simp [reservedNonzero, zeroPush, pushOperands], by simp [configRefused, hc], ?_, id, ?_, ?_⟩
  · simp only [countWrong, e]; simp [zeroPush, pushOperands]
  · rintro ⟨w, hw, hn⟩
    obtain ⟨-, rfl⟩ := List.mem_replicate.1 hw
    exact absurd hn (by unfold notANumber; decide)
  · simp only [counterAtLimit, e]; omega

/-- `HeaderFieldsByPosition`: the last opcode of the table and the first beyond it. -/
theorem test_witness_header :
    (0x09FFFFFFFFFFFFFF#64).toNat / 2 ^ 56 ≤ 9 ∧ 10 ≤ (0x0A00000000000000#64).toNat / 2 ^ 56 := by decide

/-- `DecodeAndEncodeAgree`. -/
theorem test_witness_decodes : decode [0x0800000000000000, 5] = .ok (.reset ⟨0, 0, 0, [5]⟩) := by decide

/-- `BytePackingRoundTrip`: the last bit of the ninth byte. -/
theorem test_witness_packing : 8 < (List.replicate 9 (0xFF : Byte)).length ∧ 7 < 8 := by decide

/-- `EventFrameWords`: the largest `CFG.NP`. -/
theorem test_witness_eventFrame : (2 ^ 31 - 1 : Nat) < 2 ^ 31 := by decide

/-- `StepExecutesDecodedCommand`. -/
theorem test_witness_step :
    ∃ s : State, ∃ f rest i, s.cmdPort = f :: rest ∧ decode f = .ok i :=
  ⟨{ State.reset with cmdPort := [[0x0200000000000000], []] }, _, _, _, rfl, rfl⟩

/-- `StepNeedsCommand`. -/
theorem test_witness_no_command : State.reset.cmdPort = [] := rfl

/-- `StatusTable`: a frame that is no command, of either kind. -/
theorem test_witness_illegal :
    ({ State.reset with cmdPort := [[]] } : State).cmdPort = [] :: [] ∧
    ∃ h d, ([0x0A00000000000000, 1] : Frame) = h :: d ∧ 10 ≤ h.toNat / 2 ^ 56 :=
  ⟨rfl, _, _, rfl, by decide⟩

/-- `StatusTable`: `RESERVED_NONZERO`. -/
theorem test_witness_reserved : reservedNonzero (.push ⟨0, 1, 0, []⟩) := by simp [reservedNonzero]

/-- `StatusTable`: `BAD_CONFIG`. -/
theorem test_witness_config : ¬ reservedNonzero (.rdmaxc bareOperands) ∧ configRefused (.rdmaxc bareOperands) badState := by
  exact ⟨by simp [reservedNonzero, bareOperands], test_badConfig_not_admitted⟩

/-- `StatusTable`: `BAD_COUNT`. -/
theorem test_witness_count :
    ¬ reservedNonzero (.goertzel ⟨0, 1, 0, [0]⟩) ∧ ¬ configRefused (.goertzel ⟨0, 1, 0, [0]⟩) State.reset ∧
    countWrong (.goertzel ⟨0, 1, 0, [0]⟩) State.reset :=
  ⟨by simp [reservedNonzero], by simp [configRefused, test_resetConfig_admitted], by simp [countWrong]⟩

/-- `StatusTable`: a nonzero padding byte, the last of the payload's word. -/
theorem test_witness_padding :
    ¬ reservedNonzero (.encode ⟨0, 0, 2, [0x010000000000EF12, 0]⟩) ∧
    ¬ configRefused (.encode ⟨0, 0, 2, [0x010000000000EF12, 0]⟩) State.reset ∧
    ¬ countWrong (.encode ⟨0, 0, 2, [0x010000000000EF12, 0]⟩) State.reset ∧
    paddingNonzero (.encode ⟨0, 0, 2, [0x010000000000EF12, 0]⟩) :=
  ⟨by simp [reservedNonzero], by simp [configRefused, test_resetConfig_admitted],
    by simp [countWrong]; decide, 7, by decide, by decide, by decide⟩

/-- `StatusTable`: `BAD_VALUE`. -/
theorem test_witness_value :
    ¬ reservedNonzero (.push ⟨0, 0, 1, [0x7FF0000000000000]⟩) ∧
    ¬ configRefused (.push ⟨0, 0, 1, [0x7FF0000000000000]⟩) State.reset ∧
    ¬ countWrong (.push ⟨0, 0, 1, [0x7FF0000000000000]⟩) State.reset ∧
    ¬ paddingNonzero (.push ⟨0, 0, 1, [0x7FF0000000000000]⟩) ∧
    valueNotFinite (.push ⟨0, 0, 1, [0x7FF0000000000000]⟩) :=
  ⟨by simp [reservedNonzero], by simp [configRefused, test_resetConfig_admitted], by simp [countWrong], id, _,
    List.mem_singleton.2 rfl, by unfold notANumber; decide⟩

/-- `StatusTable`: `COUNTER_LIMIT`, at the boundary of R143. -/
theorem test_witness_limit :
    ¬ reservedNonzero (.push onePush) ∧ ¬ configRefused (.push onePush) { State.reset with pushed := 2 ^ 63 - 1 } ∧
    ¬ countWrong (.push onePush) { State.reset with pushed := 2 ^ 63 - 1 } ∧ ¬ paddingNonzero (.push onePush) ∧
    ¬ valueNotFinite (.push onePush) ∧ counterAtLimit (.push onePush) { State.reset with pushed := 2 ^ 63 - 1 } :=
  ⟨by simp [reservedNonzero, onePush], by simp [configRefused, test_resetConfig_admitted],
    by simp [countWrong, onePush], id, by simp [valueNotFinite, onePush, notANumber],
    by simp only [counterAtLimit]; decide +kernel⟩

/-- `StatusTable` and the statements about an accepted PUSH: just under the limit of R143. -/
theorem test_witness_accepted_push : accepted (.push (zeroPush 1)) { State.reset with pushed := 2 ^ 63 - 2 } :=
  zeroPush_accepted (by decide) test_resetConfig_admitted (by decide)

/-- `EncodeAnswersWaveform` and `StatusTable`. -/
theorem test_witness_accepted_encode :
    accepted (.encode ⟨0, 0, 2, [0x000000000000EF12, 0x3FF0000000000000]⟩) State.reset := by
  refine ⟨by simp [reservedNonzero], by simp [configRefused, test_resetConfig_admitted],
    by simp [countWrong]; decide, ?_, by simp [valueNotFinite, notANumber], id⟩
  rintro ⟨k, h1, h2, h3⟩
  have : ∀ k : Fin 8, 2 ≤ k.val → byteAt [0x000000000000EF12, 0x3FF0000000000000] k.val = 0 := by decide
  exact h3 (this ⟨k, by simpa using h2⟩ (by simpa using h1))

/-- `WellFormedCommandAccepted`: a command of either kind. -/
theorem test_witness_wellFormed :
    (Instr.push onePush).wellFormed = true ∧ ¬ configRefused (.push onePush) State.reset ∧
    ¬ counterAtLimit (.push onePush) State.reset ∧
    (∀ o, Instr.push onePush = .encode o → o.n.toNat = State.reset.plat.cfg.np) ∧
    (Instr.encode ⟨0, 0, 2, [0x000000000000EF12]⟩).wellFormed = false :=
  ⟨by decide, by simp [configRefused, test_resetConfig_admitted],
    by simp only [counterAtLimit]; decide +kernel, (fun _ h => nomatch h), by decide⟩

/-- `NopOnlyResponds`, `ResetRestoresEngine`: a reserved field, a configuration, a data word to refuse. -/
theorem test_witness_bare_refusals :
    ((⟨1, 0, 0, []⟩ : Operands).rsv ≠ 0) ∧ badState.plat.admitted = false ∧
    State.reset.plat.admitted = true ∧ (⟨0, 0, 0, [0]⟩ : Operands).data ≠ [] :=
  ⟨by decide, test_badConfig_not_admitted, test_resetConfig_admitted, by decide⟩

/-- `ResetStateValues`: a RESET that has an event to forget. -/
theorem test_witness_reset :
    smallSynchronized.plat.admitted = true ∧ smallSynchronized.evq ≠ [] ∧
    ∃ t, exec (.reset bareOperands) smallSynchronized = .next t :=
  ⟨test_smallConfig_admitted, by decide, _,
    complete_pure (cs := resetChecks bareOperands) (s := smallSynchronized)
      (f := fun s => respond [] (if configAdmitted s then resetEngine s else s)) (by decide)⟩

/-- `ReadOnlyCommandsFrame`. -/
theorem test_witness_readOnly : (∀ o, Instr.nop bareOperands ≠ .push o) ∧ ∀ o, Instr.nop bareOperands ≠ .reset o :=
  ⟨fun _ => nofun, fun _ => nofun⟩

/-- `PlatformNeverWritten` and `StepKeepsInvariant`: a step from a state at rest. -/
theorem test_witness_next :
    RestInvariant { smallSynchronized with cmdPort := [[0x0800000000000000]] } ∧
    ∃ t, step { smallSynchronized with cmdPort := [[0x0800000000000000]] } = .next t :=
  ⟨by constructor <;> decide +kernel, _, rfl⟩

/-- `CountersNeverDecrease`. -/
theorem test_witness_counters :
    (∀ o, Instr.rdtrig bareOperands ≠ .reset o) ∧ smallSynchronized.processed ≤ smallSynchronized.pushed ∧
    ∃ t, exec (.rdtrig bareOperands) smallSynchronized = .next t :=
  ⟨fun _ => nofun, by decide, _, complete_pure (cs := bareChecks bareOperands smallSynchronized) (s := smallSynchronized)
    (f := fun s => respond [integerWord s.trig] s) (by decide +kernel)⟩

/-- `BufferHoldsNewestSamples`. -/
theorem test_witness_buffer : smallState.buf.length = smallState.plat.bufferLength := by decide +kernel

/-- `WindowReadDefined`: the whole buffer can be read, one sample before or behind it not. -/
theorem test_witness_window :
    smallSynchronized.buf.length = smallSynchronized.plat.bufferLength ∧
    ((12 : Int) - smallSynchronized.plat.bufferLength ≤ 0 ∧ (0 : Int) + 12 ≤ 12) ∧
    ¬ ((12 : Int) - smallSynchronized.plat.bufferLength ≤ -1 ∧ (-1 : Int) + 1 ≤ 12) ∧
    ¬ ((12 : Int) - smallSynchronized.plat.bufferLength ≤ 12 ∧ (12 : Int) + 1 ≤ 12) := by decide +kernel

/-- `RetainedSamplesKeepIndex`: the last sample of the buffer, still retained after eleven more. -/
theorem test_witness_retained :
    memRead smallSynchronized 11 1 = .ok [⟨0⟩] ∧
    bufferBase (pushSamples (List.replicate 11 ⟨0⟩) smallSynchronized) = 11 := by decide +kernel

/-- `PushedSamplesReadBack`: a chunk of `B` samples. -/
theorem test_witness_readBack : (List.replicate 12 (⟨0⟩ : Binary64)).length ≤ smallState.plat.bufferLength := by
  decide +kernel

/-- `PushBelowThreshold`: 31 samples under `CFG_A` (B-3). -/
theorem test_witness_below :
    accepted (.push (zeroPush 31)) State.reset ∧
    ((State.reset.pushed + min (zeroPush 31).n.toNat (3 * State.reset.plat.wordLength) : Nat) : Int) -
        State.reset.processed <
      ((if State.reset.trig < 0 then State.reset.plat.wordLength / 4 else State.reset.plat.wordLength : Nat) : Int) :=
  ⟨zeroPush_accepted (by decide) test_resetConfig_admitted (by decide), by decide +kernel⟩

/-- `PushRunsLoopToItsEnd`: 32 samples under `CFG_A` (B-4). -/
theorem test_witness_gate :
    accepted (.push (zeroPush 32)) State.reset ∧
    ((if State.reset.trig < 0 then State.reset.plat.wordLength / 4 else State.reset.plat.wordLength : Nat) : Int) ≤
      ((State.reset.pushed + min (zeroPush 32).n.toNat (3 * State.reset.plat.wordLength) : Nat) : Int) -
        State.reset.processed :=
  ⟨zeroPush_accepted (by decide) test_resetConfig_admitted (by decide), by decide +kernel⟩

/-- `PushEventsBounded` and `ChunkBoundNeverMissesWindow`: a chunk of exactly the bound. -/
theorem test_witness_chunkBound :
    BoundKept smallSynchronized ∧ accepted (.push (zeroPush 4)) smallSynchronized ∧
    ((zeroPush 4).n.toNat : Int) = maxChunk smallSynchronized :=
  ⟨test_witness_boundKept, zeroPush_accepted (by decide) test_smallConfig_admitted (by decide), by decide +kernel⟩

/-- A configuration whose fields `CFG.FS` and `CFG.TW` are `2 ^ 600` each: their product is out of the range of binary64. -/
def hugePlatform : Platform :=
  { resetPlatform with cfg := { resetPlatform.cfg with fs := ⟨0x6570000000000000⟩, tw := ⟨0x6570000000000000⟩ } }

/-- 00_scope.md R11: `3 × W < 2 ^ 31` fails of it; R88: a query is refused `BAD_CONFIG`. -/
theorem test_R11_hugeProduct_refused :
    hugePlatform.wordLength = 2 ^ 1200 ∧ hugePlatform.admitted = false ∧
    (match exec (.rdmaxc ⟨0, 0, 0, []⟩) { State.reset with plat := hugePlatform } with
      | .next t => t.respPort
      | _ => []) = [[0x0300000000000000]] := by decide +kernel

/-- `WordLengthIsFloor`: over the reals and in the machine, in range and out of it. -/
theorem test_witness_floor :
    ((0 : ℝ) ≤ realConfig.fs * realConfig.tw) ∧
    (isFiniteWord resetPlatform.cfg.fs.bits = true ∧ isFiniteWord resetPlatform.cfg.tw.bits = true ∧
      (mulRounded (unpack resetPlatform.cfg.fs.bits) (unpack resetPlatform.cfg.tw.bits)).inRange = true ∧
      isFiniteWord (resetPlatform.num.mul resetPlatform.cfg.fs resetPlatform.cfg.tw).bits = true ∧
      0 ≤ realOfBits (resetPlatform.num.mul resetPlatform.cfg.fs resetPlatform.cfg.tw).bits) ∧
    isFiniteWord hugePlatform.cfg.fs.bits = true ∧ isFiniteWord hugePlatform.cfg.tw.bits = true ∧
    (mulRounded (unpack hugePlatform.cfg.fs.bits) (unpack hugePlatform.cfg.tw.bits)).inRange = false ∧
    0 ≤ realOfBits hugePlatform.cfg.fs.bits * realOfBits hugePlatform.cfg.tw.bits := by
  have h : unpack (resetPlatform.num.mul resetPlatform.cfg.fs resetPlatform.cfg.tw).bits = ⟨false, 2 ^ 52, -45⟩ := by
    decide +kernel
  refine ⟨by simp [realConfig], ⟨by decide, by decide, by decide +kernel, by decide +kernel, ?_⟩, by decide, by decide,
    by decide +kernel, mul_self_nonneg _⟩
  simp only [realOfBits, h, Bool.false_eq_true, if_false]
  positivity

/-- `GoertzelAnswersPowers`. -/
theorem test_witness_goertzel :
    State.reset.plat.admitted = true ∧ (⟨0, 1, 1, [0x3FF0000000000000, 0]⟩ : Operands).n.toNat ≠ 0 ∧
    (⟨0, 1, 1, [0x3FF0000000000000, 0]⟩ : Operands).data.length =
      (⟨0, 1, 1, [0x3FF0000000000000, 0]⟩ : Operands).n.toNat + (⟨0, 1, 1, [0x3FF0000000000000, 0]⟩ : Operands).k.toNat ∧
    ∀ w ∈ ([0x3FF0000000000000, 0] : List Word), ¬ notANumber w :=
  ⟨test_resetConfig_admitted, by decide, by decide, by simp [notANumber]⟩

/-- `GoertzelRecurrenceSteps`: one sample over the reals, at an angle of 0. -/
theorem test_witness_recurrence :
    ∃ q : Nat → ℝ, q 0 = realNumerics.ofInt 0 ∧ q 1 = realNumerics.ofInt 0 ∧
      ∀ n v, [(1 : ℝ)][n]? = some v →
        q (n + 2) = realNumerics.sub (realNumerics.add v
          (realNumerics.mul (realNumerics.mul (realNumerics.ofInt 2) (realNumerics.cos 0)) (q (n + 1)))) (q n) := by
  refine ⟨fun n => if n = 2 then 1 else 0, by simp [realNumerics], by simp [realNumerics], fun n v h => ?_⟩
  obtain ⟨hn, rfl⟩ := List.getElem?_eq_some_iff.1 h
  obtain rfl : n = 0 := by simpa using hn
  simp [realNumerics]

/-- `SnrRatioClamped`: at the boundary. -/
theorem test_witness_snr : (0 : ℝ) ≤ 0 ∧ (0 : ℝ) ≤ 1 := by norm_num

/-- `SearchIterationReadsOrSkips`: P1 step 5, an iteration that skips (`p = 6`) and the first that reads (`p = 7`). -/
theorem test_witness_sweep :
    let p := smallState.plat
    ((p.windowOffset : Int) ≤ (16 : Int) - 6 ∧
      (6 : Int) + p.windowOffset - p.doorLength < (16 : Int) - p.bufferLength) ∧
    ((p.windowOffset : Int) ≤ (16 : Int) - 7 ∧
      (16 : Int) - p.bufferLength ≤ (7 : Int) + p.windowOffset - p.doorLength) := by decide +kernel

/-- `NoPeakWithoutDominance`: ratios of 1 (V-15) and −1, the reading 1, over the reals and in binary64. -/
theorem test_witness_ratio :
    (1 : ℝ) ≤ ({ realConfig with ratio := 1 } : Config ℝ).ratio ∧
    (({ realConfig with ratio := -1 } : Config ℝ).ratio < 0 ∧ 0 < (historyMaximum realNumerics [(1 : ℝ)]).1) ∧
    isFiniteWord (0x3FF0000000000000 : Word) = true ∧ isFiniteWord (0xBFF0000000000000 : Word) = true ∧
    |realOfBits 0x3FF0000000000000| ≤ 2 ^ (1023 : ℤ) ∧
    1 ≤ realOfBits 0x3FF0000000000000 ∧ realOfBits 0xBFF0000000000000 < 0 ∧ realOfBits 0x3FF0000000000000 ≠ 0 := by
  have hu : unpack 0x3FF0000000000000 = ⟨false, 2 ^ 52, -52⟩ := by decide
  have hn : unpack 0xBFF0000000000000 = ⟨true, 2 ^ 52, -52⟩ := by decide
  have h1 : realOfBits 0x3FF0000000000000 = 1 := by rw [realOfBits, hu]; norm_num
  have h2 : realOfBits 0xBFF0000000000000 = -1 := by rw [realOfBits, hn]; norm_num
  have h3 : absNum realNumerics (1 : ℝ) = 1 := by norm_num [absNum, realNumerics]
  refine ⟨le_refl _, ⟨by norm_num, ?_⟩, rfl, rfl, ?_, h1.ge, ?_, ?_⟩
  · show 0 < absNum realNumerics (1 : ℝ); rw [h3]; exact one_pos
  · rw [h1, abs_one]; exact one_le_zpow₀ (by norm_num) (by norm_num)
  · rw [h2]; norm_num
  · rw [h1]; norm_num

/-- `DistanceGuard`: on either side of the boundary. -/
theorem test_witness_guard :
    guardHolds binary64Numerics smallConfig 9 = true ∧ guardHolds binary64Numerics smallConfig 10 = false := by
  decide +kernel

/-- `TriggerFires`: V-4 meets the condition, V-1 does not. -/
theorem test_witness_fire :
    firesNow (evaluationState 0 [0, 0, 0, 0, 0, 0, 1, 3, 10, 25, 10, 3]) = true ∧
    firesNow (evaluationState 0 [0, 0, 0, 0, 0, 0, 0, 0, 0, 0, 0, 0]) = false := by decide +kernel

/-- `MissedWindowRaised` and `WindowNotArrivedIdles`: the window begins one before the buffer; it has just not left the
buffer, or lacks its last sample. -/
theorem test_witness_position :
    let p := resetPlatform
    ((256 : Int) + p.doorLength + (0 : Nat) * p.wordLength < (769 : Int) - p.bufferLength) ∧
    ((768 : Int) - p.bufferLength ≤ (256 : Int) + p.doorLength + (0 : Nat) * p.wordLength) ∧
    ((511 : Int) < (256 : Int) + p.doorLength + (0 : Nat) * p.wordLength + p.wordLength) := by decide +kernel

/-- `DecodedWordTransitions`: a window that has arrived, whose word decodes to `a`, for every `a` and every cursor. -/
theorem test_witness_word (a : Byte × HamOutcome) (cursor : Nat) :
    let s := wordArrived cursor a
    let target := s.trig + s.plat.doorLength + s.cursor * s.plat.wordLength
    ((s.pushed : Int) - s.plat.bufferLength ≤ target) ∧ (target + s.plat.wordLength ≤ s.pushed) ∧
      s.cursor = cursor ∧ ∀ c, hdec s.plat.ham c = a := by
  have hw : (wordArrived cursor a).plat.wordLength = 4 := by
    show wordLength binary64Numerics smallConfig = 4
    decide +kernel
  refine ⟨?_, ?_, rfl, fun c => by simp [wordArrived, constantHam, smallPlatform, State.powerOn, hdec]⟩ <;>
    simp only [Platform.doorLength, Platform.bufferLength, doorLength, bufferLength, hw] <;>
    simp only [wordArrived] <;> push_cast <;> omega

/-- `WaveformSamples`, `WaveformWithinPeak`, `SegmentsStartAndEndSilent`. -/
theorem test_witness_waveform : admitted realNumerics realConfig = true ∧ ([0x12] : List Byte).length = realConfig.np :=
  ⟨test_realConfig_admitted, rfl⟩

/-- `PureCommandsIgnoreEngine`: two different engine states of one platform. -/
theorem test_witness_pure : smallState.plat = smallSynchronized.plat ∧ smallState.pushed ≠ smallSynchronized.pushed := by
  exact ⟨rfl, by decide⟩

/-- `HistoryMaximumIsLeastIndex`, `ToneTableOverReals`, `CodeBitsByLane`: a nonempty history, the last lane. -/
theorem test_witness_lane : ([1] : List ℝ) ≠ [] ∧ 11 < 12 := ⟨by simp, by decide⟩

end Sys2Proof.Tests
end

section
/-!
PROOF. The statements about scope (00_scope.md): a step executes the command its frame decodes to (R7), and every command
in every state is answered with exactly one response frame (R8).

Only PUSH could stop on a fault: an accepted one runs under an admitted configuration, where the bound of the run loop is
never used up (`runLoop_total`).  That it is answered once is a frame: no internal step writes the response port.
-/

namespace Sys2Proof.Machine

/-! ## What the internal steps leave unchanged (42_sample_buffer.md R145, R146) -/

/-- What no effect of a command writes: the platform, the command port and the response port. -/
structure OutsideKept (s t : State) : Prop where
  plat : t.plat = s.plat
  cmdPort : t.cmdPort = s.cmdPort
  respPort : t.respPort = s.respPort

/-- What no internal step writes: beyond that, the sample buffer and its counter. -/
structure StepFrame (s t : State) : Prop extends OutsideKept s t where
  pushed : t.pushed = s.pushed
  buf : t.buf = s.buf

theorem StepFrame.refl (s : State) : StepFrame s s := ⟨⟨rfl, rfl, rfl⟩, rfl, rfl⟩

theorem OutsideKept.trans {s t u : State} (h : OutsideKept s t) (h' : OutsideKept t u) : OutsideKept s u :=
  ⟨h'.plat.trans h.plat, h'.cmdPort.trans h.cmdPort, h'.respPort.trans h.respPort⟩

theorem StepFrame.trans {s t u : State} (h : StepFrame s t) (h' : StepFrame t u) : StepFrame s u :=
  ⟨h.toOutsideKept.trans h'.toOutsideKept, h'.pushed.trans h.pushed, h'.buf.trans h.buf⟩

theorem consumePending_stepFrame (s : State) : StepFrame s (consumePending s) := ⟨⟨rfl, rfl, rfl⟩, rfl, rfl⟩

theorem raiseError_stepFrame (c : Cause) (s : State) : StepFrame s (raiseError c s) := ⟨⟨rfl, rfl, rfl⟩, rfl, rfl⟩

theorem countCorrection_stepFrame (o : HamOutcome) (s : State) : StepFrame s (countCorrection o s) :=
  ⟨⟨countCorrection_plat o s, countCorrection_cmdPort o s, countCorrection_respPort o s⟩,
    countCorrection_pushed o s, countCorrection_buf o s⟩

theorem acceptValidation_stepFrame (target : Int) (byte : Byte) (s : State) :
    StepFrame s (acceptValidation target byte s).2 := by
  unfold acceptValidation
  split
  · exact raiseError_stepFrame _ s
  · exact ⟨⟨rfl, rfl, rfl⟩, rfl, rfl⟩

theorem acceptPayload_stepFrame (target : Int) (byte : Byte) (s : State) :
    StepFrame s (acceptPayload target byte s).2 := by
  simp only [acceptPayload]
  split <;> exact ⟨⟨rfl, rfl, rfl⟩, rfl, rfl⟩

theorem acceptWord_stepFrame (target : Int) (a : Byte × HamOutcome) (s : State) :
    StepFrame s (acceptWord target a s).2 := by
  have hc := countCorrection_stepFrame a.2 s
  rcases acceptWord_cases target a s with ⟨-, h⟩ | ⟨-, -, h⟩ | ⟨-, -, h⟩ <;> rw [h]
  · exact raiseError_stepFrame _ s
  · exact hc.trans (acceptValidation_stepFrame target a.1 _)
  · exact hc.trans (acceptPayload_stepFrame target a.1 _)

theorem syncStep_stepFrame {s t : State} {r : StepResult} (h : syncStep s = .ok (r, t)) : StepFrame s t := by
  rcases syncStep_cases s with ⟨-, h'⟩ | ⟨-, -, h'⟩ | ⟨-, -, x, -, h'⟩ <;> rw [h'] at h <;> cases h
  · exact (raiseError_stepFrame _ s).trans (consumePending_stepFrame _)
  · exact consumePending_stepFrame s
  · exact (acceptWord_stepFrame _ _ s).trans (consumePending_stepFrame _)

theorem evaluateTrigger_stepFrame (s : State) : StepFrame s (evaluateTrigger s).2 := by
  rcases evaluateTrigger_cases s with ⟨-, h⟩ | ⟨-, h⟩ <;> rw [h]
  · exact ⟨⟨rfl, rfl, rfl⟩, rfl, rfl⟩
  · exact .refl s

theorem searchStep_stepFrame {s t : State} {r : StepResult} (h : searchStep s = .ok (r, t)) : StepFrame s t := by
  obtain ⟨u, -, hu, h'⟩ := searchStep_total s
  have hsweep : StepFrame s u := by rw [hu]; exact ⟨⟨rfl, rfl, rfl⟩, rfl, rfl⟩
  have ht : (evaluateTrigger u).2 = t := by rw [h', Except.ok.injEq] at h; rw [h]
  exact ht ▸ hsweep.trans (evaluateTrigger_stepFrame u)

theorem internalStep_stepFrame {s t : State} {r : StepResult} (h : internalStep s = .ok (r, t)) : StepFrame s t := by
  unfold internalStep at h
  split at h
  · exact searchStep_stepFrame h
  · exact syncStep_stepFrame h

theorem runLoop_stepFrame : ∀ {fuel : Nat} {s t : State}, runLoop fuel s = .ok t → StepFrame s t
  | 0, _, _, h => by cases h
  | fuel + 1, s, t, h => by
    simp only [runLoop] at h
    cases hi : internalStep s with
    | error f => simp [hi] at h
    | ok r =>
      have hstep : StepFrame s r.2 := internalStep_stepFrame hi
      rw [hi] at h
      dsimp only at h
      split at h
      · exact hstep.trans (runLoop_stepFrame h)
      · cases h; exact hstep

/-! ## The effect of a PUSH (42_sample_buffer.md R147, R148) -/

/-- Under an admitted configuration the effect of a PUSH completes. -/
theorem pushEffect_total (chunk : List Binary64) {s : State} (ha : s.plat.admitted = true) :
    ∃ t, pushEffect chunk s = .ok t ∧ OutsideKept s t := by
  have hpush : OutsideKept s (pushSamples chunk s) := ⟨rfl, rfl, rfl⟩
  simp only [pushEffect]
  split
  · obtain ⟨t, ht⟩ := runLoop_total (s := pushSamples chunk s) ha
    exact ⟨t, ht, hpush.trans (runLoop_stepFrame ht).toOutsideKept⟩
  · exact ⟨_, rfl, hpush⟩

theorem check_eq_none_iff {b : Bool} {st : Status} : check b st = none ↔ b = true := by
  cases b <;> simp

/-- A command is not refused iff each of its checks is passed. -/
theorem firstFailure_eq_none_iff {cs : List (Option Status)} : firstFailure cs = none ↔ ∀ c ∈ cs, c = none :=
  List.findSome?_eq_none_iff

/-- An accepted PUSH runs under an admitted configuration (30_encoding.md R88). -/
theorem admitted_of_pushChecks {o : Operands} {s : State} (h : firstFailure (pushChecks o s) = none) :
    s.plat.admitted = true :=
  check_eq_none_iff.1 (firstFailure_eq_none_iff.1 h (check (configAdmitted s) .badConfig) (by simp [pushChecks]))

/-! ## All a command can do (00_scope.md R8; 30_encoding.md R87, R88) -/

/-- A command answers `out` in `s`: refused with nothing else changed, or one OK response after its effect. -/
def Answers (s : State) (out : Host.Outcome State Fault Refusal) : Prop :=
  (∃ st, out = .next (refuse st s)) ∨ ∃ data t, out = .next (respond data t) ∧ OutsideKept s t

/-- A command answers if its effect, once the checks are passed, ends in an OK response. -/
theorem complete_answers {cs : List (Option Status)} {eff : State → Except Fault State} {s : State}
    (h : firstFailure cs = none → ∃ data t, eff s = .ok (respond data t) ∧ OutsideKept s t) :
    Answers s (complete cs eff s) := by
  cases hc : firstFailure cs with
  | some st => exact .inl ⟨st, complete_refused hc⟩
  | none =>
    obtain ⟨data, t, he, hk⟩ := h hc
    exact .inr ⟨data, t, complete_ok hc he, hk⟩

/-- A command whose effect is its response alone. -/
theorem complete_respond_answers (cs : List (Option Status)) (data : State → List Word) (s : State) :
    Answers s (complete cs (fun s => .ok (respond (data s) s)) s) :=
  complete_answers fun _ => ⟨data s, s, rfl, rfl, rfl, rfl⟩

theorem answerQuery_answers (o : Operands) (word : State → Word) (s : State) : Answers s (answerQuery o word s) :=
  complete_respond_answers _ (fun s => [word s]) s

theorem execReset_answers (o : Operands) (s : State) : Answers s (execReset o s) := by
  refine complete_answers fun _ => ⟨[], _, rfl, ?_⟩
  split
  · exact ⟨rfl, rfl, rfl⟩
  · exact ⟨rfl, rfl, rfl⟩

theorem execPush_answers (o : Operands) (s : State) : Answers s (execPush o s) := by
  refine complete_answers fun hc => ?_
  obtain ⟨t, ht, hk⟩ := pushEffect_total (chunkOf s.plat.num o) (admitted_of_pushChecks hc)
  exact ⟨[], t, by simp only [ht], hk⟩

/-- All a command can do, whatever its operands and the state; in particular it never faults. -/
theorem exec_answers (i : Instr) (s : State) : Answers s (exec i s) := by
  cases i with
  | nop o => exact complete_respond_answers _ (fun _ => []) s
  | push o => exact execPush_answers o s
  | rdtrig o => exact answerQuery_answers o (fun s => integerWord s.trig) s
  | rdwlen o => exact answerQuery_answers o (fun s => integerWord s.plat.wordLength) s
  | rddlen o => exact answerQuery_answers o (fun s => integerWord s.plat.doorLength) s
  | rdcerr o => exact answerQuery_answers o (fun s => integerWord s.cerr) s
  | rdmaxc o => exact answerQuery_answers o (fun s => integerWord (maxChunk s)) s
  | encode o =>
    exact complete_respond_answers _
      (fun s => encodeSamples s.plat.num s.plat.cfg s.plat.ham s.plat.sentinel o) s
  | reset o => exact execReset_answers o s
  | goertzel o => exact complete_respond_answers _ (fun s => goertzelPowers s.plat.num s.plat.cfg o) s

/-! ## The obligations -/

/-- Settles O9: a refusal and an OK response each append one frame. -/
theorem everyCommandCompletes : Obligations.EveryCommandCompletes := by
  intro i s
  rcases exec_answers i s with ⟨st, h⟩ | ⟨data, t, h, hk⟩
  · exact ⟨_, _, h, refuse_respPort st s⟩
  · exact ⟨_, _, h, by rw [respond_respPort, hk.respPort]⟩

/-- Settles O6, by the dispatch of `step` on the port and on the decoder's answer. -/
theorem stepExecutesDecodedCommand : Obligations.StepExecutesDecodedCommand := by
  intro s f rest i hport hdecode
  simp only [step, hport, hdecode]

end Sys2Proof.Machine
end

section
/-!
PROOF. The statements about the state (10_state.md): what each command writes (R29, R39), the counters (R22, R23), the
reset state (R38) and the invariant at rest (R37).

Every command falls into one of three kinds (`exec_next`): it returns a response and writes nothing else, it is a PUSH that
ran its effect, or it is a RESET.  The invariant at rest is split into `LoopInvariant`, which every internal step keeps, and
the shut gate, which the last step of the run loop restores.
-/

namespace Sys2Proof.Machine

/-! ## What a command can leave behind (30_encoding.md R82, R88) -/

/-- The state `t` is `s` with one more response frame. -/
def RespondsOnly (s t : State) : Prop := ∃ r, t = { s with respPort := s.respPort ++ [r] }

theorem refuse_respondsOnly (st : Status) (s : State) : RespondsOnly s (refuse st s) := ⟨_, rfl⟩

theorem respond_respondsOnly (data : List Word) (s : State) : RespondsOnly s (respond data s) := ⟨_, rfl⟩

/-- A command that answers a next state was refused or had its effect. -/
theorem complete_next {cs : List (Option Status)} {eff : State → Except Fault State} {s t : State}
    (h : complete cs eff s = .next t) :
    (∃ st, t = refuse st s) ∨ (firstFailure cs = none ∧ eff s = .ok t) := by
  rcases complete_cases cs eff s with ⟨st, -, h'⟩ | ⟨hc, u, he, h'⟩ | ⟨-, f, -, h'⟩ <;> rw [h'] at h <;> cases h
  · exact .inl ⟨st, rfl⟩
  · exact .inr ⟨hc, he⟩

/-- A command whose effect is its response alone writes nothing else, refused or not. -/
theorem complete_respond_respondsOnly {cs : List (Option Status)} {data : State → List Word} {s t : State}
    (h : complete cs (fun s => .ok (respond (data s) s)) s = .next t) : RespondsOnly s t := by
  rcases complete_next h with ⟨st, rfl⟩ | ⟨-, he⟩
  · exact refuse_respondsOnly st s
  · cases he; exact respond_respondsOnly _ s

/-- A PUSH is refused, or runs its effect and then responds (42_sample_buffer.md R147). -/
theorem execPush_next {o : Operands} {s t : State} (h : execPush o s = .next t) :
    RespondsOnly s t ∨ ∃ u, firstFailure (pushChecks o s) = none ∧
      pushEffect (chunkOf s.plat.num o) s = .ok u ∧ t = respond [] u := by
  rcases complete_next h with ⟨st, rfl⟩ | ⟨hc, he⟩
  · exact .inl (refuse_respondsOnly st s)
  · cases hp : pushEffect (chunkOf s.plat.num o) s with
    | error f => rw [hp] at he; cases he
    | ok u => rw [hp] at he; cases he; exact .inr ⟨u, hc, rfl, rfl⟩

/-- A RESET is answered without effect, or restores the engine under an admitted configuration (46_query_control.md R237). -/
theorem execReset_next {o : Operands} {s t : State} (h : execReset o s = .next t) :
    RespondsOnly s t ∨ (s.plat.admitted = true ∧ t = respond [] (resetEngine s)) := by
  rcases complete_next h with ⟨st, rfl⟩ | ⟨-, he⟩
  · exact .inl (refuse_respondsOnly st s)
  · cases he
    split
    · exact .inr ⟨‹_›, rfl⟩
    · exact .inl (respond_respondsOnly [] s)

/-- All that a command can leave behind. -/
theorem exec_next {i : Instr} {s t : State} (h : exec i s = .next t) :
    RespondsOnly s t ∨
    (∃ o u, i = .push o ∧ firstFailure (pushChecks o s) = none ∧ pushEffect (chunkOf s.plat.num o) s = .ok u ∧
      t = respond [] u) ∨
    (∃ o, i = .reset o ∧ s.plat.admitted = true ∧ t = respond [] (resetEngine s)) := by
  cases i with
  | push o => exact (execPush_next h).imp_right fun ⟨u, hu⟩ => .inl ⟨o, u, rfl, hu⟩
  | reset o => exact (execReset_next h).imp_right fun hr => .inr ⟨o, rfl, hr⟩
  | nop o => exact .inl (complete_respond_respondsOnly (data := fun _ => []) h)
  | rdtrig o => exact .inl (complete_respond_respondsOnly (data := fun s => [integerWord s.trig]) h)
  | rdwlen o => exact .inl (complete_respond_respondsOnly (data := fun s => [integerWord s.plat.wordLength]) h)
  | rddlen o => exact .inl (complete_respond_respondsOnly (data := fun s => [integerWord s.plat.doorLength]) h)
  | rdcerr o => exact .inl (complete_respond_respondsOnly (data := fun s => [integerWord s.cerr]) h)
  | rdmaxc o => exact .inl (complete_respond_respondsOnly (data := fun s => [integerWord (maxChunk s)]) h)
  | encode o =>
    exact .inl (complete_respond_respondsOnly
      (data := fun s => encodeSamples s.plat.num s.plat.cfg s.plat.ham s.plat.sentinel o) h)
  | goertzel o => exact .inl (complete_respond_respondsOnly (data := fun s => goertzelPowers s.plat.num s.plat.cfg o) h)

/-- Every command answers a next state of the same platform. -/
theorem exec_total (i : Instr) (s : State) : ∃ t, exec i s = .next t ∧ t.plat = s.plat := by
  rcases exec_answers i s with ⟨st, h⟩ | ⟨data, t, h, hk⟩
  · exact ⟨_, h, rfl⟩
  · exact ⟨_, h, hk.plat⟩

/-- A step takes a frame from the command port and executes it, or answers that it is no command. -/
theorem step_next {s t : State} (h : step s = .next t) :
    ∃ rest, RespondsOnly { s with cmdPort := rest } t ∨ ∃ i, exec i { s with cmdPort := rest } = .next t := by
  unfold step at h
  split at h
  · cases h
  · rename_i f rest _
    refine ⟨rest, ?_⟩
    split at h
    · exact .inr ⟨_, h⟩
    · rename_i e _
      cases h
      cases e <;> exact .inl (refuse_respondsOnly _ _)

/-! ## The run loop as an induction (42_sample_buffer.md R145) -/

/-- The run loop is a chain of internal steps of which only the last does not end in PITCH: what every step keeps (`P`)
holds before the last, and what the last one makes of it (`Q`) holds at the end. -/
theorem runLoop_induction {P Q : State → Prop}
    (hstep : ∀ {s t : State} {r : StepResult}, P s → internalStep s = .ok (r, t) → P t)
    (hlast : ∀ {s t : State} {r : StepResult}, P s → internalStep s = .ok (r, t) → r ≠ .pitch → Q t) :
    ∀ {fuel : Nat} {s t : State}, P s → runLoop fuel s = .ok t → Q t
  | 0, _, _, _, h => by cases h
  | fuel + 1, s, t, hp, h => by
    simp only [runLoop] at h
    cases hi : internalStep s with
    | error f => rw [hi] at h; cases h
    | ok r =>
      rw [hi] at h
      dsimp only at h
      split at h
      · exact runLoop_induction hstep hlast (hstep hp hi) h
      · cases h
        exact hlast hp hi ‹_›

/-! ## The counters (10_state.md R22, R23) -/

theorem searchStep_processed {s t : State} {r : StepResult} (h : searchStep s = .ok (r, t))
    (hle : s.processed ≤ s.pushed) : s.processed ≤ t.processed ∧ t.processed ≤ s.pushed := by
  obtain ⟨u, -, hu, h'⟩ := searchStep_total s
  have hprocessed : u.processed = s.processed + sweepCount s * s.plat.windowOffset := by rw [hu]
  have hmul := sweepCount_mul_le s
  have ht : t.processed = u.processed := by
    rw [h'] at h
    rcases evaluateTrigger_cases u with ⟨-, he⟩ | ⟨-, he⟩ <;> rw [he] at h <;> cases h <;> rfl
  omega

/-- A synchronized step consumes all that is pending (44_frame_decoder.md R192). -/
theorem syncStep_processed {s t : State} {r : StepResult} (h : syncStep s = .ok (r, t)) : t.processed = s.pushed := by
  rcases syncStep_cases s with ⟨-, h'⟩ | ⟨-, -, h'⟩ | ⟨-, -, x, -, h'⟩ <;> rw [h'] at h <;> cases h
  · rfl
  · rfl
  · exact (acceptWord_stepFrame _ _ s).pushed

theorem internalStep_processed {s t : State} {r : StepResult} (h : internalStep s = .ok (r, t))
    (hle : s.processed ≤ s.pushed) : s.processed ≤ t.processed ∧ t.processed ≤ s.pushed := by
  unfold internalStep at h
  split at h
  · exact searchStep_processed h hle
  · have := syncStep_processed h
    omega

/-- `PROCESSED` has not been lowered from `low` and is at most `PUSHED`. -/
def ConsumedFrom (low : Nat) (s : State) : Prop := low ≤ s.processed ∧ s.processed ≤ s.pushed

theorem internalStep_consumedFrom {low : Nat} {s t : State} {r : StepResult} (hs : ConsumedFrom low s)
    (h : internalStep s = .ok (r, t)) : ConsumedFrom low t := by
  obtain ⟨hlow, hle⟩ := hs
  obtain ⟨hge, hmax⟩ := internalStep_processed h hle
  exact ⟨hlow.trans hge, (internalStep_stepFrame h).pushed ▸ hmax⟩

/-- The effect of a PUSH lowers no counter. -/
theorem pushEffect_counters {chunk : List Binary64} {s t : State} (h : pushEffect chunk s = .ok t)
    (hle : s.processed ≤ s.pushed) : s.pushed ≤ t.pushed ∧ s.processed ≤ t.processed ∧ t.processed ≤ t.pushed := by
  have hpushed : s.pushed ≤ (pushSamples chunk s).pushed := Nat.le_add_right _ _
  simp only [pushEffect] at h
  split at h
  · have hstart : ConsumedFrom s.processed (pushSamples chunk s) := ⟨le_rfl, hle.trans hpushed⟩
    have hend : ConsumedFrom s.processed t :=
      runLoop_induction internalStep_consumedFrom (fun hs hi _ => internalStep_consumedFrom hs hi) hstart h
    exact ⟨(runLoop_stepFrame h).pushed ▸ hpushed, hend⟩
  · cases h
    exact ⟨hpushed, le_rfl, hle.trans hpushed⟩

/-! ## The event record (60_exceptions.md R260 to R262) -/

/-- A record of events in attempts: every fire is closed by a MESSAGE or an ERROR, but for the last one if `isOpen`, and
every MESSAGE carries `np` bytes. -/
structure EventRecord (np : Nat) (isOpen : Bool) (l : List Event) : Prop where
  attempts : l.countP Event.isMessage + l.countP Event.isError + isOpen.toNat = countFires false l
  endsOpen : endsInPitch false l = isOpen
  payloads : l.all (Event.payloadIs np) = true

theorem EventRecord.nil (np : Nat) : EventRecord np false [] := ⟨rfl, rfl, rfl⟩

/-- A PITCH opens an attempt, or continues the open one. -/
theorem EventRecord.pitch {np : Nat} {isOpen : Bool} {l : List Event} (h : EventRecord np isOpen l) (i : Int) :
    EventRecord np true (l ++ [.pitch i]) where
  attempts := by
    have hattempts := h.attempts
    rw [countFires_append, h.endsOpen]
    cases isOpen <;> simp [Event.isMessage, Event.isError, Event.isPitch] at hattempts ⊢ <;> omega
  endsOpen := endsInPitch_append _ _ _
  payloads := by simp [h.payloads, Event.payloadIs]

/-- An ERROR closes the open attempt. -/
theorem EventRecord.error {np : Nat} {l : List Event} (h : EventRecord np true l) (n : Nat) (c : Cause) :
    EventRecord np false (l ++ [.error n c]) where
  attempts := by
    have hattempts := h.attempts
    rw [countFires_append]
    simp [Event.isMessage, Event.isError, Event.isPitch] at hattempts ⊢; omega
  endsOpen := endsInPitch_append _ _ _
  payloads := by simp [h.payloads, Event.payloadIs]

/-- A MESSAGE of `np` bytes closes the open attempt. -/
theorem EventRecord.message {np : Nat} {l : List Event} (h : EventRecord np true l) {p : List Byte}
    (hp : p.length = np) (t : Int) : EventRecord np false (l ++ [.message p t]) where
  attempts := by
    have hattempts := h.attempts
    rw [countFires_append]
    simp [Event.isMessage, Event.isError, Event.isPitch] at hattempts ⊢; omega
  endsOpen := endsInPitch_append _ _ _
  payloads := by simp [h.payloads, Event.payloadIs, hp]

/-! ## The counts of the current frame (10_state.md R37, I4 and I5) -/

/-- The bounds on `CURSOR` and `CERR`, tighter while a frame is being received. -/
structure WordCounts (np : Nat) (receiving : Prop) (cursor cerr : Nat) : Prop where
  receiving_le : receiving → cursor ≤ np ∧ cerr ≤ cursor
  cursor_le : cursor ≤ np + 1
  cerr_le_cursor : cerr ≤ cursor + 1
  cerr_le : cerr ≤ np + 1

/-- The tighter bounds are enough. -/
theorem WordCounts.of_le {np cursor cerr : Nat} (receiving : Prop) (hcursor : cursor ≤ np) (hcerr : cerr ≤ cursor) :
    WordCounts np receiving cursor cerr :=
  ⟨fun _ => ⟨hcursor, hcerr⟩, by omega, by omega, by omega⟩

/-- Once the frame has ended, its last word may have been corrected without `CURSOR` moving on. -/
theorem WordCounts.closed {np cursor cerr : Nat} (hcursor : cursor ≤ np + 1) (hcerr_cursor : cerr ≤ cursor + 1)
    (hcerr : cerr ≤ np + 1) : WordCounts np (0 ≤ (-1 : Int)) cursor cerr :=
  ⟨fun h => absurd h (by decide), hcursor, hcerr_cursor, hcerr⟩

/-! ## The invariant between the internal steps -/

/-- The invariant at rest but for the gate: what holds between the internal steps of a PUSH too. -/
structure LoopInvariant (s : State) : Prop where
  config : s.plat.admitted = true
  processed_le : s.processed ≤ s.pushed
  pushed_lt : s.pushed < 2 ^ 63
  trig_range : s.trig = -1 ∨ (0 ≤ s.trig ∧ s.trig ≤ s.pushed)
  words : WordCounts s.plat.cfg.np (0 ≤ s.trig) s.cursor s.cerr
  memory_wf : Memory.wf s.plat s.buf = true
  hist_length : s.hist.length = s.plat.historyLength
  parsed_length : s.parsed.length = s.plat.cfg.np
  events : EventRecord s.plat.cfg.np (decide (0 ≤ s.trig)) s.evq

theorem restInvariant_iff (s : State) : RestInvariant s ↔ LoopInvariant s ∧ pending s < threshold s := by
  constructor
  · intro h
    have hwords : WordCounts s.plat.cfg.np (0 ≤ s.trig) s.cursor s.cerr :=
      { h with receiving_le := fun ht => ⟨h.cursor_le_sync ht, h.cerr_le_sync ht⟩ }
    have hevents : EventRecord s.plat.cfg.np (decide (0 ≤ s.trig)) s.evq :=
      { h with
        attempts := by
          rw [← fires, ← h.attempts]
          by_cases ht : 0 ≤ s.trig <;> simp [ht]
        endsOpen := by
          rw [Bool.eq_iff_iff, decide_eq_true_eq]
          exact h.last_event.symm }
    exact ⟨{ h with words := hwords, events := hevents }, h.gate_shut⟩
  · rintro ⟨h, hgate⟩
    have hattempts : s.evq.countP Event.isMessage + s.evq.countP Event.isError + (if 0 ≤ s.trig then 1 else 0) =
        fires s := by
      rw [fires, ← h.events.attempts]
      by_cases ht : 0 ≤ s.trig <;> simp [ht]
    exact { h, h.words with
      gate_shut := hgate
      cursor_le_sync := fun ht => (h.words.receiving_le ht).1
      cerr_le_sync := fun ht => (h.words.receiving_le ht).2
      messages_le := by omega
      attempts := hattempts
      last_event := by rw [← endsInPitch, h.events.endsOpen, decide_eq_true_eq]
      payloads := h.events.payloads }

/-- While SYNCHRONIZED an attempt is open. -/
theorem LoopInvariant.events_open {s : State} (h : LoopInvariant s) (ht : 0 ≤ s.trig) :
    EventRecord s.plat.cfg.np true s.evq := by
  simpa [ht] using h.events

theorem consumePending_loopInvariant {s : State} (h : LoopInvariant s) : LoopInvariant (consumePending s) :=
  { h with processed_le := le_rfl }

theorem countCorrection_eq (o : HamOutcome) (s : State) :
    countCorrection o s = { s with cerr := s.cerr + if o = .correctedError then 1 else 0 } := by
  unfold countCorrection; split <;> rfl

/-! ### The word steps: SYNCHRONIZED, with the correction of the word counted in `CERR` or not -/

section
variable {s : State} {n : Nat} (h : LoopInvariant s) (ht : 0 ≤ s.trig) (hn : n ≤ s.cerr + 1)
include h ht hn

/-- Error entry reverts to SEARCHING and closes the attempt (60_exceptions.md R254). -/
theorem raiseError_loopInvariant (c : Cause) : LoopInvariant (raiseError c { s with cerr := n }) := by
  obtain ⟨hcursor, hcerr⟩ := h.words.receiving_le ht
  have hwords : WordCounts s.plat.cfg.np (0 ≤ (-1 : Int)) s.cursor n := .closed (by omega) (by omega) (by omega)
  exact { h with
    trig_range := .inl rfl
    words := hwords
    events := (h.events_open ht).error s.processed c }

/-- The validation word ends the attempt or is the frame's first word (44_frame_decoder.md R189). -/
theorem acceptValidation_loopInvariant (hc : s.cursor = 0) (target : Int) (byte : Byte) :
    LoopInvariant (acceptValidation target byte { s with cerr := n }).2 := by
  obtain ⟨-, hcerr⟩ := h.words.receiving_le ht
  have hwords : WordCounts s.plat.cfg.np (0 ≤ s.trig) 1 n := .of_le _ (admitted_payload h.config).1 (by omega)
  unfold acceptValidation
  split
  · exact raiseError_loopInvariant h ht hn _
  · exact { h with
      words := hwords
      events := by simpa [ht] using (h.events_open ht).pitch target }

/-- A payload word completes the frame or is one word more of it (44_frame_decoder.md R190, R191). -/
theorem acceptPayload_loopInvariant (target : Int) (byte : Byte) :
    LoopInvariant (acceptPayload target byte { s with cerr := n }).2 := by
  obtain ⟨hcursor, hcerr⟩ := h.words.receiving_le ht
  have hparsed : (s.parsed.set (s.cursor - 1) byte).length = s.plat.cfg.np := by
    rw [List.length_set]; exact h.parsed_length
  by_cases hlast : s.cursor + 1 = s.plat.cfg.np + 1
  · have hwords : WordCounts s.plat.cfg.np (0 ≤ (-1 : Int)) (s.cursor + 1) n := .closed (by omega) (by omega) (by omega)
    simp only [acceptPayload, if_pos hlast]
    exact { h with
      trig_range := .inl rfl
      words := hwords
      parsed_length := hparsed
      events := (h.events_open ht).message hparsed s.trig }
  · have hwords : WordCounts s.plat.cfg.np (0 ≤ s.trig) (s.cursor + 1) n := .of_le _ (by omega) (by omega)
    simp only [acceptPayload, if_neg hlast]
    exact { h with
      words := hwords
      parsed_length := hparsed
      events := by simpa [ht] using (h.events_open ht).pitch target }

end

theorem acceptWord_loopInvariant {s : State} (h : LoopInvariant s) (ht : 0 ≤ s.trig) (target : Int)
    (a : Byte × HamOutcome) : LoopInvariant (acceptWord target a s).2 := by
  have hn : s.cerr + (if a.2 = .correctedError then 1 else 0) ≤ s.cerr + 1 := by split <;> omega
  rcases acceptWord_cases target a s with ⟨-, ha⟩ | ⟨-, hc, ha⟩ | ⟨-, -, ha⟩ <;> rw [ha]
  · exact raiseError_loopInvariant h ht (Nat.le_succ s.cerr) _
  · rw [countCorrection_eq]; exact acceptValidation_loopInvariant h ht hn hc target a.1
  · rw [countCorrection_eq]; exact acceptPayload_loopInvariant h ht hn target a.1

theorem syncStep_loopInvariant {s t : State} {r : StepResult} (h : LoopInvariant s) (ht : 0 ≤ s.trig)
    (hs : syncStep s = .ok (r, t)) : LoopInvariant t := by
  rcases syncStep_cases s with ⟨-, h'⟩ | ⟨-, -, h'⟩ | ⟨-, -, x, -, h'⟩ <;> rw [h'] at hs <;> cases hs
  · exact consumePending_loopInvariant (raiseError_loopInvariant h ht (Nat.le_succ s.cerr) _)
  · exact consumePending_loopInvariant h
  · exact consumePending_loopInvariant (acceptWord_loopInvariant h ht _ _)

/-! ### The search step -/

/-- The distance guard keeps the fire value at most `PROCESSED` (43_synchronizer.md R167, R168). -/
theorem fireIndex_le_processed {s : State} (ha : s.plat.admitted = true) (hf : firesNow s = true) :
    fireIndex s ≤ s.processed := by
  obtain ⟨hwl, -, hdoor, -, -⟩ := platform_lengths ha
  simp only [firesNow, guardHolds, Bool.and_eq_true, decide_eq_true_eq] at hf
  obtain ⟨⟨-, hguard⟩, -⟩ := hf
  have hpos : (0 : Int) < 2 * ((s.plat.historyLength : Int) - 1 - maxIndexOf s.plat.num s.hist) * s.plat.windowOffset :=
    lt_of_lt_of_le (by omega : (0 : Int) < s.plat.doorLength) hguard
  have hindex := pos_of_mul_pos_left hpos (Int.natCast_nonneg s.plat.windowOffset)
  have hback : (0 : Int) ≤ ((s.plat.historyLength : Int) - maxIndexOf s.plat.num s.hist) * s.plat.windowOffset :=
    mul_nonneg (by omega) (Int.natCast_nonneg s.plat.windowOffset)
  simp only [fireIndex]
  omega

/-- A fire opens an attempt with all counts of the frame at 0 (43_synchronizer.md R168). -/
theorem fire_loopInvariant {s : State} (h : LoopInvariant s) (hf : firesNow s = true) : LoopInvariant (fire s) := by
  have hle := fireIndex_le_processed h.config hf
  have hprocessed := h.processed_le
  have hnonneg : 0 ≤ fireIndex s := by
    simp only [firesNow, Bool.and_eq_true, decide_eq_true_eq] at hf
    exact hf.2
  exact { h with
    trig_range := .inr ⟨hnonneg, by simp only [fire_trig, fire_pushed]; omega⟩
    words := .of_le _ (Nat.zero_le _) le_rfl
    parsed_length := List.length_replicate
    events := by simpa [hnonneg] using h.events.pitch (fireIndex s) }

/-- The sweep keeps the length of the history and consumes no more than is pending (43_synchronizer.md R161, R164). -/
theorem sweep_loopInvariant {s t : State} (h : LoopInvariant s) (hs : sweep (sweepCount s) s = .ok t) :
    LoopInvariant t := by
  obtain ⟨-, -, -, -, htwelve⟩ := platform_lengths h.config
  have hhist := h.hist_length
  have hkept : t.hist.length = s.hist.length := sweep_hist_length hs (by omega)
  have hprocessed := h.processed_le
  have hmul := sweepCount_mul_le s
  rw [sweep_frame hs]
  exact { h with
    processed_le := by dsimp only; omega
    hist_length := hkept.trans hhist }

theorem searchStep_loopInvariant {s t : State} {r : StepResult} (h : LoopInvariant s)
    (hs : searchStep s = .ok (r, t)) : LoopInvariant t := by
  obtain ⟨u, hsweep, -, h'⟩ := searchStep_total s
  have hu := sweep_loopInvariant h hsweep
  rw [h'] at hs
  rcases evaluateTrigger_cases u with ⟨hf, he⟩ | ⟨-, he⟩ <;> rw [he] at hs <;> cases hs
  · exact fire_loopInvariant hu hf
  · exact hu

theorem internalStep_loopInvariant {s t : State} {r : StepResult} (h : LoopInvariant s)
    (hs : internalStep s = .ok (r, t)) : LoopInvariant t := by
  rcases stepRun_iff.2 hs with ⟨-, hsearch⟩ | ⟨ht, hsync⟩
  · exact searchStep_loopInvariant h hsearch
  · exact syncStep_loopInvariant h ht hsync

/-! ### The gate after the last step (10_state.md R37, I3) -/

theorem threshold_pos {s : State} (ha : s.plat.admitted = true) : 1 ≤ threshold s := by
  obtain ⟨hword, hoffset, -⟩ := platform_lengths ha
  unfold threshold
  split <;> omega

/-- A search step without a fire leaves less than one window offset pending. -/
theorem searchStep_gate_shut {s t : State} {r : StepResult} (h : LoopInvariant s) (ht : s.trig < 0)
    (hs : searchStep s = .ok (r, t)) (hr : r ≠ .pitch) : pending t < threshold t := by
  obtain ⟨u, -, hu, h'⟩ := searchStep_total s
  have hmod : (s.pushed - s.processed) - sweepCount s * s.plat.windowOffset < s.plat.windowOffset := by
    have hlt : (s.pushed - s.processed) % s.plat.windowOffset < s.plat.windowOffset :=
      Nat.mod_lt _ (windowOffset_pos h.config)
    have hdiv : sweepCount s * s.plat.windowOffset + (s.pushed - s.processed) % s.plat.windowOffset =
        s.pushed - s.processed := Nat.div_add_mod' _ _
    omega
  rw [h'] at hs
  rcases evaluateTrigger_cases u with ⟨-, he⟩ | ⟨-, he⟩ <;> rw [he] at hs <;> cases hs
  · exact absurd rfl hr
  · have hprocessed := h.processed_le
    have hmul := sweepCount_mul_le s
    rw [hu]
    simp only [pending, threshold, searching, ht, decide_true, if_true]
    omega

/-- The step that ends the run loop leaves the gate shut. -/
theorem internalStep_gate_shut {s t : State} {r : StepResult} (h : LoopInvariant s) (hs : internalStep s = .ok (r, t))
    (hr : r ≠ .pitch) : pending t < threshold t := by
  rcases stepRun_iff.2 hs with ⟨ht, hsearch⟩ | ⟨-, hsync⟩
  · exact searchStep_gate_shut h ht hsearch hr
  · have hthreshold := threshold_pos (internalStep_loopInvariant h hs).config
    have hpushed := (syncStep_stepFrame hsync).pushed
    have hprocessed := syncStep_processed hsync
    simp only [pending]
    omega

/-! ## The invariant at rest over the commands -/

/-- What an accepted PUSH's checks say of its chunk and the counter (30_encoding.md R88). -/
theorem chunk_of_pushChecks {o : Operands} {s : State} (hc : firstFailure (pushChecks o s) = none) :
    (∀ x ∈ chunkOf s.plat.num o, cellCanonical x = true) ∧
      s.pushed + countedSamples s.plat (chunkOf s.plat.num o).length < 2 ^ 63 := by
  have hpass : ∀ b st, check b st ∈ pushChecks o s → b = true := fun b st hmem =>
    check_eq_none_iff.1 (firstFailure_eq_none_iff.1 hc _ hmem)
  have hcount := hpass (o.data.length == pushWords o) .badCount (by simp [pushChecks])
  have hfinite := hpass (allFinite o.data) .badValue (by simp [pushChecks])
  have hlimit := hpass (withinCounterLimit o s) .counterLimit (by simp [pushChecks])
  have hlength : (chunkOf s.plat.num o).length = o.n.toNat := by
    simpa [chunkOf, pushWords] using hcount
  exact ⟨chunkOf_canonical s.plat hfinite, by simpa [withinCounterLimit, hlength] using hlimit⟩

/-- Storing and counting a chunk (42_sample_buffer.md R141, R142). -/
theorem pushSamples_loopInvariant {s : State} {chunk : List Binary64} (h : LoopInvariant s)
    (hc : ∀ x ∈ chunk, cellCanonical x = true) (hlt : s.pushed + countedSamples s.plat chunk.length < 2 ^ 63) :
    LoopInvariant (pushSamples chunk s) := by
  have hprocessed := h.processed_le
  have htrig := h.trig_range
  exact { h with
    processed_le := by simp only [pushSamples_processed, pushSamples_pushed]; omega
    pushed_lt := hlt
    trig_range := by simp only [pushSamples_trig, pushSamples_pushed]; omega
    memory_wf := memWrite_wf h.memory_wf hc }

/-- The effect of a PUSH ends at rest: the run loop's last step shuts the gate, or the gate was not open. -/
theorem pushEffect_restInvariant {s t : State} {chunk : List Binary64} (h : LoopInvariant s)
    (hc : ∀ x ∈ chunk, cellCanonical x = true) (hlt : s.pushed + countedSamples s.plat chunk.length < 2 ^ 63)
    (he : pushEffect chunk s = .ok t) : RestInvariant t := by
  have hpush := pushSamples_loopInvariant h hc hlt
  simp only [pushEffect] at he
  by_cases hgate : gateOpen (pushSamples chunk s) = true
  · rw [if_pos hgate] at he
    exact runLoop_induction internalStep_loopInvariant
      (fun hs hi hr => (restInvariant_iff _).2 ⟨internalStep_loopInvariant hs hi, internalStep_gate_shut hs hi hr⟩)
      hpush he
  · rw [if_neg hgate] at he
    cases he
    exact (restInvariant_iff _).2 ⟨hpush, by rwa [gateOpen, decide_eq_true_eq, not_le] at hgate⟩

/-- The invariant does not speak of the ports. -/
theorem RestInvariant.ports {s : State} (h : RestInvariant s) (c r e : List Frame) :
    RestInvariant { s with cmdPort := c, respPort := r, eventPort := e } :=
  { h with }

theorem RespondsOnly.restInvariant {s t : State} (h : RespondsOnly s t) (hs : RestInvariant s) : RestInvariant t := by
  obtain ⟨r, rfl⟩ := h
  exact hs.ports _ _ _

theorem powerOn_restInvariant {p : Platform} (ha : p.admitted = true) : RestInvariant (State.powerOn p) := by
  have hgate : pending (State.powerOn p) < threshold (State.powerOn p) := by
    have hthreshold := threshold_pos (s := State.powerOn p) ha
    simp only [pending, powerOn_pushed, powerOn_processed]
    omega
  refine (restInvariant_iff _).2 ⟨?_, hgate⟩
  exact {
    config := ha
    processed_le := le_rfl
    pushed_lt := by simp
    trig_range := .inl rfl
    words := .of_le _ (Nat.zero_le _) le_rfl
    memory_wf := powerOn_wf p
    hist_length := List.length_replicate
    parsed_length := List.length_replicate
    events := EventRecord.nil _ }

theorem exec_restInvariant {i : Instr} {s t : State} (hs : RestInvariant s) (h : exec i s = .next t) :
    RestInvariant t := by
  rcases exec_next h with hr | ⟨o, u, -, hc, he, rfl⟩ | ⟨o, -, ha, rfl⟩
  · exact hr.restInvariant hs
  · obtain ⟨hcanonical, hlt⟩ := chunk_of_pushChecks hc
    exact (respond_respondsOnly [] u).restInvariant
      (pushEffect_restInvariant ((restInvariant_iff s).1 hs).1 hcanonical hlt he)
  · exact (respond_respondsOnly [] _).restInvariant ((powerOn_restInvariant ha).ports _ _ _)

/-! ## The obligations -/

/-- Settles O59: the three kinds of answer of a command; a PUSH keeps `LoopInvariant` through its run loop, whose last step
shuts the gate. -/
theorem stepKeepsInvariant : Obligations.StepKeepsInvariant := by
  intro s t hs h
  obtain ⟨rest, hr | ⟨i, hi⟩⟩ := step_next h
  · exact hr.restInvariant (hs.ports _ _ _)
  · exact exec_restInvariant (hs.ports _ _ _) hi

/-- Settles O19: of the three kinds of answer only the first is left, and a command always answers. -/
theorem readOnlyCommandsFrame : Obligations.ReadOnlyCommandsFrame := by
  intro i s hpush hreset
  obtain ⟨t, h, -⟩ := exec_total i s
  rcases exec_next h with ⟨r, rfl⟩ | ⟨o, u, hi, -⟩ | ⟨o, hi, -⟩
  · exact ⟨r, h⟩
  · exact absurd hi (hpush o)
  · exact absurd hi (hreset o)

/-- Settles O20: a frame that is no command is refused, and every command keeps the platform. -/
theorem platformNeverWritten : Obligations.PlatformNeverWritten := by
  intro s t h
  obtain ⟨rest, ⟨r, rfl⟩ | ⟨i, hi⟩⟩ := step_next h
  · rfl
  · obtain ⟨u, hu, hplat⟩ := exec_total i { s with cmdPort := rest }
    cases hi.symm.trans hu
    exact hplat

/-- Settles O21: only a PUSH writes the counters, and its effect lowers neither. -/
theorem countersNeverDecrease : Obligations.CountersNeverDecrease := by
  intro i s t hreset hle h
  rcases exec_next h with ⟨r, rfl⟩ | ⟨o, u, -, -, he, rfl⟩ | ⟨o, hi, -⟩
  · exact ⟨le_rfl, le_rfl, hle⟩
  · simpa using pushEffect_counters he hle
  · exact absurd hi (hreset o)

/-- Settles O58: under an admitted configuration the threshold is positive, so with nothing pending the gate is shut. -/
theorem powerOnMeetsInvariant : Obligations.PowerOnMeetsInvariant := fun _ => powerOn_restInvariant

theorem resetPlatform_admitted : resetPlatform.admitted = true := by decide +kernel

/-- Settles O57: the platform of `State.reset` has an admitted configuration. -/
theorem resetMeetsInvariant : Obligations.ResetMeetsInvariant := powerOn_restInvariant resetPlatform_admitted

/-- A RESET without operands under an admitted configuration restores the engine and responds (46_query_control.md R237). -/
theorem execReset_bare {s : State} (ha : s.plat.admitted = true) :
    exec (.reset bareOperands) s = .next (respond [] (resetEngine s)) := by
  have hpass : firstFailure (resetChecks bareOperands) = none := by decide
  calc exec (.reset bareOperands) s
      = .next (respond [] (if configAdmitted s then resetEngine s else s)) := complete_pure hpass
    _ = .next (respond [] (resetEngine s)) := by rw [configAdmitted, ha, if_pos rfl]

/-- Settles O18: both ways into the reset state go through the values of `State.powerOn`. -/
theorem resetStateValues : Obligations.ResetStateValues := by
  refine ⟨rfl, fun u hu => ?_⟩
  rcases hu with hu | ⟨s, ha, h, -⟩
  · rw [hu]
    exact ⟨rfl, rfl, rfl, rfl, rfl, rfl, rfl, rfl, rfl⟩
  · cases (execReset_bare ha).symm.trans h
    exact ⟨rfl, rfl, rfl, rfl, rfl, rfl, rfl, rfl, rfl⟩

end Sys2Proof.Machine
end

section
/-!
PROOFS. A window read after a chunk is stored: the buffer is then the newest cells of the old cells followed by the chunk,
and an absolute index names the same place of that sequence before and after. The obligations of 20_memory.md.
-/

namespace Sys2Proof.Machine

/-! ## What a window read answers (20_memory.md R62) -/

theorem memRead_eq_ok_iff {s : State} {a : Int} {n : Nat} {x : List Binary64} :
    memRead s a n = .ok x ↔
      (bufferBase s ≤ a ∧ a + n ≤ s.pushed) ∧ x = (s.buf.drop (a - bufferBase s).toNat).take n := by
  by_cases h : bufferBase s ≤ a ∧ a + n ≤ s.pushed
  · rw [memRead_eq_ok h, Except.ok.injEq, eq_comm]
    exact (and_iff_right h).symm
  · simp [memRead_eq_error h, h]

/-! ## A window read after a chunk is stored (42_sample_buffer.md R141, R142) -/

/-- What `memWrite` keeps of a full buffer is the old cells followed by the chunk, without as many of the oldest as the
chunk is long. -/
theorem memWrite_eq_drop {b : Nat} {m : List Binary64} (c : List Binary64) (h : m.length = b) :
    memWrite b m c = (m ++ c).drop c.length := by
  unfold memWrite
  split
  · exact (List.drop_append_of_le_length (by omega)).symm
  · rw [List.drop_append, List.drop_eq_nil_of_le (show m.length ≤ c.length by omega), List.nil_append, h]

/-- The oldest retained sample moves on by the samples counted. -/
theorem bufferBase_pushSamples (c : List Binary64) (s : State) :
    bufferBase (pushSamples c s) = bufferBase s + countedSamples s.plat c.length := by
  simp only [bufferBase, pushSamples_pushed, pushSamples_plat]
  omega

/-- After a chunk of at most `B` samples a retained window is read from the old cells followed by the chunk, at the place
its absolute index had before. -/
theorem memRead_pushSamples {s : State} {c : List Binary64} {a : Int} {n : Nat}
    (hbuf : s.buf.length = s.plat.bufferLength) (hc : c.length ≤ s.plat.bufferLength)
    (hlow : bufferBase s + c.length ≤ a) (hhigh : a + n ≤ s.pushed + c.length) :
    memRead (pushSamples c s) a n = .ok (((s.buf ++ c).drop (a - bufferBase s).toNat).take n) := by
  have hcounted : countedSamples s.plat c.length = c.length := Nat.min_eq_left hc
  have hbase : bufferBase (pushSamples c s) = bufferBase s + c.length := by rw [bufferBase_pushSamples, hcounted]
  have hplace : c.length + (a - (bufferBase s + c.length)).toNat = (a - bufferBase s).toNat := by omega
  have hpushed : a + n ≤ (pushSamples c s).pushed := by rw [pushSamples_pushed, hcounted]; omega
  rw [memRead_eq_ok ⟨by omega, hpushed⟩, pushSamples_buf, memWrite_eq_drop c hbuf, List.drop_drop, hbase, hplace]

/-! ## The obligations -/

/-- Settles O23: the window lies within the `B` cells, so it has all its `n` samples. -/
theorem windowReadDefined : Obligations.WindowReadDefined := by
  intro s a n hbuf
  refine ⟨fun h => ⟨_, memRead_eq_ok h, ?_, fun j hj => ?_⟩, memRead_eq_error⟩
  · simp only [List.length_take, List.length_drop, bufferBase]
    omega
  · rw [List.getElem?_take_of_lt hj, List.getElem?_drop, bufferBase]

/-- Settles O24: after a chunk of at most `B` samples the window still lies in the old cells; after a longer one only an
empty window is retained. -/
theorem retainedSamplesKeepIndex : Obligations.RetainedSamplesKeepIndex := by
  intro s c x a n hbuf hread hkept
  obtain ⟨⟨hlow, hhigh⟩, rfl⟩ := memRead_eq_ok_iff.1 hread
  have hbase : bufferBase s + s.plat.bufferLength = s.pushed := by simp only [bufferBase]; omega
  rcases le_total c.length s.plat.bufferLength with hc | hc
  · have hcounted : countedSamples s.plat c.length = c.length := Nat.min_eq_left hc
    rw [bufferBase_pushSamples, hcounted] at hkept
    rw [memRead_pushSamples hbuf hc hkept (by omega), List.drop_append_of_le_length (by omega),
      List.take_append_of_le_length (by rw [List.length_drop]; omega)]
  · have hcounted : countedSamples s.plat c.length = s.plat.bufferLength := Nat.min_eq_right hc
    have hempty : n = 0 := by rw [bufferBase_pushSamples, hcounted] at hkept; omega
    subst hempty
    rw [memRead_eq_ok ⟨hkept, by rw [pushSamples_pushed]; omega⟩, List.take_zero, List.take_zero]

/-- Settles O25: the chunk stands behind the `B` old cells, at the place of the old `PUSHED`. -/
theorem pushedSamplesReadBack : Obligations.PushedSamplesReadBack := by
  intro s c hbuf hc
  have hplace : ((s.pushed : Int) - bufferBase s).toNat = s.buf.length := by simp only [bufferBase]; omega
  rw [memRead_pushSamples hbuf hc (by simp only [bufferBase]; omega) le_rfl, hplace, List.drop_left, List.take_length]

end Sys2Proof.Machine
end

section
/-!
PROOF. The statements about the words of the ports (30_encoding.md): the decoder and the encoder (R81, R82, R89), byte
packing (R86) and the event frames (R90).

A frame that decodes is known by its command's opcode and operands (`decode_cons_cases`), which make up its words.  A packed
sequence is known by its bytes (`byteAt_packBytes`), which are 0 behind the last.
-/

namespace Sys2Proof

/-! ## The decoder and the encoder (30_encoding.md R81, R82, R89) -/

/-- All the decoder can do with a header and its data words. -/
theorem decode_cons_cases (h : Word) (d : List Word) :
    (∃ i, decode (h :: d) = .ok i ∧ opcodeOf i = opcField h ∧ operandsIn i = operandsOf h d) ∨
    (10 ≤ (opcField h).toNat ∧ decode (h :: d) = .error (.illegalOpcode (opcField h))) := by
  simp only [decode]
  split
  case h_11 => -- the opcode is none of the table's
    refine .inr ⟨?_, rfl⟩
    simp only [imp_false] at *
    omega
  all_goals exact .inl ⟨_, rfl, BitVec.eq_of_toNat_eq (Eq.symm ‹_›), rfl⟩

theorem decode_encode (i : Instr) : decode (encode i) = .ok i := by
  cases i <;> simp [encode, decode, opcodeOf, operandsIn, headerWord_opc, headerWord_operands]

theorem encode_of_decode {f : Frame} {i : Instr} (hf : decode f = .ok i) : encode i = f := by
  cases f with
  | nil => cases hf
  | cons h d =>
    rcases decode_cons_cases h d with ⟨j, hj, hopc, hops⟩ | ⟨-, he⟩
    · cases hf.symm.trans hj
      rw [encode, hopc, hops, headerWord_fields, operandsOf]
    · cases hf.symm.trans he

/-- The opcode of a command stands in the table of R82. -/
theorem opcodeOf_le (i : Instr) : (opcodeOf i).toNat ≤ 9 := by cases i <;> simp [opcodeOf]

theorem opcField_toNat (h : Word) : (opcField h).toNat = h.toNat / 2 ^ 56 := by
  have := h.isLt
  rw [opcField, extract_toNat]
  omega

/-- A header whose opcode lies beyond the table of R82 is no command (R89). -/
theorem decode_of_opcode_ge {h : Word} (d : List Word) (hopc : 10 ≤ h.toNat / 2 ^ 56) :
    decode (h :: d) = .error (.illegalOpcode (opcField h)) := by
  rw [← opcField_toNat] at hopc
  rcases decode_cons_cases h d with ⟨i, -, hi, -⟩ | ⟨-, he⟩
  · have := opcodeOf_le i
    rw [hi] at this
    omega
  · exact he

/-- Settles O2: the decoder reads the four fields the encoder writes, and they make up the header. -/
theorem decodeAndEncodeAgree : Obligations.DecodeAndEncodeAgree :=
  ⟨decode_encode, fun _ _ => encode_of_decode⟩

/-- Settles O3, by the two answers of the decoder to a frame with a header. -/
theorem headerFieldsByPosition : Obligations.HeaderFieldsByPosition := by
  intro h d
  refine ⟨fun hle => ?_, fun hge => ⟨_, decode_of_opcode_ge d hge⟩⟩
  rw [← opcField_toNat] at hle ⊢
  rcases decode_cons_cases h d with ⟨i, hi, hopc, hops⟩ | ⟨hge, -⟩
  · refine ⟨i, hi, by rw [hopc], ?_⟩
    rw [hops]
    exact ⟨extract_toNat h 48 8, extract_toNat h 32 16, by simp [operandsOf], rfl⟩
  · omega

/-- Settles O1, by running the decoder on the thirteen frames. -/
theorem wordsDecodeAsWritten : Obligations.WordsDecodeAsWritten := by
  unfold Obligations.WordsDecodeAsWritten
  decide

end Sys2Proof

namespace Sys2Proof.Machine

/-! ## Byte packing (30_encoding.md R86) -/

/-- Bytes shifted into one word, the first in the least significant place. -/
def shiftBytes (bs : List Byte) : Word := bs.foldr (fun b acc => (acc <<< 8) ||| b.setWidth 64) 0

theorem shiftBytes_getLsbD : ∀ (bs : List Byte) {j : Nat}, j < 64 →
    (shiftBytes bs).getLsbD j = (bs.getD (j / 8) 0).getLsbD (j % 8)
  | [], j, _ => by simp [shiftBytes]
  | b :: bs, j, hj => by
    have hcons : shiftBytes (b :: bs) = (shiftBytes bs <<< 8) ||| b.setWidth 64 := rfl
    rw [hcons, BitVec.getLsbD_or, BitVec.getLsbD_shiftLeft, BitVec.getLsbD_setWidth]
    rcases Nat.lt_or_ge j 8 with hlt | hge
    · simp [hlt, hj, Nat.div_eq_of_lt hlt, Nat.mod_eq_of_lt hlt]
    · have hb : b.getLsbD j = false := BitVec.getLsbD_of_ge b j hge
      have hdiv : j / 8 = (j - 8) / 8 + 1 := by omega
      have hmod : j % 8 = (j - 8) % 8 := by omega
      rw [shiftBytes_getLsbD bs (by omega), hb, hdiv, hmod, List.getD_cons_succ]
      simp [hj, Nat.not_lt.2 hge]

theorem packWord_eq (bs : List Byte) : packWord bs = shiftBytes ((List.range 8).map fun i => bs.getD i 0) := by
  rw [shiftBytes, List.foldr_map, packWord]

/-- Bit `j` of a packed word is bit `j mod 8` of its byte `j div 8`. -/
theorem packWord_getLsbD (bs : List Byte) {j : Nat} (hj : j < 64) :
    (packWord bs).getLsbD j = (bs.getD (j / 8) 0).getLsbD (j % 8) := by
  have hbyte : j / 8 < 8 := by omega
  rw [packWord_eq, shiftBytes_getLsbD _ hj]
  simp [hbyte]

theorem packBytes_length (bs : List Byte) : (packBytes bs).length = wordsForBytes bs.length := by simp [packBytes]

/-- Word `w` of a packed sequence packs the bytes from the `8 w`-th on, of which there are none behind the last word. -/
theorem packBytes_getD (bs : List Byte) (w : Nat) : (packBytes bs).getD w 0 = packWord (bs.drop (8 * w)) := by
  rcases Nat.lt_or_ge w (wordsForBytes bs.length) with hlt | hge
  · simp [packBytes, hlt]
  · have hnil : bs.drop (8 * w) = [] := List.drop_eq_nil_of_le (by simp only [wordsForBytes] at hge; omega)
    rw [hnil, List.getD_eq_default _ _ (by rwa [packBytes_length])]
    decide

/-- Bit `b` of byte `k` of a packed sequence, at its place in the words. -/
theorem packBytes_getLsbD (bs : List Byte) (k : Nat) {b : Nat} (hb : b < 8) :
    ((packBytes bs).getD (k / 8) 0).getLsbD (8 * (k % 8) + b) = (bs.getD k 0).getLsbD b := by
  have hbyte : (8 * (k % 8) + b) / 8 = k % 8 := by omega
  have hplace : (8 * (k % 8) + b) % 8 = b := by omega
  rw [packBytes_getD, packWord_getLsbD _ (by omega), hbyte, hplace, List.getD_eq_getElem?_getD, List.getElem?_drop,
    Nat.div_add_mod, List.getD_eq_getElem?_getD]

/-- Byte `k` of a packed sequence is its `k`-th byte, and 0 behind the last. -/
theorem byteAt_packBytes (bs : List Byte) (k : Nat) : byteAt (packBytes bs) k = bs.getD k 0 := by
  refine BitVec.eq_of_getLsbD_eq fun b hb => ?_
  rw [byteAt, BitVec.getLsbD_extractLsb', packBytes_getLsbD bs k hb, decide_eq_true hb, Bool.true_and]

/-- Settles O4: every byte is read back where it was packed, and 0 behind the last. -/
theorem bytePackingRoundTrip : Obligations.BytePackingRoundTrip := by
  intro bs
  refine ⟨?_, packBytes_length bs, fun k _ b hb => packBytes_getLsbD bs k hb, ?_⟩
  · rw [unpackBytes, funext (byteAt_packBytes bs)]
    exact List.ext_getElem (by simp) fun k _ hk => by simp [hk]
  · simp [paddingIsZero, byteAt_packBytes]

/-! ## The event frames (30_encoding.md R90) -/

/-- The number word 0 of an event frame is: `KIND`, `CAUSE` and `NBYTES` at the places of R90. -/
theorem eventHead_toNat (kind cause : BitVec 2) {nbytes : Nat} (h : nbytes < 2 ^ 32) :
    (eventHead kind cause nbytes).toNat = kind.toNat * 2 ^ 62 + cause.toNat * 2 ^ 60 + nbytes := by
  have hcause := cause.isLt
  have hbytes : (BitVec.ofNat 32 nbytes).toNat = nbytes := by rw [BitVec.toNat_ofNat, Nat.mod_eq_of_lt h]
  simp only [eventHead, BitVec.toNat_append, hbytes]
  rw [← Nat.shiftLeft_add_eq_or_of_lt h, ← Nat.shiftLeft_add_eq_or_of_lt (by decide : (0 : BitVec 28).toNat < 2 ^ 28),
    ← Nat.shiftLeft_add_eq_or_of_lt hcause]
  have hzeros : (0 : BitVec 28).toNat = 0 := rfl
  simp only [Nat.shiftLeft_eq, hzeros]
  omega

theorem messageHead_eq {np : Nat} (h : np < 2 ^ 31) : eventHead 2 0 np = BitVec.ofNat 64 (2 ^ 63 + np) := by
  apply BitVec.eq_of_toNat_eq
  have hkind : (2 : BitVec 2).toNat = 2 := rfl
  have hcause : (0 : BitVec 2).toNat = 0 := rfl
  rw [eventHead_toNat 2 0 (by omega), hkind, hcause, BitVec.toNat_ofNat]
  omega

theorem errorFrame_eq (np n : Nat) (c : Cause) :
    eventFrame np (.error n c) = [eventHead 3 (causeCode c) 0, BitVec.ofNat 64 n] := by
  rw [eventFrame, BitVec.ofInt_natCast]

/-- Settles O5: the head of a MESSAGE by its number, the constant heads as they are. -/
theorem eventFrameWords : Obligations.EventFrameWords := by
  intro np i n p hnp
  exact ⟨rfl, errorFrame_eq np n .missedWindow, errorFrame_eq np n .uncorrectable,
    errorFrame_eq np n .validationMismatch, by rw [eventFrame, messageHead_eq hnp]⟩

end Sys2Proof.Machine
end

section
/-!
PROOF. The statements about the status of every frame (30_encoding.md R88, R89).

The checks a command runs are compared once with the rows of the table of R88 (`firstFailure_checksOf`); every statement
about a status reads it off those rows.
-/

namespace Sys2Proof.Machine

/-! ## The checks a command runs -/

/-- The checks of a command, in the order it makes them. -/
def checksOf (i : Instr) (s : State) : List (Option Status) :=
  match i with
  | .nop o | .rdtrig o | .rdwlen o | .rddlen o | .rdcerr o | .rdmaxc o => bareChecks o s
  | .push o => pushChecks o s
  | .encode o => encodeChecks o s
  | .reset o => resetChecks o
  | .goertzel o => goertzelChecks o s

/-- A command is its checks and then an effect that ends in an OK response and does not itself write the response port. -/
theorem exec_eq_complete (i : Instr) (s : State) :
    ∃ eff, exec i s = complete (checksOf i s) eff s ∧
      (firstFailure (checksOf i s) = none → ∃ data t, eff s = .ok (respond data t) ∧ t.respPort = s.respPort) := by
  cases i with
  | push o =>
    simp only [exec, execPush, checksOf]
    refine ⟨_, rfl, fun hpass => ?_⟩
    obtain ⟨t, ht, hkept⟩ := pushEffect_total (chunkOf s.plat.num o) (admitted_of_pushChecks hpass)
    exact ⟨[], t, by simp only [ht], hkept.respPort⟩
  | reset o =>
    simp only [exec, execReset, checksOf]
    exact ⟨_, rfl, fun _ => ⟨[], _, rfl, by split <;> rfl⟩⟩
  | nop o | rdtrig o | rdwlen o | rddlen o | rdcerr o | rdmaxc o | encode o | goertzel o =>
    simp only [exec, execNop, execRdtrig, execRdwlen, execRddlen, execRdcerr, execRdmaxc, execEncode, execGoertzel,
      answerQuery, checksOf]
    exact ⟨_, rfl, fun _ => ⟨_, s, rfl, rfl⟩⟩

theorem exec_of_failure {i : Instr} {s : State} {st : Status} (h : firstFailure (checksOf i s) = some st) :
    exec i s = .next (refuse st s) := by
  obtain ⟨eff, hexec, -⟩ := exec_eq_complete i s
  rw [hexec, complete_refused h]

theorem exec_of_no_failure {i : Instr} {s : State} (h : firstFailure (checksOf i s) = none) :
    ∃ t data, exec i s = .next t ∧ t.respPort = s.respPort ++ [statusWord .ok data.length :: data] := by
  obtain ⟨eff, hexec, heff⟩ := exec_eq_complete i s
  obtain ⟨data, t, he, hport⟩ := heff h
  exact ⟨respond data t, data, by rw [hexec, complete_ok h he], by rw [respond_respPort, hport]⟩

/-! ## Each check as its condition in the table of R88 -/

theorem reservedZero_bare {o : Operands} : reservedZero false false o = false ↔ o.rsv ≠ 0 ∨ o.k ≠ 0 ∨ o.n ≠ 0 := by
  simp only [reservedZero, Bool.and_eq_false_iff, Bool.false_or, beq_eq_false_iff_ne, or_assoc, or_comm (a := o.k ≠ 0)]

theorem reservedZero_usesN {o : Operands} : reservedZero true false o = false ↔ o.rsv ≠ 0 ∨ o.k ≠ 0 := by
  simp [reservedZero, imp_iff_not_or]

theorem reservedZero_usesBoth {o : Operands} : reservedZero true true o = false ↔ o.rsv ≠ 0 := by
  simp [reservedZero]

theorem isFiniteWord_eq_false {w : Word} : isFiniteWord w = false ↔ notANumber w := by
  simp [isFiniteWord, notANumber, exponentField]

theorem allFinite_eq_false {ws : List Word} : allFinite ws = false ↔ ∃ w ∈ ws, notANumber w := by
  simp [allFinite, isFiniteWord_eq_false]

theorem withinCounterLimit_eq_false {o : Operands} {s : State} :
    withinCounterLimit o s = false ↔ counterAtLimit (.push o) s := by
  simp [withinCounterLimit, counterAtLimit, countedSamples, bufferLength]

/-- No byte stands behind the last word. -/
theorem byteAt_behind {ws : List Word} {k : Nat} (h : 8 * ws.length ≤ k) : byteAt ws k = 0 := by
  rw [byteAt, List.getD_eq_default _ _ (by omega)]
  simp

/-- The bytes of the first `m` words. -/
theorem byteAt_take {ws : List Word} {m k : Nat} (h : k < 8 * m) : byteAt (ws.take m) k = byteAt ws k := by
  rw [byteAt, byteAt, List.getD_eq_getElem?_getD, List.getD_eq_getElem?_getD, List.getElem?_take_of_lt (by omega)]

theorem paddingIsZero_eq_false {ws : List Word} {m : Nat} :
    paddingIsZero ws m = false ↔ ∃ k, m ≤ k ∧ byteAt ws k ≠ 0 := by
  simp only [paddingIsZero, List.all_eq_false, List.mem_range, beq_iff_eq]
  constructor
  · rintro ⟨j, -, hj⟩
    exact ⟨m + j, by omega, hj⟩
  · rintro ⟨k, hk, hne⟩
    have hlt : k < 8 * ws.length := lt_of_not_ge fun hge => hne (byteAt_behind hge)
    exact ⟨k - m, by omega, by rwa [Nat.add_sub_cancel' hk]⟩

theorem payloadPadding_eq_false {o : Operands} :
    paddingIsZero (payloadWords o) o.n.toNat = false ↔ paddingNonzero (.encode o) := by
  rw [paddingIsZero_eq_false]
  constructor
  · rintro ⟨k, hk, hne⟩
    have hlt : k < 8 * wordsForBytes o.n.toNat := by
      refine lt_of_not_ge fun hge => hne (byteAt_behind ?_)
      have := List.length_take_le (wordsForBytes o.n.toNat) o.data
      simp only [payloadWords]
      omega
    rw [payloadWords, byteAt_take hlt] at hne
    exact ⟨k, hk, hlt, hne⟩
  · rintro ⟨k, hk, hlt, hne⟩
    exact ⟨k, hk, by rwa [payloadWords, byteAt_take (m := wordsForBytes o.n.toNat) hlt]⟩

theorem data_eq_false {ws : List Word} : (ws.length == 0) = false ↔ ws ≠ [] := by simp

theorem pushCount_eq_false {o : Operands} (s : State) :
    (o.data.length == pushWords o) = false ↔ countWrong (.push o) s := by
  simp [countWrong, pushWords]

theorem encodeCount_eq_false {o : Operands} {s : State} :
    (o.n.toNat == s.plat.cfg.np && o.data.length == encodeWords o) = false ↔ countWrong (.encode o) s := by
  simp [countWrong, encodeWords, wordsForBytes, imp_iff_not_or]

theorem goertzelCount_eq_false {o : Operands} (s : State) :
    (o.n.toNat != 0 && o.data.length == goertzelWords o) = false ↔ countWrong (.goertzel o) s := by
  simp [countWrong, goertzelWords, imp_iff_not_or]

/-! ## The table of R88 -/

open Classical in
/-- A row of the table: its status where its condition holds. -/
noncomputable def tableRow (P : Prop) (st : Status) : Option Status := if P then some st else none

theorem tableRow_of_false (st : Status) : tableRow False st = none := by simp [tableRow]

/-- A check that fails where a row's condition holds is that row. -/
theorem check_eq_tableRow {b : Bool} {P : Prop} (h : b = false ↔ P) (st : Status) : check b st = tableRow P st := by
  cases b <;> simp_all [tableRow]

/-- The rows of the table of R88 for a command in a state, in their order. -/
noncomputable def tableRows (i : Instr) (s : State) : List (Option Status) :=
  [tableRow (reservedNonzero i) .reservedNonzero,
   tableRow (configRefused i s) .badConfig,
   tableRow (countWrong i s) .badCount,
   tableRow (paddingNonzero i) .reservedNonzero,
   tableRow (valueNotFinite i) .badValue,
   tableRow (counterAtLimit i s) .counterLimit]

/-- A command's checks are the rows of the table that can refuse it: the others are `none`, which decides nothing. -/
theorem firstFailure_checksOf (i : Instr) (s : State) : firstFailure (checksOf i s) = firstFailure (tableRows i s) := by
  have hconfig : check (configAdmitted s) .badConfig = tableRow (s.plat.admitted = false) .badConfig :=
    check_eq_tableRow Iff.rfl _
  cases i with
  | nop o | rdtrig o | rdwlen o | rddlen o | rdcerr o | rdmaxc o =>
    simp only [checksOf, bareChecks, hconfig, check_eq_tableRow reservedZero_bare, check_eq_tableRow data_eq_false,
      tableRows, paddingNonzero, valueNotFinite, counterAtLimit, tableRow_of_false]
    rfl
  | push o =>
    simp only [checksOf, pushChecks, hconfig, check_eq_tableRow reservedZero_usesN,
      check_eq_tableRow (pushCount_eq_false s), check_eq_tableRow allFinite_eq_false,
      check_eq_tableRow withinCounterLimit_eq_false, tableRows, paddingNonzero, tableRow_of_false]
    rfl
  | encode o =>
    simp only [checksOf, encodeChecks, hconfig, check_eq_tableRow reservedZero_usesN,
      check_eq_tableRow encodeCount_eq_false, check_eq_tableRow payloadPadding_eq_false,
      check_eq_tableRow isFiniteWord_eq_false, tableRows, counterAtLimit, tableRow_of_false]
    rfl
  | reset o =>
    simp only [checksOf, resetChecks, check_eq_tableRow reservedZero_bare, check_eq_tableRow data_eq_false,
      tableRows, configRefused, paddingNonzero, valueNotFinite, counterAtLimit, tableRow_of_false]
    rfl
  | goertzel o =>
    simp only [checksOf, goertzelChecks, hconfig, check_eq_tableRow reservedZero_usesBoth,
      check_eq_tableRow (goertzelCount_eq_false s), check_eq_tableRow allFinite_eq_false,
      tableRows, paddingNonzero, counterAtLimit, tableRow_of_false]
    rfl

@[simp] theorem firstFailure_row_of_holds {P : Prop} (h : P) (st : Status) (cs : List (Option Status)) :
    firstFailure (tableRow P st :: cs) = some st := by
  simp [tableRow, h]

@[simp] theorem firstFailure_row_of_fails {P : Prop} (h : ¬ P) (st : Status) (cs : List (Option Status)) :
    firstFailure (tableRow P st :: cs) = firstFailure cs := by
  simp [tableRow, h]

theorem firstFailure_tableRows_eq_none_iff {i : Instr} {s : State} :
    firstFailure (tableRows i s) = none ↔ accepted i s := by
  simp [firstFailure_eq_none_iff, tableRows, tableRow, accepted]

/-- No row has the status OK. -/
theorem firstFailure_tableRows_ne_ok (i : Instr) (s : State) : firstFailure (tableRows i s) ≠ some .ok := by
  intro h
  obtain ⟨c, hc, rfl⟩ := List.exists_of_findSome?_eq_some h
  simp [tableRows, tableRow] at hc

/-! ## Well-formed commands -/

/-- The counts are wrong by the frame alone (30_encoding.md R82), whatever the configured payload length. -/
def frameCountWrong : Instr → Prop
  | .push o => o.data.length ≠ o.n.toNat
  | .encode o => o.data.length ≠ (o.n.toNat + 7) / 8 + 1
  | .goertzel o => o.n.toNat = 0 ∨ o.data.length ≠ o.n.toNat + o.k.toNat
  | .nop o | .rdtrig o | .rdwlen o | .rddlen o | .rdcerr o | .rdmaxc o | .reset o => o.data ≠ []

/-- Only of an ENCODE do the counts depend on the configuration. -/
theorem countWrong_iff {i : Instr} {s : State} :
    countWrong i s ↔ frameCountWrong i ∨ ∃ o, i = .encode o ∧ o.n.toNat ≠ s.plat.cfg.np := by
  cases i <;> simp [countWrong, frameCountWrong, or_comm]

/-- A command is ill-formed iff one of the rows that look at its frame alone holds. -/
theorem wellFormed_eq_false {i : Instr} :
    i.wellFormed = false ↔ reservedNonzero i ∨ frameCountWrong i ∨ paddingNonzero i ∨ valueNotFinite i := by
  cases i with
  | nop o | rdtrig o | rdwlen o | rddlen o | rdcerr o | rdmaxc o | reset o =>
    simp only [Instr.wellFormed, Bool.and_eq_false_iff, reservedZero_bare, data_eq_false, reservedNonzero,
      frameCountWrong, paddingNonzero, valueNotFinite, or_false]
  | push o =>
    simp only [Instr.wellFormed, Bool.and_eq_false_iff, reservedZero_usesN, beq_eq_false_iff_ne, allFinite_eq_false,
      reservedNonzero, frameCountWrong, paddingNonzero, valueNotFinite, pushWords, false_or, or_assoc]
  | encode o =>
    simp only [Instr.wellFormed, Bool.and_eq_false_iff, reservedZero_usesN, beq_eq_false_iff_ne, payloadPadding_eq_false,
      isFiniteWord_eq_false, reservedNonzero, frameCountWrong, valueNotFinite, encodeWords, peakWord, wordsForBytes,
      or_assoc]
  | goertzel o =>
    simp only [Instr.wellFormed, Bool.and_eq_false_iff, reservedZero_usesBoth, bne_eq_false_iff_eq, beq_eq_false_iff_ne,
      allFinite_eq_false, reservedNonzero, frameCountWrong, paddingNonzero, valueNotFinite, goertzelWords, false_or,
      or_assoc]

/-- Beyond its form, an accepted command asks of the machine an admitted configuration, the configured payload length and
room in the counter. -/
theorem accepted_iff {i : Instr} {s : State} :
    accepted i s ↔ i.wellFormed = true ∧ ¬ configRefused i s ∧ ¬ counterAtLimit i s ∧
      ∀ o, i = .encode o → o.n.toNat = s.plat.cfg.np := by
  have hlength : (∀ o, i = .encode o → o.n.toNat = s.plat.cfg.np) ↔
      ¬ ∃ o, i = .encode o ∧ o.n.toNat ≠ s.plat.cfg.np := by
    simp only [ne_eq, not_exists, not_and, not_not]
  rw [hlength, ← Bool.not_eq_false, wellFormed_eq_false, accepted, countWrong_iff]
  simp only [not_or, and_assoc, and_left_comm, and_comm]

/-! ## The answers -/

/-- The first row whose condition holds answers the command with its status, `w` being its word. -/
theorem answersOnly_of_row {i : Instr} {s : State} {st : Status} {w : Word} (hw : statusWord st 0 = w)
    (h : firstFailure (tableRows i s) = some st) : answersOnly i s w :=
  hw ▸ exec_of_failure ((firstFailure_checksOf i s).trans h)

theorem responds_of_accepted {i : Instr} {s : State} (h : accepted i s) :
    ∃ t data, exec i s = .next t ∧ t.respPort = s.respPort ++ [statusWord .ok data.length :: data] :=
  exec_of_no_failure ((firstFailure_checksOf i s).trans (firstFailure_tableRows_eq_none_iff.2 h))

/-- A frame that is no command is answered `ILLEGAL_OPCODE` (30_encoding.md R89). -/
theorem step_of_decode_error {s : State} {f : Frame} {rest : List Frame} {e : DecodeError}
    (hport : s.cmdPort = f :: rest) (he : decode f = .error e) :
    step s = .next (refuse .illegalOpcode { s with cmdPort := rest }) := by
  simp only [step, hport, he]
  cases e <;> rfl

/-! ## The obligations -/

/-- Settles O8: a frame that is no command by the decoder's answer, a command by the first row of the table that holds. -/
theorem statusTable : Obligations.StatusTable := by
  refine ⟨fun s f rest hport hf => ?_, fun i s => ⟨?_, ?_, ?_, ?_, ?_, ?_, responds_of_accepted⟩⟩
  · obtain ⟨e, he⟩ : ∃ e, decode f = .error e := by
      rcases hf with rfl | ⟨h, d, rfl, hopc⟩
      · exact ⟨_, rfl⟩
      · exact ⟨_, decode_of_opcode_ge d hopc⟩
    exact step_of_decode_error hport he
  · intro hreserved
    exact answersOnly_of_row (st := .reservedNonzero) (by decide) (by simp [tableRows, hreserved])
  · intro hreserved hconfig
    exact answersOnly_of_row (st := .badConfig) (by decide) (by simp [tableRows, hreserved, hconfig])
  · intro hreserved hconfig hcount
    exact answersOnly_of_row (st := .badCount) (by decide) (by simp [tableRows, hreserved, hconfig, hcount])
  · intro hreserved hconfig hcount hpadding
    exact answersOnly_of_row (st := .reservedNonzero) (by decide)
      (by simp [tableRows, hreserved, hconfig, hcount, hpadding])
  · intro hreserved hconfig hcount hpadding hvalue
    exact answersOnly_of_row (st := .badValue) (by decide)
      (by simp [tableRows, hreserved, hconfig, hcount, hpadding, hvalue])
  · intro hreserved hconfig hcount hpadding hvalue hlimit
    exact answersOnly_of_row (st := .counterLimit) (by decide)
      (by simp [tableRows, hreserved, hconfig, hcount, hpadding, hvalue, hlimit])

/-- Settles O10: an ill-formed command meets a row of the table, and no row has the status OK. -/
theorem wellFormedCommandAccepted : Obligations.WellFormedCommandAccepted := by
  intro i s
  refine ⟨fun hwf hconfig hlimit hlength => responds_of_accepted (accepted_iff.2 ⟨hwf, hconfig, hlimit, hlength⟩),
    fun hill => ?_⟩
  cases h : firstFailure (tableRows i s) with
  | none =>
    obtain ⟨hwf, -⟩ := accepted_iff.1 (firstFailure_tableRows_eq_none_iff.1 h)
    rw [hill] at hwf
    cases hwf
  | some st =>
    refine ⟨st, ?_, answersOnly_of_row rfl h⟩
    rintro rfl
    exact firstFailure_tableRows_ne_ok i s h

end Sys2Proof.Machine
end

section
/-!
PROOF. The statements about the word length, the window lengths and the tone tables (40_tone_table_geometry.md).

The word length is a natural floor, of the real product over the reals and of what `floorProduct_cases` names in the
machine; the two bounds of R100 are those of that floor.
-/

namespace Sys2Proof.Machine

/-! ## The word length as a natural floor (40_tone_table_geometry.md R100) -/

/-- Over the reals the word length is the natural floor of rate times duration, also of a negative product (log 23). -/
theorem wordLength_real (c : Config ℝ) : wordLength realNumerics c = ⌊c.fs * c.tw⌋₊ := Int.floor_toNat _

/-- Every `NUM` a platform can choose floors its own product by `floorProduct` (log 7). -/
theorem num_floorMul (p : Platform) : p.num.floorMul = floorProduct p.num.mul := by
  unfold Platform.num
  cases p.numerics <;> rfl

theorem platform_wordLength (p : Platform) :
    p.wordLength = (floorProduct p.num.mul p.cfg.fs p.cfg.tw).toNat := by
  rw [← num_floorMul]; rfl

section
variable {p : Platform} (hfs : isFiniteWord p.cfg.fs.bits = true) (htw : isFiniteWord p.cfg.tw.bits = true)
include hfs htw

/-- Where the product is in range and `NUM` gives a finite number for it, `W` is the natural floor of that number. -/
theorem wordLength_of_inRange
    (hrange : (mulRounded (unpack p.cfg.fs.bits) (unpack p.cfg.tw.bits)).inRange = true)
    (hfinite : isFiniteWord (p.num.mul p.cfg.fs p.cfg.tw).bits = true) :
    p.wordLength = ⌊realOfBits (p.num.mul p.cfg.fs p.cfg.tw).bits⌋₊ := by
  rw [platform_wordLength, ← Int.floor_toNat]
  rcases floorProduct_cases p.num.mul hfs htw with ⟨-, -, hfloor⟩ | ⟨hnot, -⟩
  · rw [hfloor]
  · exact absurd ⟨hrange, hfinite⟩ hnot

/-- Where the product is out of range, `W` is the natural floor of the exact product. -/
theorem wordLength_of_beyond
    (hbeyond : (mulRounded (unpack p.cfg.fs.bits) (unpack p.cfg.tw.bits)).inRange = false) :
    p.wordLength = ⌊realOfBits p.cfg.fs.bits * realOfBits p.cfg.tw.bits⌋₊ := by
  rw [platform_wordLength, ← Int.floor_toNat]
  rcases floorProduct_cases p.num.mul hfs htw with ⟨hrange, -, -⟩ | ⟨-, hfloor⟩
  · rw [hbeyond] at hrange; cases hrange
  · rw [hfloor]

/-- A product out of range is never admitted (00_scope.md R11): a negative one has `W = 0`, and a positive one is at least
`2 ^ 1023`, so that `3 × W < 2 ^ 31` fails. -/
theorem not_admitted_of_beyond
    (hbeyond : (mulRounded (unpack p.cfg.fs.bits) (unpack p.cfg.tw.bits)).inRange = false) : p.admitted = false := by
  refine Bool.eq_false_iff.2 fun hadmitted => ?_
  obtain ⟨hmin, -, hmax⟩ : 4 ≤ p.wordLength ∧ p.wordLength % 4 = 0 ∧ 3 * p.wordLength < 2 ^ 31 :=
    admitted_wordLength hadmitted
  rw [wordLength_of_beyond hfs htw hbeyond] at hmin hmax
  have hlarge := mulRounded_beyond hbeyond
  generalize realOfBits p.cfg.fs.bits * realOfBits p.cfg.tw.bits = x at hmin hmax hlarge
  have hpos : 0 < x := Nat.pos_of_floor_pos (by omega)
  have hsmall : x < (2 ^ 31 : ℕ) := (Nat.floor_lt hpos.le).1 (by omega)
  have hpow : ((2 ^ 31 : ℕ) : ℝ) ≤ 2 ^ (1023 : ℤ) := by
    rw [Nat.cast_pow, Nat.cast_ofNat, ← zpow_natCast]
    exact zpow_le_zpow_right₀ one_le_two (by norm_num)
  rw [abs_of_pos hpos] at hlarge
  exact absurd hsmall (hpow.trans hlarge).not_gt

end

/-! ## The tones of the progression (40_tone_table_geometry.md R106) -/

/-- Over the reals tone `k` is the number of the progression, under either spacing. -/
theorem tone_real (c : Config ℝ) (k : Nat) : tone realNumerics c k = realTone c k := by
  unfold tone realTone
  cases c.spacing <;> simp [realNumerics]

/-! ## The obligations -/

/-- Settles O30: every word length spoken of is a natural floor, and the bounds are those of the floor. -/
theorem wordLengthIsFloor : Obligations.WordLengthIsFloor := by
  refine ⟨fun c hc => ?_, fun c hfs htw => ?_, fun p hfs htw => ⟨fun hrange x hx hfinite hnonneg => ?_, fun hbeyond =>
    ⟨not_admitted_of_beyond hfs htw hbeyond, fun x hx hnonneg => ?_⟩⟩, fun T num c => admitted_wordLength⟩
  · rw [wordLength_real]
    exact ⟨Nat.floor_le hc, Nat.lt_floor_add_one _⟩
  · have hproduct : (16000 : ℝ) * (8 / 1000) = (128 : ℕ) := by norm_num
    rw [wordLength_real, hfs, htw, hproduct, Nat.floor_natCast]
  · subst hx
    rw [wordLength_of_inRange hfs htw hrange hfinite]
    exact ⟨Nat.floor_le hnonneg, Nat.lt_floor_add_one _⟩
  · subst hx
    rw [wordLength_of_beyond hfs htw hbeyond]
    exact ⟨Nat.floor_le hnonneg, Nat.lt_floor_add_one _⟩

/-- Settles O31: `DOOR`, `B` and `LTOT` are their formulas; that `WO` divides `W` exactly, and so `H = 12`, is admission. -/
theorem admittedGeometry : Obligations.AdmittedGeometry := by
  intro T num c hadmitted
  obtain ⟨-, hdiv, -⟩ := admitted_wordLength hadmitted
  have hdoor : doorLength num c = 4 * windowOffset num c := (Nat.mul_div_cancel' (Nat.dvd_of_mod_eq_zero hdiv)).symm
  exact ⟨rfl, hdoor, windowOffset_pos hadmitted, rfl, admitted_historyLength hadmitted, rfl⟩

/-- Settles O32: an entry of a table is the tone of its number, and over the reals that is the progression's. -/
theorem toneTableOverReals : Obligations.ToneTableOverReals := by
  intro c i hi
  constructor
  · simp [lowTones, lowTone, tone_real, hi]
  · simp [upTones, upTone, tone_real, hi]

end Sys2Proof.Machine
end

section
/-!
PROOF. The statements about the spectral estimator (41_goertzel.md).

The recurrence is Clenshaw's: over the reals it sums the samples against any sequence that solves its homogeneous equation
(`goertzelRecurrence_clenshaw`).  The cosines and the sines of the multiples of an angle do, and the correction of R124 reads
off the two sums; the corner cases are facts about these sums.
-/

namespace Sys2Proof.Machine

/-! ## GOERTZEL (41_goertzel.md R121, R127) -/

/-- A length that fits its field stands in an OK response as it is (30_encoding.md R87). -/
theorem statusWord_ok {m : Nat} (hm : m < 2 ^ 56) : statusWord .ok m = BitVec.ofNat 64 m := by
  refine BitVec.eq_of_toNat_eq ?_
  simp only [statusWord, statusCode, lengthField, if_pos hm, BitVec.toNat_append, BitVec.toNat_ofNat]
  rw [Nat.mod_eq_of_lt hm, Nat.mod_eq_of_lt (by omega : m < 2 ^ 64)]
  simp

/-- An accepted GOERTZEL answers its powers and changes nothing else. -/
theorem exec_goertzel_of_accepted {o : Operands} {s : State} (h : accepted (.goertzel o) s) :
    exec (.goertzel o) s = .next (respond (goertzelPowers s.plat.num s.plat.cfg o) s) :=
  complete_pure ((firstFailure_checksOf (.goertzel o) s).trans (firstFailure_tableRows_eq_none_iff.2 h))

/-- The powers of a platform, one for each word behind the window. -/
theorem goertzelPowers_eq_map (p : Platform) (o : Operands) :
    goertzelPowers p.num p.cfg o = (o.data.drop o.n.toNat).map fun f =>
      (gz1 p.num ((o.data.take o.n.toNat).map ofBits) (theta p.num (ofBits f) p.cfg.fs)).bits := by
  simp only [goertzelPowers, gz, windowOf, frequenciesOf, Platform.num_ofBits, Platform.num_toBits, List.map_map]
  rfl

/-- Settles O33: no row of the table of R88 refuses the command, and as many powers are answered as there are frequencies. -/
theorem goertzelAnswersPowers : Obligations.GoertzelAnswersPowers := by
  intro o s hadmitted hrsv hn hlength hfinite
  have haccepted : accepted (.goertzel o) s :=
    ⟨by simpa [reservedNonzero] using hrsv, by simp [configRefused, hadmitted], by simp [countWrong, hn, hlength], id,
      by simpa [valueNotFinite] using hfinite, id⟩
  have hcount : (goertzelPowers s.plat.num s.plat.cfg o).length = o.k.toNat := by
    simp [goertzelPowers_eq_map, hlength]
  have hstatus : statusWord .ok (goertzelPowers s.plat.num s.plat.cfg o).length = BitVec.ofNat 64 o.k.toNat := by
    rw [hcount]
    exact statusWord_ok (by omega)
  rw [exec_goertzel_of_accepted haccepted, respond, hstatus, goertzelPowers_eq_map]
  rfl

/-! ## The recurrence over any `NUM` (41_goertzel.md R123) -/

/-- From any two starting values the recurrence walks along the sequence that solves it. -/
theorem goertzelRecurrence_of_solves {T : Type} (num : Numerics T) (c : T) :
    ∀ (x : List T) (q : Nat → T),
      (∀ n v, x[n]? = some v → q (n + 2) = num.sub (num.add v (num.mul c (q (n + 1)))) (q n)) →
      goertzelRecurrence num c x (q 1) (q 0) = (q (x.length + 1), q x.length)
  | [], _, _ => rfl
  | v :: x, q, hq => by
    rw [goertzelRecurrence, ← hq 0 v rfl]
    exact goertzelRecurrence_of_solves num c x (fun n => q (n + 1)) fun n w hw => hq (n + 1) w hw

/-- Settles O34: the walk starts at the two zeros. -/
theorem goertzelRecurrenceSteps : Obligations.GoertzelRecurrenceSteps := by
  intro T num θ x q h0 h1 hq
  rw [← goertzelRecurrence_of_solves num _ x q hq, h0, h1]

/-! ## Sums over a window -/

/-- The sum of the samples, each with its weight. -/
noncomputable def weightedSum (x : List ℝ) (w : Nat → ℝ) : ℝ := ∑ n ∈ Finset.range x.length, x.getD n 0 * w n

@[simp] theorem weightedSum_nil (w : Nat → ℝ) : weightedSum [] w = 0 := rfl

@[simp] theorem weightedSum_cons (v : ℝ) (x : List ℝ) (w : Nat → ℝ) :
    weightedSum (v :: x) w = v * w 0 + weightedSum x fun n => w (n + 1) := by
  simp [weightedSum, Finset.sum_range_succ', add_comm]

@[simp] theorem weightedSum_replicate_zero (m : Nat) (w : Nat → ℝ) : weightedSum (List.replicate m 0) w = 0 := by
  induction m generalizing w with
  | zero => rfl
  | succ m ih => simp [List.replicate_succ, ih]

theorem weightedSum_one (x : List ℝ) : (weightedSum x fun _ => 1) = x.sum := by
  induction x with
  | nil => rfl
  | cons v x ih => simp [ih]

@[simp] theorem weightedSum_zero (x : List ℝ) : (weightedSum x fun _ => 0) = 0 := by simp [weightedSum]

theorem weightedSum_neg (x : List ℝ) (w : Nat → ℝ) : (weightedSum x fun n => -w n) = -weightedSum x w := by
  simp [weightedSum]

/-! ## The Fourier sum (41_goertzel.md R125) -/

/-- The recurrence sums the samples against a solution `w` of its homogeneous equation, from any two starting values. -/
theorem goertzelRecurrence_clenshaw (c : ℝ) : ∀ (x : List ℝ) (a b : ℝ) (w : Nat → ℝ),
    (∀ n, w (n + 2) + w n = c * w (n + 1)) →
    (goertzelRecurrence realNumerics c x a b).1 * w x.length -
        (goertzelRecurrence realNumerics c x a b).2 * w (x.length + 1) =
      a * w 0 - b * w 1 + weightedSum x fun n => w (n + 1)
  | [], a, b, w, _ => by simp [goertzelRecurrence]
  | v :: x, a, b, w, hw => by
    have ih := goertzelRecurrence_clenshaw c x (v + c * a - b) a (fun n => w (n + 1)) fun n => hw (n + 1)
    rw [weightedSum_cons]
    refine ih.trans ?_
    linear_combination (-a) * hw 0

/-- The real part of the Fourier sum. -/
noncomputable def cosSum (x : List ℝ) (θ : ℝ) : ℝ := weightedSum x fun n => Real.cos (θ * n)

/-- The negated imaginary part of the Fourier sum. -/
noncomputable def sinSum (x : List ℝ) (θ : ℝ) : ℝ := weightedSum x fun n => Real.sin (θ * n)

/-- The multiples of an angle solve the homogeneous equation under any function with this addition theorem. -/
theorem goertzelRecurrence_multiples {g : ℝ → ℝ} {θ : ℝ} (hg : ∀ t, g (t + θ) + g (t - θ) = 2 * Real.cos θ * g t)
    (x : List ℝ) :
    (goertzelRecurrence realNumerics (2 * Real.cos θ) x 0 0).1 * g (θ * (x.length - 1)) -
        (goertzelRecurrence realNumerics (2 * Real.cos θ) x 0 0).2 * g (θ * (x.length - 1) + θ) =
      weightedSum x fun n => g (θ * n) := by
  have h := goertzelRecurrence_clenshaw (2 * Real.cos θ) x 0 0 (fun n => g (θ * (n - 1))) fun n => by
    rw [← hg]
    congr 2 <;> push_cast <;> ring
  simpa [mul_sub, ← sub_eq_zero] using h

theorem cos_add_add_cos_sub (t θ : ℝ) : Real.cos (t + θ) + Real.cos (t - θ) = 2 * Real.cos θ * Real.cos t := by
  rw [Real.cos_add, Real.cos_sub]; ring

theorem sin_add_add_sin_sub (t θ : ℝ) : Real.sin (t + θ) + Real.sin (t - θ) = 2 * Real.cos θ * Real.sin t := by
  rw [Real.sin_add, Real.sin_sub]; ring

theorem correctedValue_real (x : List ℝ) (θ : ℝ) : correctedValue realNumerics x θ = (cosSum x θ, -sinSum x θ) := by
  have hcos := goertzelRecurrence_multiples (cos_add_add_cos_sub · θ) x
  have hsin := goertzelRecurrence_multiples (sin_add_add_sin_sub · θ) x
  rw [Real.cos_add] at hcos
  rw [Real.sin_add] at hsin
  rw [cosSum, sinSum, ← hcos, ← hsin]
  ext <;> simp [correctedValue, expE, realNumerics] <;> ring

theorem gz1_real (x : List ℝ) (θ : ℝ) :
    gz1 realNumerics x θ = Real.sqrt 2 * Real.sqrt (cosSum x θ ^ 2 + sinSum x θ ^ 2) / x.length := by
  rw [gz1, correctedValue_real, ← Real.sqrt_mul zero_le_two]
  simp [realNumerics, sq]

/-- Settles O35: both sums are those the recurrence and its correction compute. -/
theorem goertzelIsFourierSum : Obligations.GoertzelIsFourierSum :=
  fun x θ => ⟨correctedValue_real x θ, gz1_real x θ⟩

/-! ## The corner cases (41_goertzel.md R128) -/

theorem cosSum_neg (x : List ℝ) (θ : ℝ) : cosSum x (-θ) = cosSum x θ := by simp [cosSum]

theorem sinSum_neg (x : List ℝ) (θ : ℝ) : sinSum x (-θ) = -sinSum x θ := by simp [sinSum, weightedSum_neg]

/-- Whole turns of the angle are whole turns of its multiples. -/
theorem add_turns_mul (θ : ℝ) (m : ℤ) (n : Nat) :
    (θ + m * (2 * Real.pi)) * n = θ * n + ((m * n : ℤ) : ℝ) * (2 * Real.pi) := by
  push_cast; ring

theorem cosSum_add_turns (x : List ℝ) (θ : ℝ) (m : ℤ) : cosSum x (θ + m * (2 * Real.pi)) = cosSum x θ := by
  simp only [cosSum, add_turns_mul, Real.cos_add_int_mul_two_pi]

theorem sinSum_add_turns (x : List ℝ) (θ : ℝ) (m : ℤ) : sinSum x (θ + m * (2 * Real.pi)) = sinSum x θ := by
  simp only [sinSum, add_turns_mul, Real.sin_add_int_mul_two_pi]

theorem cosSum_zero (x : List ℝ) : cosSum x 0 = x.sum := by simp [cosSum, weightedSum_one]

theorem sinSum_zero (x : List ℝ) : sinSum x 0 = 0 := by simp [sinSum]

theorem cosSum_pi (x : List ℝ) : cosSum x Real.pi = weightedSum x fun n => (-1) ^ n := by
  simp only [cosSum, mul_comm Real.pi, Real.cos_nat_mul_pi]

theorem sinSum_pi (x : List ℝ) : sinSum x Real.pi = 0 := by
  simp only [sinSum, mul_comm Real.pi, Real.sin_nat_mul_pi, weightedSum_zero]

/-- Where the Fourier sum is real, its magnitude is an absolute value. -/
theorem gz1_real_of_sinSum_eq_zero {x : List ℝ} {θ : ℝ} (h : sinSum x θ = 0) :
    gz1 realNumerics x θ = Real.sqrt 2 * |cosSum x θ| / x.length := by
  simp [gz1_real, h, Real.sqrt_sq_eq_abs]

/-- The estimate depends on the angle by the two sums alone, and on the sign of neither. -/
theorem gz1_real_congr {x : List ℝ} {θ φ : ℝ} (hcos : cosSum x θ ^ 2 = cosSum x φ ^ 2)
    (hsin : sinSum x θ ^ 2 = sinSum x φ ^ 2) : gz1 realNumerics x θ = gz1 realNumerics x φ := by
  rw [gz1_real, gz1_real, hcos, hsin]

/-- Settles O36, from the value of the two sums in each case. -/
theorem goertzelCornerCases : Obligations.GoertzelCornerCases := by
  intro x θ v m
  refine ⟨?_, ?_, ?_, ?_, ?_, ?_, ?_⟩
  · rw [gz1_real_of_sinSum_eq_zero (by simp [sinSum])]
    simp [cosSum]
  · rw [gz1_real_of_sinSum_eq_zero (by simp [sinSum])]
    simp [cosSum]
  · rw [gz1_real_of_sinSum_eq_zero (sinSum_zero x), cosSum_zero]
  · exact gz1_real_congr (by rw [cosSum_neg]) (by rw [sinSum_neg, neg_sq])
  · exact gz1_real_congr (by rw [cosSum_add_turns]) (by rw [sinSum_add_turns])
  · rw [gz1_real_of_sinSum_eq_zero (sinSum_pi x), cosSum_pi]
    simp only [weightedSum, mul_comm ((-1 : ℝ) ^ _)]
  · rw [gz1_real]
    positivity

/-! ## The clamped decibel ratio (41_goertzel.md R126) -/

theorem snrdb_real (a b : ℝ) : snrdb realNumerics a b =
    10 * Real.logb 10 (max a (10 ^ (-12 : ℤ)) / max b (10 ^ (-12 : ℤ))) := by
  have hfloor : floorPower realNumerics = 10 ^ (-12 : ℤ) := by norm_num [floorPower, realNumerics]
  rw [snrdb, hfloor]
  simp [realNumerics]

/-- Settles O37: exchanging the powers inverts their ratio, and a clamped power is positive. -/
theorem snrRatioClamped : Obligations.SnrRatioClamped := by
  intro a b _ _
  have hswap : ∀ u v : ℝ, snrdb realNumerics u v = -snrdb realNumerics v u := fun u v => by
    rw [snrdb_real, snrdb_real, ← inv_div, Real.logb_inv, mul_neg]
  have hfloor : snrdb realNumerics 0 1 = -120 := by
    have hlow : max (0 : ℝ) (10 ^ (-12 : ℤ)) = 10 ^ (-12 : ℤ) := max_eq_right (by positivity)
    have hhigh : max (1 : ℝ) (10 ^ (-12 : ℤ)) = 1 := max_eq_left (by norm_num)
    rw [snrdb_real, hlow, hhigh, div_one, ← Real.rpow_intCast, Real.logb_rpow (by norm_num) (by norm_num)]
    norm_num
  refine ⟨snrdb_real a b, ?_, hswap a b, hfloor, ?_⟩
  · have hpos : 0 < max a (10 ^ (-12 : ℤ)) := lt_max_of_lt_right (by positivity)
    rw [snrdb_real, div_self hpos.ne', Real.logb_one, mul_zero]
  · rw [hswap, hfloor, neg_neg]

end Sys2Proof.Machine
end

section
/-!
PROOF. The statements about the commands of the sample buffer, PUSH and RDMAXC (42_sample_buffer.md).

An accepted PUSH stores and counts its chunk.  Below the gate threshold that is its whole effect; otherwise its run loop
ends where the unbounded loop does (`runLoop_loopRun`).  What it emits is an induction over the unbounded loop: a step emits
at most the one event its result names (`StepEvents`), and each PITCH leaves one event fewer to come (`eventsLeft`).
-/

namespace Sys2Proof.Machine

/-! ## The gate and the chunk bound (42_sample_buffer.md R144, R150) -/

/-- The threshold in the words of the claims. -/
theorem threshold_eq (s : State) :
    threshold s = if s.trig < 0 then s.plat.wordLength / 4 else s.plat.wordLength := by
  simp only [threshold, searching, decide_eq_true_eq, windowOffset]

theorem gateOpen_iff {s : State} : gateOpen s = true ↔ (threshold s : Int) ≤ (s.pushed : Int) - s.processed :=
  decide_eq_true_iff

/-- At rest the chunk bound is from 1 to the threshold (42_sample_buffer.md R149). -/
theorem RestInvariant.maxChunk_range {s : State} (h : RestInvariant s) : 1 ≤ maxChunk s ∧ maxChunk s ≤ threshold s := by
  have hgate := h.gate_shut
  have hprocessed := h.processed_le
  simp only [maxChunk, pending] at hgate ⊢
  omega

theorem threshold_le_wordLength (s : State) : threshold s ≤ s.plat.wordLength := by
  rw [threshold_eq]
  split
  · exact Nat.div_le_self _ 4
  · exact le_rfl

/-- An integer from 0 on that fits a word is the number the word denotes (30_encoding.md R85). -/
theorem integerWord_toNat {n : Int} (h0 : 0 ≤ n) (h : n < 2 ^ 64) : (integerWord n).toNat = n.toNat := by
  rw [integerWord, BitVec.toNat_ofInt, Int.emod_eq_of_lt h0 (by exact_mod_cast h)]

/-! ## Queries (46_query_control.md R230) -/

/-- A query without operands under an admitted configuration answers its word. -/
theorem answerQuery_bare (word : State → Word) {s : State} (ha : s.plat.admitted = true) :
    answerQuery bareOperands word s = .next { s with respPort := s.respPort ++ [[1, word s]] } := by
  have hpass : firstFailure (bareChecks bareOperands s) = none := by
    simp [bareChecks, bareOperands, reservedZero, configAdmitted, ha]
  have hstatus : statusWord .ok 1 = 1 := statusWord_ok (by decide)
  rw [answerQuery, complete_pure hpass, respond, List.length_singleton, hstatus]

/-! ## The run loop without its bound (42_sample_buffer.md R145) -/

/-- Where the bounded loop ends, the unbounded one does. -/
theorem runLoop_loopRun : ∀ {fuel : Nat} {s t : State}, runLoop fuel s = .ok t → LoopRun s t
  | 0, _, _, h => by cases h
  | fuel + 1, s, t, h => by
    simp only [runLoop] at h
    cases hi : internalStep s with
    | error f => rw [hi] at h; cases h
    | ok out =>
      obtain ⟨r, u⟩ := out
      have hstep : StepRun s r u := stepRun_iff.2 hi
      rw [hi] at h
      dsimp only at h
      split at h
      next hr => exact .again (hr ▸ hstep) (runLoop_loopRun h)
      next hr => cases h; exact .stop hstep hr

/-! ## An accepted PUSH (42_sample_buffer.md R147) -/

/-- All the effect of a PUSH can do, once its chunk is stored and counted: stop there with the gate shut, or run the loop. -/
theorem pushEffect_cases {chunk : List Binary64} {s t : State} (h : pushEffect chunk s = .ok t) :
    (gateOpen (pushSamples chunk s) = false ∧ t = pushSamples chunk s) ∨
    (gateOpen (pushSamples chunk s) = true ∧ runLoop runLoopBound (pushSamples chunk s) = .ok t) := by
  simp only [pushEffect] at h
  split at h
  next hgate => exact .inr ⟨hgate, h⟩
  next hgate => cases h; exact .inl ⟨Bool.eq_false_iff.2 hgate, rfl⟩

/-- What follows the store and the count writes neither the buffer nor its counter. -/
theorem pushEffect_stepFrame {chunk : List Binary64} {s t : State} (h : pushEffect chunk s = .ok t) :
    StepFrame (pushSamples chunk s) t := by
  rcases pushEffect_cases h with ⟨-, rfl⟩ | ⟨-, hrun⟩
  · exact .refl _
  · exact runLoop_stepFrame hrun

theorem respond_nil (s : State) : respond [] s = { s with respPort := s.respPort ++ [[0]] } := by
  rw [respond, List.length_nil, statusWord_ok (by decide)]
  rfl

theorem pushChecks_of_accepted {o : Operands} {s : State} (h : accepted (.push o) s) :
    firstFailure (pushChecks o s) = none :=
  (firstFailure_checksOf (.push o) s).trans (firstFailure_tableRows_eq_none_iff.2 h)

/-- An accepted PUSH completes: its effect, then its response. -/
theorem exec_push_of_accepted {o : Operands} {s : State} (h : accepted (.push o) s) :
    ∃ t, pushEffect (o.data.map ofBits) s = .ok t ∧
      exec (.push o) s = .next { t with respPort := t.respPort ++ [[0]] } := by
  have hpass := pushChecks_of_accepted h
  obtain ⟨t, ht, -⟩ := pushEffect_total (chunkOf s.plat.num o) (admitted_of_pushChecks hpass)
  have hexec : execPush o s = .next (respond [] t) := complete_ok hpass (by simp only [ht])
  exact ⟨t, by rwa [chunkOf, Platform.num_ofBits] at ht, hexec.trans (congrArg _ (respond_nil t))⟩

/-- The state after the store and the count of an accepted PUSH, in the words of the claims. -/
theorem pushSamples_of_accepted {o : Operands} {s : State} (h : accepted (.push o) s) :
    pushSamples (o.data.map ofBits) s =
      { s with
        buf := memWrite (3 * s.plat.wordLength) s.buf (o.data.map ofBits)
        pushed := s.pushed + min o.n.toNat (3 * s.plat.wordLength) } := by
  obtain ⟨-, -, hcount, -⟩ := h
  have hlength : o.data.length = o.n.toNat := not_not.1 hcount
  rw [pushSamples, List.length_map, hlength]
  rfl

/-! ## What the internal steps emit (60_exceptions.md R260, R261) -/

/-- From `s` to `t` exactly the events `evs` are emitted, to the record and to the event port (00_scope.md R16). -/
structure Emits (s t : State) (evs : List Event) : Prop where
  plat : t.plat = s.plat
  evq : t.evq = s.evq ++ evs
  eventPort : t.eventPort = s.eventPort ++ evs.map (eventFrame s.plat.cfg.np)

theorem Emits.trans {s t u : State} {es fs : List Event} (h : Emits s t es) (h' : Emits t u fs) :
    Emits s u (es ++ fs) where
  plat := h'.plat.trans h.plat
  evq := by rw [h'.evq, h.evq, List.append_assoc]
  eventPort := by rw [h'.eventPort, h.eventPort, h.plat, List.map_append, List.append_assoc]

theorem Emits.none {s t : State} (hplat : t.plat = s.plat) (hevq : t.evq = s.evq) (hport : t.eventPort = s.eventPort) :
    Emits s t [] :=
  ⟨hplat, by rw [hevq, List.append_nil], by rw [hport, List.map_nil, List.append_nil]⟩

theorem Emits.refl (s : State) : Emits s s [] := .none rfl rfl rfl

/-- The event of a step, by its result. -/
inductive StepEvents : StepResult → List Event → Prop where
  | idle : StepEvents .idle []
  | pitch (i : Int) : StepEvents .pitch [.pitch i]
  | complete (payload : List Byte) (trigger : Int) : StepEvents .complete [.message payload trigger]
  | error (processed : Nat) (c : Cause) : StepEvents .error [.error processed c]

theorem StepEvents.length_le {r : StepResult} {evs : List Event} (h : StepEvents r evs) : evs.length ≤ 1 := by
  cases h <;> simp

/-- A step with the outcome `out` emits what its result names. -/
def StepEmits (s : State) (out : StepResult × State) : Prop := ∃ evs, Emits s out.2 evs ∧ StepEvents out.1 evs

/-- Writes that emit nothing, before or behind a step's own, leave its events as they are. -/
theorem StepEmits.of_quiet {s t u : State} {out : StepResult × State} (hbefore : Emits s t []) (h : StepEmits t out)
    (hbehind : Emits out.2 u []) : StepEmits s (out.1, u) := by
  obtain ⟨evs, hemits, hevs⟩ := h
  exact ⟨evs, by simpa using (hbefore.trans hemits).trans hbehind, hevs⟩

theorem consumePending_quiet (s : State) : Emits s (consumePending s) [] := .none rfl rfl rfl

theorem countCorrection_quiet (o : HamOutcome) (s : State) : Emits s (countCorrection o s) [] :=
  .none (countCorrection_plat o s) (countCorrection_evq o s) (countCorrection_eventPort o s)

theorem raiseError_stepEmits (c : Cause) (s : State) : StepEmits s (.error, raiseError c s) :=
  ⟨_, ⟨rfl, rfl, rfl⟩, .error s.processed c⟩

theorem acceptValidation_stepEmits (target : Int) (byte : Byte) (s : State) :
    StepEmits s (acceptValidation target byte s) := by
  unfold acceptValidation
  split
  · exact raiseError_stepEmits _ s
  · exact ⟨_, ⟨rfl, rfl, rfl⟩, .pitch target⟩

theorem acceptPayload_stepEmits (target : Int) (byte : Byte) (s : State) :
    StepEmits s (acceptPayload target byte s) := by
  simp only [acceptPayload]
  split
  · exact ⟨_, ⟨rfl, rfl, rfl⟩, .complete _ s.trig⟩
  · exact ⟨_, ⟨rfl, rfl, rfl⟩, .pitch target⟩

theorem acceptWord_stepEmits (target : Int) (a : Byte × HamOutcome) (s : State) :
    StepEmits s (acceptWord target a s) := by
  have hcount := countCorrection_quiet a.2 s
  rcases acceptWord_cases target a s with ⟨-, h⟩ | ⟨-, -, h⟩ | ⟨-, -, h⟩ <;> rw [h]
  · exact raiseError_stepEmits _ s
  · exact (acceptValidation_stepEmits target a.1 _).of_quiet hcount (.refl _)
  · exact (acceptPayload_stepEmits target a.1 _).of_quiet hcount (.refl _)

theorem syncStep_stepEmits {s : State} {out : StepResult × State} (h : syncStep s = .ok out) : StepEmits s out := by
  rcases syncStep_cases s with ⟨-, h'⟩ | ⟨-, -, h'⟩ | ⟨-, -, x, -, h'⟩ <;> rw [h'] at h <;> cases h
  · exact (raiseError_stepEmits _ s).of_quiet (.refl s) (consumePending_quiet _)
  · exact ⟨[], consumePending_quiet s, .idle⟩
  · exact (acceptWord_stepEmits _ _ s).of_quiet (.refl s) (consumePending_quiet _)

theorem evaluateTrigger_stepEmits (s : State) : StepEmits s (evaluateTrigger s) := by
  rcases evaluateTrigger_cases s with ⟨-, h⟩ | ⟨-, h⟩ <;> rw [h]
  · exact ⟨_, ⟨rfl, rfl, rfl⟩, .pitch (fireIndex s)⟩
  · exact ⟨[], .refl s, .idle⟩

theorem searchStep_stepEmits {s : State} {out : StepResult × State} (h : searchStep s = .ok out) : StepEmits s out := by
  obtain ⟨u, -, hu, h'⟩ := searchStep_total s
  have hsweep : Emits s u [] := by rw [hu]; exact .none rfl rfl rfl
  cases h'.symm.trans h
  exact (evaluateTrigger_stepEmits u).of_quiet hsweep (.refl _)

theorem StepRun.stepEmits {s t : State} {r : StepResult} (h : StepRun s r t) : StepEmits s (r, t) := by
  rcases h with ⟨-, hsearch⟩ | ⟨-, hsync⟩
  · exact searchStep_stepEmits hsearch
  · exact syncStep_stepEmits hsync

/-! ## What the run loop emits (42_sample_buffer.md R148) -/

/-- The most events until the frame has ended: a fire, the validation word and the payload words; without the fire and the
words decoded once SYNCHRONIZED. -/
def eventsLeft (s : State) : Nat := if s.trig < 0 then s.plat.cfg.np + 2 else s.plat.cfg.np + 1 - s.cursor

theorem eventsLeft_le (s : State) : eventsLeft s ≤ s.plat.cfg.np + 2 := by
  unfold eventsLeft; split <;> omega

/-- The frame always ends with one more event. -/
theorem LoopInvariant.eventsLeft_pos {s : State} (h : LoopInvariant s) : 1 ≤ eventsLeft s := by
  unfold eventsLeft
  split
  · omega
  · obtain ⟨hcursor, -⟩ := h.words.receiving_le (by omega)
    omega

/-- A step that ends in PITCH leaves one event fewer. -/
theorem LoopInvariant.eventsLeft_pitch {s t : State} (h : LoopInvariant s) (hstep : StepRun s .pitch t) :
    eventsLeft t + 1 ≤ eventsLeft s := by
  rcases hstep with ⟨hneg, hsearch⟩ | ⟨hnonneg, hsync⟩
  · obtain ⟨htrig, hplat, -, hcursor⟩ := searchStep_pitch hsearch
    rw [eventsLeft, eventsLeft, if_neg (by omega), if_pos hneg, hplat, hcursor]
    omega
  · obtain ⟨-, -, hplat, -, htrig, hcursor, -⟩ := syncStep_pitch hsync
    obtain ⟨hword, -⟩ := h.words.receiving_le hnonneg
    rw [eventsLeft, eventsLeft, if_neg (by omega), if_neg (by omega), hplat, hcursor]
    omega

/-- Behind a PITCH all events but the last are PITCH if they were without it. -/
theorem dropLast_pitch_cons {evs : List Event} (i : Int) (h : evs.dropLast.all Event.isPitch = true) :
    (Event.pitch i :: evs).dropLast.all Event.isPitch = true := by
  cases evs with
  | nil => rfl
  | cons e evs => rw [List.dropLast_cons_cons, List.all_cons, h]; rfl

/-- The run loop emits PITCH events and at most one other, its last; from the invariant no more than are left. -/
theorem LoopRun.emits {s t : State} (h : LoopRun s t) :
    ∃ evs, Emits s t evs ∧ evs.dropLast.all Event.isPitch = true ∧
      (LoopInvariant s → evs.length ≤ eventsLeft s) := by
  induction h with
  | stop hstep _ =>
    obtain ⟨evs, hemits, hevs⟩ := hstep.stepEmits
    have hnone : evs.dropLast = [] := List.eq_nil_of_length_eq_zero (by simp [hevs.length_le])
    exact ⟨evs, hemits, by rw [hnone]; rfl, fun hs => hevs.length_le.trans hs.eventsLeft_pos⟩
  | again hstep _ ih =>
    obtain ⟨_, hpitch, hevent⟩ := hstep.stepEmits
    cases hevent with | pitch i =>
    obtain ⟨evs, hemits, hlast, hlength⟩ := ih
    refine ⟨.pitch i :: evs, hpitch.trans hemits, dropLast_pitch_cons i hlast, fun hs => ?_⟩
    have hrest := hlength (internalStep_loopInvariant hs (stepRun_iff.1 hstep))
    have hleft := hs.eventsLeft_pitch hstep
    rw [List.length_cons]
    omega

/-- The effect of a PUSH emits what its run loop does. -/
theorem pushEffect_emits {chunk : List Binary64} {s t : State} (h : pushEffect chunk s = .ok t) :
    ∃ evs, Emits s t evs ∧ evs.dropLast.all Event.isPitch = true ∧
      (LoopInvariant (pushSamples chunk s) → evs.length ≤ s.plat.cfg.np + 2) := by
  have hpush : Emits s (pushSamples chunk s) [] := .none rfl rfl rfl
  rcases pushEffect_cases h with ⟨-, rfl⟩ | ⟨-, hrun⟩
  · exact ⟨[], hpush, rfl, fun _ => Nat.zero_le _⟩
  · obtain ⟨evs, hemits, hlast, hlength⟩ := (runLoop_loopRun hrun).emits
    exact ⟨evs, hpush.trans hemits, hlast, fun hs => (hlength hs).trans (eventsLeft_le _)⟩

/-! ## The obligations -/

/-- Settles O16: the word is the chunk bound, which at rest is positive and at most the threshold, far below the size of a
word under an admitted configuration. -/
theorem rdmaxcReturnsChunkBound : Obligations.RdmaxcReturnsChunkBound := by
  refine ⟨by decide, fun s ha => ?_⟩
  have hword : (((if s.trig < 0 then s.plat.wordLength / 4 else s.plat.wordLength : Nat) : Int) -
      ((s.pushed : Int) - s.processed)) = maxChunk s := by rw [← threshold_eq]; rfl
  rw [hword, ← threshold_eq]
  refine ⟨answerQuery_bare (fun s => integerWord (maxChunk s)) ha, fun hrest => ?_⟩
  obtain ⟨hpos, hle⟩ := hrest.maxChunk_range
  obtain ⟨-, -, hlt⟩ : _ ∧ _ ∧ 3 * s.plat.wordLength < 2 ^ 31 := admitted_wordLength ha
  have hthreshold := threshold_le_wordLength s
  have hvalue : (BitVec.ofInt 64 (maxChunk s)).toNat = (maxChunk s).toNat := integerWord_toNat (by omega) (by omega)
  rw [hvalue]
  omega

/-- Settles O22: of the old samples followed by the chunk as many leave as the chunk is long. -/
theorem bufferHoldsNewestSamples : Obligations.BufferHoldsNewestSamples := by
  intro b m c hlength
  refine ⟨memWrite_length c hlength, ?_⟩
  rw [memWrite_eq_drop c hlength, List.length_append, hlength, Nat.add_sub_cancel_left]

/-- Settles O26: the store and the count write the buffer and `PUSHED`, and what follows them only emits. -/
theorem pushStoresAndCounts : Obligations.PushStoresAndCounts := by
  intro o s hacc
  obtain ⟨t, heffect, hexec⟩ := exec_push_of_accepted hacc
  obtain ⟨evs, hemits, -⟩ := pushEffect_emits heffect
  have hframe := pushEffect_stepFrame heffect
  rw [pushSamples_of_accepted hacc] at hframe
  refine ⟨_, evs, hexec, hframe.pushed, hframe.buf, hframe.plat, hframe.cmdPort, ?_, hemits.evq, hemits.eventPort⟩
  dsimp only
  rw [hframe.respPort]

/-- Settles O27: the gate is shut after the count. -/
theorem pushBelowThreshold : Obligations.PushBelowThreshold := by
  intro o s hacc hbelow
  obtain ⟨t, heffect, hexec⟩ := exec_push_of_accepted hacc
  rcases pushEffect_cases heffect with ⟨-, rfl⟩ | ⟨hgate, -⟩
  · rw [hexec, pushSamples_of_accepted hacc]
  · rw [pushSamples_of_accepted hacc, gateOpen_iff, threshold_eq] at hgate
    exact absurd hgate (not_le.2 hbelow)

/-- Settles O28: the gate is open after the count, and the bounded loop of the machine ends where the unbounded one does. -/
theorem pushRunsLoopToItsEnd : Obligations.PushRunsLoopToItsEnd := by
  intro o s hacc hreached
  obtain ⟨t, heffect, hexec⟩ := exec_push_of_accepted hacc
  refine ⟨t, ?_, hexec⟩
  rw [← pushSamples_of_accepted hacc]
  rcases pushEffect_cases heffect with ⟨hgate, -⟩ | ⟨-, hrun⟩
  · rw [pushSamples_of_accepted hacc, ← Bool.not_eq_true, gateOpen_iff, threshold_eq] at hgate
    exact absurd hreached hgate
  · exact runLoop_loopRun hrun

/-- Settles O29: the invariant at rest holds between the steps of the run loop too, and bounds the events left. -/
theorem pushEventsBounded : Obligations.PushEventsBounded := by
  intro o s hrest hacc
  obtain ⟨hcanonical, hlimit⟩ := chunk_of_pushChecks (pushChecks_of_accepted hacc)
  rw [chunkOf, Platform.num_ofBits] at hcanonical hlimit
  obtain ⟨t, heffect, hexec⟩ := exec_push_of_accepted hacc
  obtain ⟨evs, hemits, hlast, hlength⟩ := pushEffect_emits heffect
  have hstart := pushSamples_loopInvariant ((restInvariant_iff s).1 hrest).1 hcanonical hlimit
  exact ⟨_, evs, hexec, hemits.evq, hlength hstart, hlast⟩

end Sys2Proof.Machine
end

section
/-!
PROOF. The statements about the synchronizer's steps (43_synchronizer.md): one sweep iteration (R162 to R164), the distance
guard (R167), the trigger evaluation (R168, R169) and the whole search step (R160, R161).

The sweep is said already to be a chain of iterations that completes (`sweep_chain`, `sweep_total`); what is left is the
window of one iteration, and the condition and the effect of a fire in the words of the claims.
-/

namespace Sys2Proof.Machine

/-! ## One iteration (43_synchronizer.md R162 to R164) -/

theorem sweepIteration_of_left {s : State} (h : searchWindow s < bufferBase s) :
    sweepIteration s = .ok (advanceSearch s) := if_pos h

/-- With a window offset pending, a retained window is read. -/
theorem sweepIteration_of_retained {s : State} (hpending : s.processed + s.plat.windowOffset ≤ s.pushed)
    (h : bufferBase s ≤ searchWindow s) :
    ∃ x, memRead s (searchWindow s) s.plat.doorLength = .ok x ∧
      sweepIteration s = .ok (advanceSearch
        { s with hist := shiftHistory s.hist (doorReading s.plat.num s.plat.cfg x) }) := by
  rcases sweepIteration_cases s with ⟨hleft, -⟩ | ⟨-, hread⟩ | ⟨-, f, -, hfault⟩
  · exact absurd hleft (not_lt.2 h)
  · exact hread
  · obtain ⟨t, ht⟩ := sweepIteration_ok hpending
    cases hfault.symm.trans ht

/-- Settles O38: a window in the buffer ends in the pending part, so the read completes. -/
theorem searchIterationReadsOrSkips : Obligations.SearchIterationReadsOrSkips := by
  intro s _ hpending
  exact ⟨sweepIteration_of_left, sweepIteration_of_retained (by omega)⟩

/-! ## The distance guard (43_synchronizer.md R167) -/

theorem guardHolds_iff {T : Type} {num : Numerics T} {c : Config T} {m : Nat} :
    guardHolds num c m = true ↔
      (doorLength num c : Int) ≤ 2 * ((historyLength num c : Int) - 1 - m) * windowOffset num c :=
  decide_eq_true_iff

/-- The door length is four window offsets, so the distance is two of them at least. -/
theorem guardHolds_iff_le {T : Type} {num : Numerics T} {c : Config T} (ha : admitted num c = true) (m : Nat) :
    guardHolds num c m = true ↔ m ≤ 9 := by
  have hpos := windowOffset_pos ha
  obtain ⟨-, hmod, -⟩ := admitted_wordLength ha
  have hdoor : doorLength num c = 4 * windowOffset num c := by unfold doorLength windowOffset; omega
  have hdistance : 2 * (((12 : Nat) : Int) - 1 - m) = 22 - 2 * m := by push_cast; ring
  rw [guardHolds_iff, admitted_historyLength ha, hdoor, hdistance, Nat.cast_mul,
    mul_le_mul_iff_of_pos_right (by omega)]
  omega

/-- Settles O43: the test of the machine, and its value at `DOOR = 4 × WO` and `H = 12`. -/
theorem distanceGuard : Obligations.DistanceGuard :=
  fun _ _ _ m ha => ⟨guardHolds_iff, guardHolds_iff_le ha m⟩

/-! ## The trigger evaluation (43_synchronizer.md R168, R169) -/

theorem firesNow_iff {s : State} :
    firesNow s = true ↔
      peaksOf s.plat.num s.plat.cfg s.hist = 1 ∧
        (s.plat.doorLength : Int) ≤
          2 * ((s.plat.historyLength : Int) - 1 - maxIndexOf s.plat.num s.hist) * s.plat.windowOffset ∧
        0 ≤ fireIndex s := by
  rw [firesNow, Bool.and_eq_true, Bool.and_eq_true, beq_iff_eq, guardHolds_iff, decide_eq_true_iff, and_assoc]

/-- A fire as a whole state, its event frame written out (30_encoding.md R90). -/
theorem fire_eq (s : State) :
    fire s =
      { s with
        trig := fireIndex s, cerr := 0, cursor := 0, parsed := List.replicate s.plat.cfg.np 0
        evq := s.evq ++ [.pitch (fireIndex s)]
        eventPort := s.eventPort ++ [[0x4000000000000000, BitVec.ofInt 64 (fireIndex s)]] } := rfl

/-- Settles O44: the value of the claim is the fire index, and its condition the machine's. -/
theorem triggerFires : Obligations.TriggerFires := by
  rintro s t rfl
  rcases evaluateTrigger_cases s with ⟨hfires, h⟩ | ⟨hfires, h⟩
  · exact ⟨fun _ => h.trans (congrArg _ (fire_eq s)), fun hnot => absurd (firesNow_iff.1 hfires) hnot⟩
  · exact ⟨fun hcond => absurd (firesNow_iff.2 hcond) (by simp [hfires]), fun _ => h⟩

/-! ## The search step (43_synchronizer.md R160, R161) -/

/-- What the sweep leaves pending is less than a window offset. -/
theorem pending_sub_sweep_lt {s : State} (ha : s.plat.admitted = true) :
    s.pushed - (s.processed + sweepCount s * s.plat.windowOffset) < s.plat.windowOffset := by
  have hmod : (s.pushed - s.processed) % s.plat.windowOffset < s.plat.windowOffset := Nat.mod_lt _ (windowOffset_pos ha)
  have hdiv := Nat.div_add_mod' (s.pushed - s.processed) s.plat.windowOffset
  rw [sweepCount]
  omega

/-- Settles O39: the sweep is the chain, and the evaluation of its last state either fires or writes nothing. -/
theorem searchStepConsumesOffsets : Obligations.SearchStepConsumesOffsets := by
  intro s ha hle
  obtain ⟨u, hsweep, hframe, hstep⟩ := searchStep_total s
  obtain ⟨us, hfirst, hlast, hchain⟩ := sweep_chain hsweep
  have hmul := sweepCount_mul_le s
  have hprocessed : s.processed + sweepCount s * s.plat.windowOffset ≤ s.pushed := by omega
  have hrest := pending_sub_sweep_lt ha
  obtain ⟨hist, rfl⟩ : ∃ hist, u = { s with hist, processed := s.processed + sweepCount s * s.plat.windowOffset } :=
    ⟨_, hframe⟩
  rcases evaluateTrigger_cases _ with ⟨hfires, h⟩ | ⟨-, h⟩
  · obtain ⟨-, -, hindex⟩ := firesNow_iff.1 hfires
    exact ⟨us, _, _, _, hfirst, hlast.symm, hchain, hstep.trans (congrArg _ h), h.symm, rfl, rfl, rfl, hprocessed, hrest,
      .inr ⟨rfl, hindex, fire_eq _⟩⟩
  · exact ⟨us, _, _, _, hfirst, hlast.symm, hchain, hstep.trans (congrArg _ h), h.symm, rfl, rfl, rfl, hprocessed, hrest,
      .inl ⟨rfl, rfl⟩⟩

end Sys2Proof.Machine
end

section
/-!
PROOF. The statements about the evaluation of a history over the reals (43_synchronizer.md R165, R166).

The running maximum of R165 is an induction over the readings still to come, `LeastMaximum` saying what is known of those
met (`LeastMaximum.append`).  The count of R166 is a sum over the samples (`peaksFrom_real`): the direction it carries is
`directionAt`, a function of the position, and the samples it counts are those where the history turns (`turns_iff`).
-/

namespace Sys2Proof.Machine

/-! ## The comparisons over the reals -/

@[simp] theorem lt_real {a b : ℝ} : realNumerics.lt a b = true ↔ a < b := decide_eq_true_iff

@[simp] theorem sub_real (a b : ℝ) : realNumerics.sub a b = a - b := rfl

@[simp] theorem mul_real (a b : ℝ) : realNumerics.mul a b = a * b := rfl

@[simp] theorem ofInt_zero_real : realNumerics.ofInt 0 = 0 := Int.cast_zero

@[simp] theorem absNum_real (v : ℝ) : absNum realNumerics v = |v| := by
  by_cases h : v < 0
  · simp [absNum, h, abs_of_neg]
  · simp [absNum, h, abs_of_nonneg (not_lt.1 h)]

theorem isNegative_real {v : ℝ} : isNegative realNumerics v = true ↔ v < 0 := by simp [isNegative]

theorem qualifies_real {negative : Bool} {level v : ℝ} :
    qualifies realNumerics negative level v = true ↔ (v < 0 ↔ negative = true) ∧ level < |v| := by
  rw [qualifies, Bool.and_eq_true, beq_iff_eq, Bool.eq_iff_iff, isNegative_real, absNum_real, lt_real]

/-! ## The maximum (43_synchronizer.md R165) -/

/-- `best` holds the greatest absolute value of the readings `h` and the least index at which it stands. -/
structure LeastMaximum (h : List ℝ) (best : ℝ × Nat) : Prop where
  index_lt : best.2 < h.length
  attained : best.1 = |h.getD best.2 0|
  greatest : ∀ j, j < h.length → |h.getD j 0| ≤ best.1
  least : ∀ j, j < best.2 → |h.getD j 0| < best.1

theorem LeastMaximum.singleton (v : ℝ) : LeastMaximum [v] (|v|, 0) where
  index_lt := Nat.one_pos
  attained := rfl
  greatest j hj := by
    obtain rfl : j = 0 := by simpa using hj
    exact le_rfl
  least _ hj := absurd hj (Nat.not_lt_zero _)

/-- One more reading: it is the new maximum if it exceeds the old one. -/
theorem LeastMaximum.snoc {h : List ℝ} {best : ℝ × Nat} (hbest : LeastMaximum h best) (v : ℝ) :
    LeastMaximum (h ++ [v]) (if best.1 < |v| then (|v|, h.length) else best) := by
  have hlast : (h ++ [v]).getD h.length 0 = v := by simp
  have hold : ∀ j, j < h.length → (h ++ [v]).getD j 0 = h.getD j 0 := fun j hj => List.getD_append _ _ _ _ hj
  have hlength : (h ++ [v]).length = h.length + 1 := List.length_append
  split
  next hv =>
    refine ⟨by omega, by rw [hlast], fun j hj => ?_, fun j hj => ?_⟩
    · rcases Nat.lt_succ_iff_lt_or_eq.1 (hlength ▸ hj) with hj | rfl
      · exact hold j hj ▸ (hbest.greatest j hj).trans hv.le
      · rw [hlast]
    · exact hold j hj ▸ (hbest.greatest j hj).trans_lt hv
  next hv =>
    refine ⟨by have := hbest.index_lt; omega, hold _ hbest.index_lt ▸ hbest.attained, fun j hj => ?_, fun j hj => ?_⟩
    · rcases Nat.lt_succ_iff_lt_or_eq.1 (hlength ▸ hj) with hj | rfl
      · exact hold j hj ▸ hbest.greatest j hj
      · exact hlast.symm ▸ not_lt.1 hv
    · exact hold j (hj.trans hbest.index_lt) ▸ hbest.least j hj

/-- The running maximum over the readings still to come. -/
theorem LeastMaximum.append {h : List ℝ} {best : ℝ × Nat} (hbest : LeastMaximum h best) (vs : List ℝ) :
    LeastMaximum (h ++ vs) (maximumFrom realNumerics vs h.length best) := by
  induction vs generalizing h best with
  | nil => rwa [List.append_nil]
  | cons v vs ih =>
    have hnext := ih (hbest.snoc v)
    rw [List.length_append, List.append_assoc] at hnext
    simpa [maximumFrom] using hnext

theorem historyMaximum_real {h : List ℝ} (hne : h ≠ []) : LeastMaximum h (historyMaximum realNumerics h) := by
  obtain ⟨v, vs, rfl⟩ := List.exists_cons_of_ne_nil hne
  have hmax := (LeastMaximum.singleton v).append vs
  rwa [← absNum_real] at hmax

/-- Settles O40: what is known of the running maximum behind the whole history. -/
theorem historyMaximumIsLeastIndex : Obligations.HistoryMaximumIsLeastIndex := by
  intro h hne
  obtain ⟨hindex, hattained, hgreatest, hleast⟩ := historyMaximum_real hne
  exact ⟨hindex, hattained, hgreatest, hleast, by rw [maxIsNegative, isNegative_real, ofInt_zero_real]⟩

/-! ## The turning samples (43_synchronizer.md R166) -/

theorem slopeOf_real_rising {d : ℝ} : slopeOf realNumerics d = .rising ↔ 0 < d := by
  simp [slopeOf, ite_eq_iff]

theorem slopeOf_real_falling {d : ℝ} : slopeOf realNumerics d = .falling ↔ d < 0 := by
  simp only [slopeOf, ofInt_zero_real, lt_real, ite_eq_iff]
  simpa using le_of_lt

theorem slopeOf_real_flat {d : ℝ} : slopeOf realNumerics d = .flat ↔ d = 0 := by
  rcases lt_trichotomy d 0 with h | rfl | h
  · simp [slopeOf_real_falling.2 h, h.ne]
  · simp [slopeOf]
  · simp [slopeOf_real_rising.2 h, h.ne']

/-- Two differences have opposite signs. -/
theorem mul_neg_iff_slopes {d e : ℝ} :
    d * e < 0 ↔ slopeOf realNumerics d ≠ .flat ∧ slopeOf realNumerics e ≠ .flat ∧
      slopeOf realNumerics e ≠ slopeOf realNumerics d := by
  rw [mul_neg_iff, ← slopeOf_real_rising, ← slopeOf_real_rising, ← slopeOf_real_falling, ← slopeOf_real_falling]
  cases slopeOf realNumerics d <;> cases slopeOf realNumerics e <;> decide

/-- The difference behind sample `j`. -/
def differenceAt (h : List ℝ) (j : Nat) : ℝ := h.getD (j + 1) 0 - h.getD j 0

/-- The last nonzero direction up to sample `j`, flat if there is none. -/
noncomputable def directionAt (h : List ℝ) : Nat → Slope
  | 0 => .flat
  | j + 1 =>
    if slopeOf realNumerics (differenceAt h j) = .flat then directionAt h j
    else slopeOf realNumerics (differenceAt h j)

/-- The direction at `j` is that of the difference behind which the history is constant up to `j`. -/
theorem directionAt_eq_iff {h : List ℝ} {dir : Slope} (hdir : dir ≠ .flat) {j : Nat} :
    directionAt h j = dir ↔
      ∃ i, 1 ≤ i ∧ i ≤ j ∧ (∀ m, i ≤ m → m ≤ j → h.getD m 0 = h.getD j 0) ∧
        slopeOf realNumerics (h.getD i 0 - h.getD (i - 1) 0) = dir := by
  induction j with
  | zero => exact ⟨fun h0 => absurd h0.symm hdir, fun ⟨i, h1, h0, _⟩ => absurd h1 (by omega)⟩
  | succ j ih =>
    rw [directionAt]
    split
    next hflat =>
      have hsame : h.getD (j + 1) 0 = h.getD j 0 := sub_eq_zero.1 (slopeOf_real_flat.1 hflat)
      rw [ih]
      refine exists_congr fun i => and_congr_right fun hi => ?_
      constructor
      · rintro ⟨hij, hconst, hslope⟩
        refine ⟨by omega, fun m hm hmj => ?_, hslope⟩
        rcases Nat.of_le_succ hmj with hmj | rfl
        · exact (hconst m hm hmj).trans hsame.symm
        · rfl
      · rintro ⟨hij, hconst, hslope⟩
        rcases Nat.of_le_succ hij with hij | rfl
        · exact ⟨hij, fun m hm hmj => (hconst m hm (by omega)).trans hsame, hslope⟩
        · exact absurd (hslope.symm.trans hflat) hdir
    next hmoves =>
      constructor
      · intro hslope
        refine ⟨j + 1, by omega, le_rfl, fun m hm hmj => ?_, hslope⟩
        rw [le_antisymm hmj hm]
      · rintro ⟨i, hi, hij, hconst, hslope⟩
        rcases Nat.of_le_succ hij with hij | rfl
        · have hsame := hconst j hij (by omega)
          exact absurd (slopeOf_real_flat.2 (sub_eq_zero.2 hsame.symm)) hmoves
        · exact hslope

/-- Sample `j` is a turning sample: the direction at it is reversed by the difference behind it. -/
theorem turns_iff {h : List ℝ} {j : Nat} :
    (∃ i, 1 ≤ i ∧ i ≤ j ∧ (∀ m, i ≤ m → m ≤ j → h.getD m 0 = h.getD j 0) ∧
        (h.getD i 0 - h.getD (i - 1) 0) * differenceAt h j < 0) ↔
      directionAt h j ≠ .flat ∧ slopeOf realNumerics (differenceAt h j) ≠ .flat ∧
        slopeOf realNumerics (differenceAt h j) ≠ directionAt h j := by
  constructor
  · rintro ⟨i, hi, hij, hconst, hturn⟩
    have hslopes := mul_neg_iff_slopes.1 hturn
    rwa [← (directionAt_eq_iff hslopes.1).2 ⟨i, hi, hij, hconst, rfl⟩] at hslopes
  · rintro ⟨hdir, hturn⟩
    obtain ⟨i, hi, hij, hconst, hslope⟩ := (directionAt_eq_iff hdir).1 rfl
    rw [← hslope] at hdir hturn
    exact ⟨i, hi, hij, hconst, mul_neg_iff_slopes.2 ⟨hdir, hturn⟩⟩

/-! ## The count (43_synchronizer.md R166) -/

/-- Sample `j` is counted: the history turns there, and it qualifies. -/
noncomputable def countedAt (negative : Bool) (level : ℝ) (h : List ℝ) (j : Nat) : Bool :=
  decide (directionAt h j ≠ .flat ∧ slopeOf realNumerics (differenceAt h j) ≠ .flat ∧
    slopeOf realNumerics (differenceAt h j) ≠ directionAt h j) &&
  qualifies realNumerics negative level (h.getD j 0)

theorem countedAt_iff {negative : Bool} {level : ℝ} {h : List ℝ} {j : Nat} :
    countedAt negative level h j = true ↔
      (∃ i, 1 ≤ i ∧ i ≤ j ∧ (∀ m, i ≤ m → m ≤ j → h.getD m 0 = h.getD j 0) ∧
        (h.getD i 0 - h.getD (i - 1) 0) * differenceAt h j < 0) ∧
      (h.getD j 0 < 0 ↔ negative = true) ∧ level < |h.getD j 0| := by
  rw [countedAt, Bool.and_eq_true, decide_eq_true_iff, ← turns_iff, qualifies_real]

/-- One difference of the count: its direction is that of the next sample, and it counts the sample before it or not. -/
theorem peaksFrom_step (negative : Bool) (level : ℝ) (h : List ℝ) (j : Nat) (rest : List ℝ) :
    peaksFrom realNumerics negative level (h.getD j 0) (directionAt h j) (h.getD (j + 1) 0 :: rest) =
      (if countedAt negative level h j = true then 1 else 0) +
        peaksFrom realNumerics negative level (h.getD (j + 1) 0) (directionAt h (j + 1)) rest := by
  have hdifference : realNumerics.sub (h.getD (j + 1) 0) (h.getD j 0) = differenceAt h j := rfl
  rw [peaksFrom, hdifference, directionAt]
  by_cases hflat : slopeOf realNumerics (differenceAt h j) = .flat
  · simp [hflat, countedAt]
  · simp [hflat, countedAt, and_assoc]

/-- The count from sample `k` on, at which the samples behind it are still to come. -/
theorem peaksFrom_real (negative : Bool) (level : ℝ) (h : List ℝ) : ∀ (rest : List ℝ) (k : Nat), h.drop (k + 1) = rest →
    peaksFrom realNumerics negative level (h.getD k 0) (directionAt h k) rest =
      ((Finset.Ico k (h.length - 1)).filter fun j => countedAt negative level h j = true).card
  | [], k, hrest => by
    have hlength : h.length ≤ k + 1 := List.drop_eq_nil_iff.1 hrest
    rw [Finset.Ico_eq_empty (by omega)]
    rfl
  | v :: rest, k, hrest => by
    have hlength : k + 1 < h.length := by
      by_contra hle
      rw [List.drop_eq_nil_of_le (not_lt.1 hle)] at hrest
      cases hrest
    obtain ⟨rfl, htail⟩ := List.cons.inj ((List.drop_eq_getElem_cons hlength).symm.trans hrest)
    rw [← List.getD_eq_getElem h 0 hlength, peaksFrom_step, peaksFrom_real negative level h rest (k + 1) htail,
      Finset.card_filter, Finset.card_filter, Finset.sum_eq_sum_Ico_succ_bot (show k < h.length - 1 by omega)]

theorem peakCount_real (negative : Bool) (level : ℝ) (h : List ℝ) :
    peakCount realNumerics negative level h =
      ((Finset.Ico 0 (h.length - 1)).filter fun j => countedAt negative level h j = true).card := by
  cases h with
  | nil => rfl
  | cons v vs => exact peaksFrom_real negative level (v :: vs) vs 0 rfl

/-- Settles O41: the samples counted are the elements of the set. -/
theorem peakCountCountsTurningSamples : Obligations.PeakCountCountsTurningSamples := by
  intro h negative level
  rw [peakCount_real, ← Set.ncard_coe_finset]
  congr 1
  ext j
  rw [Finset.mem_coe, Finset.mem_filter, Finset.mem_Ico, countedAt_iff]
  exact and_congr_left' (by omega)

end Sys2Proof.Machine
end

section
/-!
PROOF. The statement about the corner cases of the peak test (43_synchronizer.md R171 a, f), over the reals and in binary64.

With a ratio of 1 or more the level is not below the maximum, so no reading exceeds it; with a negative one it is below 0, so
every reading does.  In binary64 the level is a rounded product or one beyond the range, and what is known of both is the
same (`f64Mul_value`).  That readings are small (41_goertzel.md R126) follows from the quotient of two clamped powers being a
positive number, whose logarithm is small (`log10Rounded_small`).
-/

namespace Sys2Proof.Machine

/-! ## Over the reals (43_synchronizer.md R171) -/

/-- A history of which no sample qualifies has no peak, over any `NUM`. -/
theorem peakCount_eq_zero {T : Type} {num : Numerics T} {negative : Bool} {level : T} {h : List T}
    (hq : ∀ v ∈ h, qualifies num negative level v = false) : peakCount num negative level h = 0 := by
  cases h with
  | nil => rfl
  | cons v vs => exact peaksFrom_eq_zero hq

/-- A reading below the level does not qualify, over any `NUM`. -/
theorem qualifies_of_not_lt {T : Type} {num : Numerics T} {negative : Bool} {level v : T}
    (h : ¬ num.lt level (absNum num v) = true) : qualifies num negative level v = false := by
  rw [qualifies, Bool.eq_false_iff.2 h, Bool.and_false]

/-- A reading above the level qualifies by its sign alone, over any `NUM`. -/
theorem qualifies_of_lt {T : Type} {num : Numerics T} {negative : Bool} {level v : T}
    (h : num.lt level (absNum num v) = true) :
    qualifies num negative level v = (isNegative num v == negative) := by
  rw [qualifies, h, Bool.and_true]

/-- A constant history never turns. -/
theorem peaksFrom_replicate_real (negative : Bool) (level v : ℝ) (dir : Slope) : ∀ n,
    peaksFrom realNumerics negative level v dir (List.replicate n v) = 0
  | 0 => rfl
  | n + 1 => by
    have hflat : slopeOf realNumerics (realNumerics.sub v v) = .flat := slopeOf_real_flat.2 (sub_self v)
    rw [List.replicate_succ, peaksFrom, hflat]
    exact peaksFrom_replicate_real negative level v dir n

theorem peaksOf_replicate_real (c : Config ℝ) (n : Nat) (v : ℝ) : peaksOf realNumerics c (List.replicate n v) = 0 := by
  cases n with
  | zero => rfl
  | succ n => exact peaksFrom_replicate_real _ _ v .flat n

/-- No reading exceeds the maximum of its history. -/
theorem abs_le_historyMaximum_real {h : List ℝ} {v : ℝ} (hv : v ∈ h) : |v| ≤ (historyMaximum realNumerics h).1 := by
  obtain ⟨j, hj, rfl⟩ := List.getElem_of_mem hv
  have hle := (historyMaximum_real (List.ne_nil_of_mem hv)).greatest j hj
  rwa [List.getD_eq_getElem] at hle

theorem peaksOf_eq_zero_real {c : Config ℝ} (hratio : 1 ≤ c.ratio) (h : List ℝ) : peaksOf realNumerics c h = 0 := by
  refine peakCount_eq_zero fun v hv => qualifies_of_not_lt ?_
  have hmax := abs_le_historyMaximum_real hv
  rw [mul_real, absNum_real, lt_real, not_lt]
  exact hmax.trans (le_mul_of_one_le_right ((abs_nonneg v).trans hmax) hratio)

/-! ## In binary64 (43_synchronizer.md R171; log 3) -/

/-- The sign bit of a positive number. -/
theorem unpack_of_pos {w : Word} (h : 0 < realOfBits w) : (unpack w).neg = false ∧ (unpack w).man ≠ 0 := by
  rw [realOfBits] at h
  cases hneg : (unpack w).neg
  · refine ⟨rfl, fun hman => ?_⟩
    simp [hman] at h
  · have : 0 ≤ ((unpack w).man : ℝ) * 2 ^ (unpack w).exp := by positivity
    rw [hneg, if_pos rfl, mul_assoc] at h
    linarith

/-- The sign bit of a negative number. -/
theorem unpack_of_neg {w : Word} (h : realOfBits w < 0) : (unpack w).neg = true := by
  cases hneg : (unpack w).neg
  · have : 0 ≤ ((unpack w).man : ℝ) * 2 ^ (unpack w).exp := by positivity
    rw [realOfBits, hneg, if_neg Bool.false_ne_true, mul_assoc] at h
    linarith
  · rfl

/-- A number up to `2 ^ 1023` that is not negative does not get smaller by a factor of 1 or more, rounded or beyond the
range. -/
theorem le_f64Mul {a b : Binary64} (ha : isFiniteWord a.bits = true) (hb : isFiniteWord b.bits = true)
    (ha0 : 0 ≤ realOfBits a.bits) (hmax : realOfBits a.bits ≤ 2 ^ (1023 : ℤ)) (hb1 : 1 ≤ realOfBits b.bits) :
    realOfBits a.bits ≤ realOfBits (f64Mul a b).bits := by
  obtain ⟨x, -, hzero, hvalue, hlarge⟩ := f64Mul_value ha hb
  rcases ha0.eq_or_lt with ha0 | hpos
  · rw [hvalue, hzero ha0.symm, mul_zero, ← ha0]
  · have hproduct : |realOfBits a.bits| ≤ |realOfBits a.bits * realOfBits b.bits| := by
      rw [abs_mul]
      exact le_mul_of_one_le_right (abs_nonneg _) (hb1.trans (le_abs_self _))
    have hle := hlarge a.bits ha hproduct (by rwa [abs_of_pos hpos])
    rw [hvalue, (unpack_of_pos hpos).1, (unpack_of_pos (one_pos.trans_le hb1)).1]
    simpa [abs_of_pos hpos] using hle

/-- A positive number times a negative one is not positive, rounded or beyond the range. -/
theorem f64Mul_nonpos {a b : Binary64} (ha : isFiniteWord a.bits = true) (hb : isFiniteWord b.bits = true)
    (ha0 : 0 < realOfBits a.bits) (hb0 : realOfBits b.bits < 0) : realOfBits (f64Mul a b).bits ≤ 0 := by
  obtain ⟨x, hx, -, hvalue, -⟩ := f64Mul_value ha hb
  rw [hvalue, (unpack_of_pos ha0).1, unpack_of_neg hb0]
  simpa using hx

/-- The level test in binary64 is that of the numbers. -/
theorem lt_level_iff {a b v : Binary64} (hv : isFiniteWord v.bits = true) :
    binary64Numerics.lt (f64Mul a b) (absNum binary64Numerics v) = true ↔
      realOfBits (f64Mul a b).bits < |realOfBits v.bits| := by
  obtain ⟨-, -, hfinite, -⟩ := f64_isFinite a b 0 0
  obtain ⟨habsFinite, habs⟩ := absNum_value hv
  rw [← habs]
  exact f64Lt_iff hfinite habsFinite

/-- The readings of a history: numbers of size at most `2 ^ 1023`. -/
def SmallReadings (h : List Binary64) : Prop :=
  ∀ v ∈ h, isFiniteWord v.bits = true ∧ |realOfBits v.bits| ≤ 2 ^ (1023 : ℤ)

theorem peaksOf_eq_zero_f64 {c : Config Binary64} {h : List Binary64} (hc : isFiniteWord c.ratio.bits = true)
    (hh : SmallReadings h) (hratio : 1 ≤ realOfBits c.ratio.bits) : peaksOf binary64Numerics c h = 0 := by
  refine peakCount_eq_zero fun v hv => qualifies_of_not_lt ?_
  obtain ⟨hfinite, hgreatest, u, hu, hmax⟩ := historyMaximum_value (fun v hv => (hh v hv).1) (List.ne_nil_of_mem hv)
  have hlevel := le_f64Mul hfinite hc (hmax ▸ abs_nonneg _) (hmax ▸ (hh u hu).2) hratio
  exact fun hlt => absurd ((lt_level_iff (hh v hv).1).1 hlt) (not_lt.2 ((hgreatest v hv).trans hlevel))

theorem qualifies_f64_of_neg {c : Config Binary64} {h : List Binary64} (hc : isFiniteWord c.ratio.bits = true)
    (hh : SmallReadings h) (hratio : realOfBits c.ratio.bits < 0) (negative : Bool) {v : Binary64} (hv : v ∈ h)
    (hv0 : realOfBits v.bits ≠ 0) :
    qualifies binary64Numerics negative (binary64Numerics.mul (historyMaximum binary64Numerics h).1 c.ratio) v =
      (isNegative binary64Numerics v == negative) := by
  obtain ⟨hfinite, hgreatest, -⟩ := historyMaximum_value (fun v hv => (hh v hv).1) (List.ne_nil_of_mem hv)
  have hpos : 0 < |realOfBits v.bits| := abs_pos.2 hv0
  have hlevel := f64Mul_nonpos hfinite hc (hpos.trans_le (hgreatest v hv)) hratio
  exact qualifies_of_lt ((lt_level_iff (hh v hv).1).2 (hlevel.trans_lt hpos))

/-! ## The size of a reading (41_goertzel.md R126) -/

theorem f64Binary_of_finite (op : NumOp) (r : Unpacked → Unpacked → Rounded) {a b : Binary64}
    (ha : isFiniteWord a.bits = true) (hb : isFiniteWord b.bits = true) :
    f64Binary op r a b = ⟨(r (unpack a.bits) (unpack b.bits)).pattern (Config.freeNumber op a.bits b.bits)⟩ := by
  simp only [f64Binary, ha, hb, Bool.and_self]

/-- How large an answer is at most, by how large the exact result is. -/
theorem abs_roundPack_le (neg : Bool) {man : Nat} {exp k : Int} (h : (man : ℝ) * 2 ^ exp < 2 ^ (k + 1)) (h0 : -1022 ≤ k)
    (h1 : k < 1023) (sticky : Bool) (free : Word) :
    |realOfBits ((roundPack neg man exp sticky).pattern free)| ≤ 2 ^ (k + 1) := by
  by_cases hman : man = 0
  · obtain ⟨-, x, -, hzero, hvalue, -⟩ := roundPack_pattern neg man exp sticky free
    rw [hvalue, hzero hman, mul_zero, abs_zero]
    positivity
  · have hlog : ((2 ^ Nat.log2 man : Nat) : ℝ) ≤ man := by exact_mod_cast Nat.log2_self_le hman
    have hlt : (2 : ℝ) ^ (exp + Nat.log2 man) < 2 ^ (k + 1) :=
      calc (2 : ℝ) ^ (exp + Nat.log2 man) = (2 ^ Nat.log2 man : Nat) * 2 ^ exp := by
            rw [zpow_add₀ two_ne_zero, zpow_natCast, mul_comm]; push_cast; rfl
        _ ≤ man * 2 ^ exp := by gcongr
        _ < 2 ^ (k + 1) := h
    have hexp := (zpow_lt_zpow_iff_right₀ one_lt_two).1 hlt
    exact roundPack_le neg (by omega) h0 h1 sticky free

theorem abs_f64Mul_le {a b : Binary64} (ha : isFiniteWord a.bits = true) (hb : isFiniteWord b.bits = true) {k : Int}
    (h0 : -1022 ≤ k) (h1 : k < 1023) (h : |realOfBits a.bits * realOfBits b.bits| < 2 ^ (k + 1)) :
    |realOfBits (f64Mul a b).bits| ≤ 2 ^ (k + 1) := by
  have hexact : ((mulExact (unpack a.bits) (unpack b.bits)).man : ℝ) *
      2 ^ (mulExact (unpack a.bits) (unpack b.bits)).exp = |realOfBits a.bits * realOfBits b.bits| := by
    rw [abs_mul, abs_realOfBits, abs_realOfBits, mulExact, zpow_add₀ two_ne_zero]
    push_cast; ring
  rw [f64Mul, f64Binary_of_finite _ _ ha hb]
  exact abs_roundPack_le _ (hexact ▸ h) h0 h1 _ _

/-- Every number of binary64 is below `2 ^ 1024`. -/
theorem abs_realOfBits_lt {w : Word} (hw : isFiniteWord w = true) : |realOfBits w| < 2 ^ (1024 : ℤ) := by
  obtain ⟨hman, -, hsmall, hpack, -⟩ := unpack_shape hw
  have hexp : (unpack w).exp ≤ 971 := by
    rw [packGrid, Nat.shiftLeft_eq] at hpack
    split at hpack <;> omega
  have hman' : ((unpack w).man : ℝ) < 2 ^ 53 := by exact_mod_cast hman
  rw [abs_realOfBits]
  calc ((unpack w).man : ℝ) * 2 ^ (unpack w).exp < 2 ^ 53 * 2 ^ (unpack w).exp := by gcongr
    _ ≤ 2 ^ 53 * 2 ^ (971 : ℤ) := by gcongr; norm_num
    _ = 2 ^ (1024 : ℤ) := by rw [← zpow_natCast, ← zpow_add₀ two_ne_zero]; rfl

/-- Behind the 120 digits of a quotient less than half of it is cut. -/
theorem le_two_mul_quotient {m d : Nat} (hm : m ≠ 0) (hd0 : d ≠ 0) (hd : d < 2 ^ 53) :
    m * 2 ^ 120 ≤ 2 * (m * 2 ^ 120 / d) * d := by
  have hpos : 0 < d := Nat.pos_of_ne_zero hd0
  have hone : 1 ≤ m * 2 ^ 120 / d := (Nat.one_le_div_iff hpos).2 (by omega)
  have hcut := Nat.lt_div_mul_add hpos (a := m * 2 ^ 120)
  have hquotient : d ≤ m * 2 ^ 120 / d * d := Nat.le_mul_of_pos_left d hone
  rw [Nat.mul_assoc]
  omega

/-- The quotient on its digits is at least half the exact one. -/
theorem le_quotient {m d : Nat} {e f : Int} {x : ℝ} (hm : m ≠ 0) (hd0 : d ≠ 0) (hd : d < 2 ^ 53)
    (h : 2 * x * (d * 2 ^ f) ≤ m * 2 ^ e) : x ≤ (m * 2 ^ 120 / d : Nat) * 2 ^ (e - f - 120) := by
  have hquotient : (m : ℝ) * 2 ^ 120 ≤ 2 * (m * 2 ^ 120 / d : Nat) * d := by exact_mod_cast le_two_mul_quotient hm hd0 hd
  have hpos : (0 : ℝ) < 2 * (d * 2 ^ f) := by
    have : (0 : ℝ) < d := by exact_mod_cast Nat.pos_of_ne_zero hd0
    positivity
  refine le_of_mul_le_mul_right ?_ hpos
  calc x * (2 * (d * 2 ^ f)) = 2 * x * (d * 2 ^ f) := by ring
    _ ≤ m * 2 ^ e := h
    _ = m * 2 ^ 120 * 2 ^ (e - 120) := by
        rw [mul_assoc, zpow_sub₀ two_ne_zero, mul_div_left_comm, zpow_ofNat, div_self (by positivity), mul_one]
    _ ≤ 2 * (m * 2 ^ 120 / d : Nat) * d * 2 ^ (e - 120) := by gcongr
    _ = (m * 2 ^ 120 / d : Nat) * 2 ^ (e - f - 120) * (2 * (d * 2 ^ f)) := by
        rw [show e - 120 = e - f - 120 + f by ring, zpow_add₀ two_ne_zero]; ring

theorem realOfBits_one : realOfBits 1 = 2 ^ (-1074 : ℤ) := by
  have hunpack : unpack 1 = ⟨false, 1, -1074⟩ := by decide
  rw [realOfBits, hunpack]
  simp

/-- A positive number over another is a positive number, unless it is too small for binary64. -/
theorem f64Div_pos {a b : Binary64} (ha : isFiniteWord a.bits = true) (hb : isFiniteWord b.bits = true)
    (hb0 : 0 < realOfBits b.bits) (h : 2 * 2 ^ (-1074 : ℤ) * realOfBits b.bits ≤ realOfBits a.bits) :
    0 < realOfBits (f64Div a b).bits := by
  have ha0 : 0 < realOfBits a.bits := lt_of_lt_of_le (by positivity) h
  obtain ⟨hnegB, hmanB⟩ := unpack_of_pos hb0
  obtain ⟨hnegA, hmanA⟩ := unpack_of_pos ha0
  obtain ⟨hsize, -⟩ := unpack_shape hb
  rw [← abs_of_pos hb0, ← abs_of_pos ha0, abs_realOfBits, abs_realOfBits] at h
  have hquotient := le_quotient hmanA hmanB hsize h
  rw [f64Div, f64Binary_of_finite _ _ ha hb, divRounded, if_neg hmanB, hnegA, hnegB, Nat.shiftLeft_eq]
  obtain ⟨-, x, -, -, hvalue, hlarge⟩ := roundPack_pattern (false != false) _ _ _ _
  have hleast : |realOfBits 1| = 2 ^ (-1074 : ℤ) := by rw [realOfBits_one, abs_of_pos (by positivity)]
  have hx := hlarge 1 rfl (hleast ▸ hquotient) (hleast ▸ zpow_le_zpow_right₀ one_le_two (by norm_num))
  rw [hvalue, bne_self_eq_false, if_neg Bool.false_ne_true, one_mul]
  exact lt_of_lt_of_le (hleast ▸ by positivity) hx

/-- The clamping power is the positive number that R110 gives (40_tone_table_geometry.md). -/
theorem floorPower_f64 : floorPower binary64Numerics = ⟨0x3D719799812DEA11⟩ := by decide +kernel

theorem le_floorPower_f64 : 2 ^ (-40 : ℤ) ≤ realOfBits (floorPower binary64Numerics).bits := by
  have hunpack : unpack 0x3D719799812DEA11 = ⟨false, 0x119799812DEA11, -92⟩ := by decide
  rw [floorPower_f64, realOfBits, hunpack]
  norm_num

/-- A clamped power is a number, not below the clamping power. -/
theorem f64Max_floorPower {a : Binary64} (ha : isFiniteWord a.bits = true) :
    isFiniteWord (f64Max a (floorPower binary64Numerics)).bits = true ∧
      2 ^ (-40 : ℤ) ≤ realOfBits (f64Max a (floorPower binary64Numerics)).bits := by
  have hfinite : isFiniteWord (floorPower binary64Numerics).bits = true := by rw [floorPower_f64]; decide
  unfold f64Max
  split
  next => exact ⟨hfinite, le_floorPower_f64⟩
  next hlt => exact ⟨ha, le_floorPower_f64.trans (not_lt.1 fun h => hlt ((f64Lt_iff ha hfinite).2 h))⟩

/-- The quotient of two clamped powers is positive. -/
theorem clampedQuotient_pos {a b : Binary64} (ha : isFiniteWord a.bits = true) (hb : isFiniteWord b.bits = true) :
    0 < realOfBits
      (f64Div (f64Max a (floorPower binary64Numerics)) (f64Max b (floorPower binary64Numerics))).bits := by
  obtain ⟨hfiniteA, hleA⟩ := f64Max_floorPower ha
  obtain ⟨hfiniteB, hleB⟩ := f64Max_floorPower hb
  refine f64Div_pos hfiniteA hfiniteB (lt_of_lt_of_le (by positivity) hleB) ?_
  have hltB := (le_abs_self _).trans_lt (abs_realOfBits_lt hfiniteB)
  calc (2 : ℝ) * 2 ^ (-1074 : ℤ) * _ ≤ 2 * 2 ^ (-1074 : ℤ) * 2 ^ (1024 : ℤ) := by gcongr
    _ = 2 ^ (-49 : ℤ) := by
        rw [← zpow_one_add₀ two_ne_zero, ← zpow_add₀ two_ne_zero]; rfl
    _ ≤ 2 ^ (-40 : ℤ) := zpow_le_zpow_right₀ one_le_two (by norm_num)
    _ ≤ _ := hleA

/-- The decimal logarithm of a positive number is small. -/
theorem abs_f64Log10_le {q : Binary64} (hq : isFiniteWord q.bits = true) (hpos : 0 < realOfBits q.bits) :
    |realOfBits (f64Log10 q).bits| ≤ 2 ^ (101 : ℤ) := by
  have hlog : f64Log10 q = ⟨(log10Rounded (unpack q.bits)).pattern (Config.freeNumber .log10 q.bits 0)⟩ := by
    simp only [f64Log10, f64Unary, hq]
  obtain ⟨hneg, hman⟩ := unpack_of_pos hpos
  rw [hlog]
  exact log10Rounded_small hq hman hneg _

theorem realOfBits_ten : realOfBits (f64OfInt 10).bits = 10 := by
  have hunpack : unpack (f64OfInt 10).bits = ⟨false, 0x14000000000000, -49⟩ := by decide +kernel
  rw [realOfBits, hunpack]
  norm_num

theorem snrdb_f64 (a b : Binary64) :
    snrdb binary64Numerics a b = f64Mul (f64OfInt 10)
      (f64Log10 (f64Div (f64Max a (floorPower binary64Numerics)) (f64Max b (floorPower binary64Numerics)))) := rfl

/-- The reading of two powers is ten times a small logarithm. -/
theorem abs_snrdb_f64_le {a b : Binary64} (ha : isFiniteWord a.bits = true) (hb : isFiniteWord b.bits = true) :
    |realOfBits (snrdb binary64Numerics a b).bits| ≤ 2 ^ (1023 : ℤ) := by
  have hpos := clampedQuotient_pos ha hb
  have hten := realOfBits_ten
  obtain ⟨-, -, -, hq, -⟩ :=
    f64_isFinite (f64Max a (floorPower binary64Numerics)) (f64Max b (floorPower binary64Numerics)) 0 0
  rw [snrdb_f64]
  generalize f64Div (f64Max a (floorPower binary64Numerics)) (f64Max b (floorPower binary64Numerics)) = q at *
  obtain ⟨-, -, -, -, -, -, -, hlogFinite, -, htenFinite⟩ := f64_isFinite q q 0 10
  generalize f64OfInt 10 = ten at *
  have hproduct : |realOfBits ten.bits * realOfBits (f64Log10 q).bits| < 2 ^ ((104 : ℤ) + 1) := by
    rw [hten, abs_mul, abs_of_pos (by norm_num)]
    calc 10 * |realOfBits (f64Log10 q).bits| ≤ 10 * 2 ^ (101 : ℤ) := by gcongr; exact abs_f64Log10_le hq hpos
      _ < 2 ^ ((104 : ℤ) + 1) := by norm_num
  have hle := abs_f64Mul_le htenFinite hlogFinite (by norm_num) (by norm_num) hproduct
  exact hle.trans (zpow_le_zpow_right₀ one_le_two (by norm_num))

/-! ## The obligation -/

/-- Settles O42: over the reals and in binary64 the level is at least the maximum, or below every reading; and the reading of
two numbers is small. -/
theorem noPeakWithoutDominance : Obligations.NoPeakWithoutDominance := by
  refine ⟨fun c n v h => ⟨peaksOf_replicate_real c n v, fun hratio => peaksOf_eq_zero_real hratio h, ?_⟩,
    fun c h hc hh => ⟨peaksOf_eq_zero_f64 hc hh, fun hratio negative v => qualifies_f64_of_neg hc hh hratio negative⟩,
    fun a b ha hb => ⟨f64Binary_isFinite _ mulRounded_isFinite _ _, abs_snrdb_f64_le ha hb⟩⟩
  intro hratio hmax negative w
  exact qualifies_of_lt (lt_real.2 ((mul_neg_of_pos_of_neg hmax hratio).trans_le (absNum_real w ▸ abs_nonneg w)))

end Sys2Proof.Machine
end

section
/-!
PROOF. The statements about the frame decoder's step (44_frame_decoder.md): the window that has left the buffer or not arrived
(R182, R183), the code of a window (R185, R186), what a decoded word does (R187 to R191), the frame of every synchronized step
(R192), and the reference Hamming pair (R197, R199, R200).

What a synchronized step can do is said already (`syncStep_cases`); here each branch has its condition in the words of the
claims.  The reference decoder rests on the syndrome being linear (`hamSyndrome_xor`): a codeword's is 0, so that of a codeword
with one bit flipped is the position of that bit.
-/

namespace Sys2Proof.Machine

/-! ## The three places of the word window (44_frame_decoder.md R182, R183) -/

theorem syncStep_of_left {s : State} (h : wordPosition s < bufferBase s) :
    syncStep s = .ok (.error, consumePending (raiseError .missedWindow s)) := if_pos h

theorem syncStep_of_not_arrived {s : State} (hretained : bufferBase s ≤ wordPosition s)
    (h : (s.pushed : Int) < wordPosition s + s.plat.wordLength) : syncStep s = .ok (.idle, consumePending s) :=
  (if_neg (not_lt.2 hretained)).trans (if_pos h)

/-- A window in the buffer is read and decoded, and the word does what it does. -/
theorem syncStep_of_arrived {s : State} (hretained : bufferBase s ≤ wordPosition s)
    (harrived : wordPosition s + s.plat.wordLength ≤ s.pushed) :
    ∃ x byte outcome, memRead s (wordPosition s) s.plat.wordLength = .ok x ∧
      (byte, outcome) = hdec s.plat.ham (windowCode s.plat.num s.plat.cfg x) ∧
      syncStep s = .ok ((acceptWord (wordPosition s) (byte, outcome) s).1,
        consumePending (acceptWord (wordPosition s) (byte, outcome) s).2) := by
  rcases syncStep_cases s with ⟨hleft, -⟩ | ⟨-, hlate, -⟩ | ⟨-, -, x, hread, hsync⟩
  · exact absurd hleft (not_lt.2 hretained)
  · exact absurd hlate (not_lt.2 harrived)
  · exact ⟨x, _, _, hread, rfl, hsync⟩

/-- Settles O46: the first sample is the one tested, and the error entry's head word is the constant of R90. -/
theorem missedWindowRaised : Obligations.MissedWindowRaised := by
  intro s hleft
  have hframe : eventFrame s.plat.cfg.np (.error s.processed .missedWindow) =
      [0xD000000000000000, BitVec.ofNat 64 s.processed] := errorFrame_eq _ _ _
  rw [syncStep_of_left hleft, ← hframe]
  rfl

/-- Settles O47: only the consumption of the pending samples is left. -/
theorem windowNotArrivedIdles : Obligations.WindowNotArrivedIdles :=
  fun _ hretained hlate => syncStep_of_not_arrived hretained hlate

/-! ## What a decoded word does, by the outcome and the cursor (44_frame_decoder.md R187 to R191) -/

section
variable {target : Int} {byte : Byte} {outcome : HamOutcome} {s : State}

theorem acceptWord_of_failed (h : outcome = .failCorrection) :
    acceptWord target (byte, outcome) s = (.error, raiseError .uncorrectable s) := if_pos h

theorem acceptWord_of_first (h : outcome ≠ .failCorrection) (hc : s.cursor = 0) :
    acceptWord target (byte, outcome) s = acceptValidation target byte (countCorrection outcome s) :=
  (if_neg h).trans (if_pos ((countCorrection_cursor outcome s).trans hc))

theorem acceptWord_of_later (h : outcome ≠ .failCorrection) (hc : 1 ≤ s.cursor) :
    acceptWord target (byte, outcome) s = acceptPayload target byte (countCorrection outcome s) :=
  (if_neg h).trans (if_neg (by rw [countCorrection_cursor]; omega))

theorem acceptValidation_of_ne (h : byte ≠ s.plat.sentinel) :
    acceptValidation target byte s = (.error, raiseError .validationMismatch s) := if_pos h

theorem acceptValidation_of_eq (h : byte = s.plat.sentinel) :
    acceptValidation target byte s = (.pitch, emit (.pitch target) { s with cursor := 1 }) := if_neg (not_not.2 h)

theorem acceptPayload_of_more (h : s.cursor ≠ s.plat.cfg.np) :
    acceptPayload target byte s = (.pitch, emit (.pitch target)
      { s with parsed := s.parsed.set (s.cursor - 1) byte, cursor := s.cursor + 1 }) :=
  if_neg fun hlast => h (Nat.succ_injective hlast)

theorem acceptPayload_of_last (h : s.cursor = s.plat.cfg.np) :
    acceptPayload target byte s = (.complete,
      { emit (.message (s.parsed.set (s.cursor - 1) byte) s.trig)
          { s with parsed := s.parsed.set (s.cursor - 1) byte, cursor := s.cursor + 1 } with trig := -1 }) :=
  if_pos (congrArg Nat.succ h)

end

/-- Settles O48: the word is read and counted, and each clause is one branch of the acceptance. -/
theorem decodedWordTransitions : Obligations.DecodedWordTransitions := by
  rintro s target cerr rfl hretained harrived
  obtain ⟨x, byte, outcome, hread, hanswer, hsync⟩ := syncStep_of_arrived hretained harrived
  refine ⟨x, byte, outcome, hread, hanswer, fun hcerr => ?_⟩
  have hcount : countCorrection outcome s = { s with cerr := cerr } := by
    rw [hcerr, countCorrection]; split <;> rfl
  rw [hsync]
  refine ⟨fun hfail => ?_, fun hok hcursor hbyte => ?_, fun hok hcursor hbyte => ?_, fun hok hcursor hmore => ?_,
    fun hok hcursor hlast => ?_⟩
  · rw [acceptWord_of_failed hfail]; rfl
  · rw [acceptWord_of_first hok hcursor, hcount, acceptValidation_of_ne (s := { s with cerr := cerr }) hbyte]; rfl
  · rw [acceptWord_of_first hok hcursor, hcount, acceptValidation_of_eq (s := { s with cerr := cerr }) hbyte]; rfl
  · rw [acceptWord_of_later hok hcursor, hcount, acceptPayload_of_more (s := { s with cerr := cerr }) hmore]; rfl
  · rw [acceptWord_of_later hok hcursor, hcount, acceptPayload_of_last (s := { s with cerr := cerr }) hlast]; rfl

/-! ## What every synchronized step leaves unchanged (43_synchronizer.md R172; 44_frame_decoder.md R192) -/

theorem acceptValidation_hist (target : Int) (byte : Byte) (s : State) :
    (acceptValidation target byte s).2.hist = s.hist := by
  unfold acceptValidation; split <;> rfl

theorem acceptPayload_hist (target : Int) (byte : Byte) (s : State) :
    (acceptPayload target byte s).2.hist = s.hist := by
  simp only [acceptPayload]; split <;> rfl

theorem acceptWord_hist (target : Int) (a : Byte × HamOutcome) (s : State) : (acceptWord target a s).2.hist = s.hist := by
  rcases acceptWord_cases target a s with ⟨-, h⟩ | ⟨-, -, h⟩ | ⟨-, -, h⟩ <;> rw [h]
  · rfl
  · rw [acceptValidation_hist, countCorrection_hist]
  · rw [acceptPayload_hist, countCorrection_hist]

theorem syncStep_hist {s t : State} {r : StepResult} (h : syncStep s = .ok (r, t)) : t.hist = s.hist := by
  rcases syncStep_cases s with ⟨-, h'⟩ | ⟨-, -, h'⟩ | ⟨-, -, x, -, h'⟩ <;> rw [h'] at h <;> cases h
  · rfl
  · rfl
  · exact acceptWord_hist _ _ s

/-- Settles O49: a synchronized step completes, consumes what is pending, and keeps the samples and the history. -/
theorem syncStepConsumesPending : Obligations.SyncStepConsumesPending := by
  intro s
  obtain ⟨r, t, h⟩ := syncStep_total s
  have hframe := syncStep_stepFrame h
  exact ⟨r, t, h, syncStep_processed h, hframe.pushed, hframe.buf, syncStep_hist h, hframe.plat⟩

/-! ## The code of a window (44_frame_decoder.md R185, R186) -/

theorem assembleCode_cons (b : Bool) (bits : List Bool) : assembleCode (b :: bits) = Nat.bit b (assembleCode bits) := by
  rw [Nat.bit_val, Nat.add_comm]; rfl

theorem assembleCode_testBit : ∀ (bits : List Bool) (i : Nat), (assembleCode bits).testBit i = bits.getD i false
  | [], i => Nat.zero_testBit i
  | b :: bits, 0 => by rw [assembleCode_cons, Nat.testBit_bit_zero, List.getD_cons_zero]
  | b :: bits, i + 1 => by
    rw [assembleCode_cons, Nat.testBit_bit_succ, List.getD_cons_succ, assembleCode_testBit bits i]

/-- Settles O50: bit `i` of the code is the `i`-th decision, and the lanes of `GZ` are in the order of the tables. -/
theorem codeBitsByLane : Obligations.CodeBitsByLane := by
  intro T num c x i hi
  rw [windowCode, BitVec.getLsbD_ofNat, assembleCode_testBit, List.getD_eq_getElem?_getD, List.getElem?_zipWith]
  simp [gz, lowTones, upTones, decideBit, hi]

/-! ## The reference Hamming pair (44_frame_decoder.md R197, R199, R200) -/

/-- The exclusive-or of the positions of a list that are set in a code, from `s` on. -/
def positionsXor (c : Code) (s : Nat) (positions : List Nat) : Nat :=
  positions.foldl (fun s p => if hamBit c p then s ^^^ p else s) s

theorem hamSyndrome_eq (c : Code) : hamSyndrome c = positionsXor c 0 ((List.range 12).map (· + 1)) := rfl

theorem positionsXor_xor (c d : Code) : ∀ (positions : List Nat) (s t : Nat),
    positionsXor (c ^^^ d) (s ^^^ t) positions = positionsXor c s positions ^^^ positionsXor d t positions
  | [], _, _ => rfl
  | p :: ps, s, t => by
    have hstep : (if hamBit (c ^^^ d) p then s ^^^ t ^^^ p else s ^^^ t) =
        (if hamBit c p then s ^^^ p else s) ^^^ (if hamBit d p then t ^^^ p else t) := by
      simp only [hamBit, BitVec.getLsbD_xor]
      by_cases hc : c.getLsbD (p - 1) = true <;> by_cases hd : d.getLsbD (p - 1) = true <;>
        simp [hc, hd, Nat.xor_comm, Nat.xor_left_comm]
    calc positionsXor (c ^^^ d) (s ^^^ t) (p :: ps)
        = positionsXor (c ^^^ d) (if hamBit (c ^^^ d) p then s ^^^ t ^^^ p else s ^^^ t) ps := rfl
      _ = positionsXor c s (p :: ps) ^^^ positionsXor d t (p :: ps) := by rw [hstep, positionsXor_xor c d ps]; rfl

theorem hamSyndrome_xor (c d : Code) : hamSyndrome (c ^^^ d) = hamSyndrome c ^^^ hamSyndrome d :=
  positionsXor_xor c d _ 0 0

/-- The syndrome of one bit is its position. -/
theorem hamSyndrome_oneBit : ∀ k : Fin 12, hamSyndrome (1#12 <<< (k : Nat)) = k + 1 := by decide

/-- Every byte's codeword has the syndrome 0 and the byte at its data positions. -/
theorem hamRefEncode_codeword : ∀ b : Byte, hamSyndrome (hamRefEncode b) = 0 ∧ hamReadData (hamRefEncode b) = b := by
  decide +kernel

/-- Settles O51: the syndrome is linear, so a flipped bit of a codeword is where the decoder flips it back. -/
theorem referenceHammingCorrects : Obligations.ReferenceHammingCorrects := by
  refine ⟨fun b => ?_, fun b k => ?_⟩ <;> obtain ⟨hsyndrome, hdata⟩ := hamRefEncode_codeword b
  · simp only [henc, hdec, hamRefDecode, hsyndrome, hdata, if_true]
  · have hflipped : hamSyndrome (hamRefEncode b ^^^ (1#12 <<< (k : Nat))) = k + 1 := by
      rw [hamSyndrome_xor, hsyndrome, hamSyndrome_oneBit, Nat.zero_xor]
    have hrestored : hamRefEncode b ^^^ (1#12 <<< (k : Nat)) ^^^ hamMask (k + 1) = hamRefEncode b := by
      rw [hamMask, Nat.add_sub_cancel, BitVec.xor_assoc, BitVec.xor_self, BitVec.xor_zero]
    simp only [henc, hdec, hamRefDecode, hflipped, hrestored, hdata]
    rw [if_neg (Nat.succ_ne_zero _), if_pos (by omega)]

end Sys2Proof.Machine
end

section
/-!
PROOF. The statements about the encoder (45_encoder.md) and about the two commands that read no engine state (R219;
41_goertzel.md R127).

A burst writes its own window only and adds to it (`burst_outside`, `burst_inside_real`), and so do a codeword and the
payload's codewords; since the windows do not overlap (R211), each sample of the waveform is the chirp's or one word's.
The bound of R217 and the silent ends of R220 are facts about these two kinds of sample (`waveform_segment_real`).
-/

namespace Sys2Proof.Machine

variable {T : Type}

/-! ## Commands that read the platform only (45_encoder.md R219; 41_goertzel.md R127) -/

/-- A command whose effect is its response alone answers the same frame in two states in which its checks and its data
are the same. -/
theorem complete_respond_same {cs : List (Option Status)} {data : State → List Word} {s t : State}
    (hdata : data s = data t) :
    ∃ r, complete cs (fun s => .ok (respond (data s) s)) s = .next { s with respPort := s.respPort ++ [r] } ∧
      complete cs (fun s => .ok (respond (data s) s)) t = .next { t with respPort := t.respPort ++ [r] } := by
  cases hc : firstFailure cs with
  | some st => exact ⟨_, complete_refused hc, complete_refused hc⟩
  | none => exact ⟨_, complete_pure hc, by rw [complete_pure hc, respond, hdata]⟩

theorem encodeChecks_congr (o : Operands) {s t : State} (h : s.plat = t.plat) :
    encodeChecks o s = encodeChecks o t := by
  simp only [encodeChecks, configAdmitted, h]

theorem goertzelChecks_congr (o : Operands) {s t : State} (h : s.plat = t.plat) :
    goertzelChecks o s = goertzelChecks o t := by
  simp only [goertzelChecks, configAdmitted, h]

/-- Settles O53: the checks and the response words of both commands are functions of the operands and the platform. -/
theorem pureCommandsIgnoreEngine : Obligations.PureCommandsIgnoreEngine := by
  intro o s t h
  simp only [exec, execEncode, execGoertzel]
  rw [encodeChecks_congr o h, goertzelChecks_congr o h]
  exact ⟨complete_respond_same (by rw [h]), complete_respond_same (by rw [h])⟩

/-! ## The length of the waveform (45_encoder.md R210, R211) -/

@[simp] theorem burst_length (num : Numerics T) (fs : T) (base len : Nat) (f amp : T) (out : List T) :
    (burst num fs base len f amp out).length = out.length := List.length_mapIdx

@[simp] theorem codeword_length (num : Numerics T) (c : Config T) (base len : Nat) (code : Code) (peak : T)
    (out : List T) : (codeword num c base len code peak out).length = out.length :=
  List.foldlRecOn (motive := fun acc : List T => acc.length = out.length) _ _ rfl fun _ hacc _ _ =>
    (burst_length ..).trans hacc

@[simp] theorem payloadCodewords_length (num : Numerics T) (c : Config T) (ham : Ham) (peak : T) (payload : List Byte)
    (out : List T) : (payloadCodewords num c ham peak payload out).length = out.length :=
  List.foldlRecOn (motive := fun acc : List T => acc.length = out.length) _ _ rfl fun _ hacc _ _ =>
    (codeword_length ..).trans hacc

@[simp] theorem waveform_length (num : Numerics T) (c : Config T) (ham : Ham) (sentinel : Byte) (payload : List Byte)
    (peak : T) : (waveform num c ham sentinel payload peak).length = frameLength num c := by
  simp [waveform, chirp]

/-! ## ENCODE (45_encoder.md R216) -/

/-- An accepted ENCODE answers its samples and changes nothing else. -/
theorem exec_encode_of_accepted {o : Operands} {s : State} (h : accepted (.encode o) s) :
    exec (.encode o) s = .next (respond (encodeSamples s.plat.num s.plat.cfg s.plat.ham s.plat.sentinel o) s) :=
  complete_pure ((firstFailure_checksOf (.encode o) s).trans (firstFailure_tableRows_eq_none_iff.2 h))

/-- The payload bytes stand where R86 puts them among all the data words. -/
theorem payloadOf_eq_map (o : Operands) : payloadOf o = (List.range o.n.toNat).map (byteAt o.data) := by
  refine List.map_congr_left fun k hk => byteAt_take ?_
  have hlt : k < o.n.toNat := List.mem_range.1 hk
  simp only [wordsForBytes]
  omega

/-- Settles O52: no row of the table of R88 refuses the command, and the waveform has `LTOT` samples. -/
theorem encodeAnswersWaveform : Obligations.EncodeAnswersWaveform := by
  intro o s h
  have hlength : (encodeSamples s.plat.num s.plat.cfg s.plat.ham s.plat.sentinel o).length = s.plat.frameLength := by
    simp [encodeSamples]
  refine ⟨_, _, exec_encode_of_accepted h, hlength, fun hfits => ?_, ?_⟩
  · rw [hlength, statusWord_ok hfits]
  · rw [encodeSamples, payloadOf_eq_map, peakOf, Platform.num_ofBits, Platform.num_toBits]
    rfl

/-! ## What a burst leaves unchanged (45_encoder.md R211, R213) -/

/-- A burst writes its own window only. -/
theorem burst_outside {base len j : Nat} (h : j < base ∨ base + len ≤ j) (num : Numerics T) (fs f amp : T)
    (out : List T) : (burst num fs base len f amp out)[j]? = out[j]? := by
  have hnot : ¬ (base ≤ j ∧ j < base + len) := by omega
  simp [burst, hnot]

theorem codeword_outside {base len j : Nat} (h : j < base ∨ base + len ≤ j) (num : Numerics T) (c : Config T)
    (code : Code) (peak : T) (out : List T) : (codeword num c base len code peak out)[j]? = out[j]? :=
  List.foldlRecOn (motive := fun acc => acc[j]? = out[j]?) _ _ rfl fun _ hacc _ _ => (burst_outside h ..).trans hacc

/-- A place in one of `m` windows of `w` samples lies before their end. -/
theorem window_place_lt {k m n w : Nat} (hk : k < m) (hn : n < w) : k * w + n < m * w := by
  rw [Nat.mul_comm k]
  exact Nat.mul_add_lt_mul_of_lt_of_lt hk hn

/-- The payload's codewords write the windows behind the validation word only, one for each byte. -/
theorem payloadCodewords_outside {num : Numerics T} {c : Config T} {payload : List Byte} {j : Nat}
    (h : j < 2 * doorLength num c ∨ 2 * doorLength num c + payload.length * wordLength num c ≤ j) (ham : Ham) (peak : T)
    (out : List T) : (payloadCodewords num c ham peak payload out)[j]? = out[j]? := by
  refine List.foldlRecOn (motive := fun acc => acc[j]? = out[j]?) _ _ rfl fun acc hacc bk hbk => ?_
  have hk : bk.2 + 1 ≤ payload.length := by simpa using List.snd_lt_add_of_mem_zipIdx hbk
  have hend : bk.2 * wordLength num c + wordLength num c ≤ payload.length * wordLength num c := by
    rw [← Nat.succ_mul]
    exact Nat.mul_le_mul_right _ hk
  exact (codeword_outside (by omega) ..).trans hacc

/-- The last byte's codeword is rendered last. -/
theorem payloadCodewords_append_singleton (num : Numerics T) (c : Config T) (ham : Ham) (peak : T) (payload : List Byte)
    (b : Byte) (out : List T) :
    payloadCodewords num c ham peak (payload ++ [b]) out =
      codeword num c (2 * doorLength num c + payload.length * wordLength num c) (wordLength num c) (henc ham b) peak
        (payloadCodewords num c ham peak payload out) := by
  simp [payloadCodewords, List.zipIdx_append, List.foldl_append]

/-! ## What a burst adds, over the reals (45_encoder.md R213 to R215) -/

theorem burstSample_real (c : Config ℝ) (len : Nat) (f amp : ℝ) (n : Nat) :
    burstSample realNumerics c.fs len f amp n = realBurst c len f amp n := by
  simp [burstSample, hann, realBurst, realHann, realNumerics]

theorem codeTone_real (c : Config ℝ) (code : Code) (i : Nat) :
    codeTone realNumerics c code i = realTone c (if code.getLsbD i then 2 * i else 2 * i + 1) := by
  unfold codeTone lowTone upTone
  split <;> exact tone_real c _

@[simp] theorem add_real (a b : ℝ) : realNumerics.add a b = a + b := rfl

theorem burst_inside_real {base len n : Nat} {v : ℝ} {out : List ℝ} (hn : n < len) (hv : out[base + n]? = some v)
    (c : Config ℝ) (f amp : ℝ) :
    (burst realNumerics c.fs base len f amp out)[base + n]? = some (v + realBurst c len f amp n) := by
  simp [burst, hv, hn, burstSample_real]

/-- Bursts of one amplitude over the same window add up. -/
theorem bursts_inside_real {base len n : Nat} {v : ℝ} {out : List ℝ} (hn : n < len) (hv : out[base + n]? = some v)
    (c : Config ℝ) (f : Nat → ℝ) (amp : ℝ) (m : Nat) :
    ((List.range m).foldl (fun acc i => burst realNumerics c.fs base len (f i) amp acc) out)[base + n]? =
      some (v + ∑ i ∈ Finset.range m, realBurst c len (f i) amp n) := by
  induction m with
  | zero => simp [hv]
  | succ m ih =>
    rw [List.range_succ, List.foldl_concat, Finset.sum_range_succ, ← add_assoc]
    exact burst_inside_real hn ih c (f m) amp

theorem codeword_inside_real {base len n : Nat} {v : ℝ} {out : List ℝ} (hn : n < len) (hv : out[base + n]? = some v)
    (c : Config ℝ) (code : Code) (peak : ℝ) :
    (codeword realNumerics c base len code peak out)[base + n]? = some (v + realWordSample c len code peak n) := by
  have hamp : realNumerics.div peak (realNumerics.ofInt 12) = peak / 12 := by simp [realNumerics]
  rw [codeword, bursts_inside_real hn hv, hamp]
  simp only [codeTone_real, realWordSample]

/-- The word of byte `k` stands in the `k`-th window behind the validation word, where the output was 0 before. -/
theorem payloadCodewords_inside_real {c : Config ℝ} {payload : List Byte} {out : List ℝ} {k n : Nat} {b : Byte}
    (hn : n < wordLength realNumerics c) (hb : payload[k]? = some b)
    (hout : out[2 * doorLength realNumerics c + k * wordLength realNumerics c + n]? = some 0) (ham : Ham) (peak : ℝ) :
    (payloadCodewords realNumerics c ham peak payload out)[2 * doorLength realNumerics c +
      k * wordLength realNumerics c + n]? = some (realWordSample c (wordLength realNumerics c) (henc ham b) peak n) := by
  induction payload using List.reverseRecOn with
  | nil => simp at hb
  | append_singleton bs last ih =>
    rw [payloadCodewords_append_singleton]
    rcases Nat.lt_trichotomy k bs.length with hlt | rfl | hgt
    · have hplace := window_place_lt hlt hn
      rw [codeword_outside (by omega)]
      exact ih (by rwa [List.getElem?_append_left hlt] at hb)
    · obtain rfl : last = b := by simpa using hb
      rw [codeword_inside_real hn ((payloadCodewords_outside (by omega) ham peak out).trans hout), zero_add]
    · rw [List.getElem?_eq_none (by simp; omega)] at hb
      cases hb

/-! ## The samples of the waveform (45_encoder.md R211) -/

/-- The output starts as zeros (45_encoder.md R216). -/
theorem frameZeros_real {c : Config ℝ} {j : Nat} (h : j < frameLength realNumerics c) :
    (List.replicate (frameLength realNumerics c) (realNumerics.ofInt 0))[j]? = some 0 := by
  rw [List.getElem?_replicate_of_lt h, ofInt_zero_real]

section
variable {c : Config ℝ} {n : Nat} (hn : n < wordLength realNumerics c) (ham : Ham) (sentinel : Byte)
  (payload : List Byte) (peak : ℝ)
include hn

theorem waveform_chirp_real : (waveform realNumerics c ham sentinel payload peak)[n]? =
    some (realBurst c (wordLength realNumerics c) (realTone c 22) peak n) := by
  have hdoor : n < doorLength realNumerics c := hn
  have hframe : 0 + n < frameLength realNumerics c := by rw [frameLength]; omega
  have hchirp := burst_inside_real hdoor (frameZeros_real hframe) c (doorTone realNumerics c) peak
  rw [zero_add, zero_add, doorTone, lowTone, tone_real] at hchirp
  rw [waveform, payloadCodewords_outside (by omega), codeword_outside (by omega)]
  exact hchirp

theorem waveform_validation_real :
    (waveform realNumerics c ham sentinel payload peak)[wordLength realNumerics c + n]? =
      some (realWordSample c (wordLength realNumerics c) (henc ham sentinel) peak n) := by
  have hdoor : doorLength realNumerics c = wordLength realNumerics c := rfl
  have hsilent : (chirp realNumerics c peak (List.replicate (frameLength realNumerics c) (realNumerics.ofInt 0)))[
      wordLength realNumerics c + n]? = some 0 := by
    rw [chirp, burst_outside (by omega)]
    exact frameZeros_real (by rw [frameLength]; omega)
  rw [waveform, payloadCodewords_outside (by omega), hdoor, codeword_inside_real hn hsilent, zero_add]

theorem waveform_payload_real {k : Nat} {b : Byte} (hlength : payload.length = c.np) (hb : payload[k]? = some b) :
    (waveform realNumerics c ham sentinel payload peak)[2 * wordLength realNumerics c + k * wordLength realNumerics c +
      n]? = some (realWordSample c (wordLength realNumerics c) (henc ham b) peak n) := by
  have hdoor : doorLength realNumerics c = wordLength realNumerics c := rfl
  have hk : k < c.np := hlength ▸ (List.getElem?_eq_some_iff.1 hb).1
  have hplace := window_place_lt hk hn
  refine payloadCodewords_inside_real hn hb ?_ ham peak
  rw [codeword_outside (by omega), chirp, burst_outside (by omega)]
  exact frameZeros_real (by rw [frameLength]; omega)

/-- Every segment, at each of its places, is the chirp or a word. -/
theorem waveform_segment_real {k : Nat} (hlength : payload.length = c.np) (hk : k < c.np + 2) :
    ∃ v, (waveform realNumerics c ham sentinel payload peak)[k * wordLength realNumerics c + n]? = some v ∧
      (v = realBurst c (wordLength realNumerics c) (realTone c 22) peak n ∨
        ∃ code, v = realWordSample c (wordLength realNumerics c) code peak n) := by
  match k, hk with
  | 0, _ => exact ⟨_, by rw [Nat.zero_mul, Nat.zero_add]; exact waveform_chirp_real hn .., .inl rfl⟩
  | 1, _ => exact ⟨_, by rw [Nat.one_mul]; exact waveform_validation_real hn .., .inr ⟨_, rfl⟩⟩
  | k + 2, hk =>
    have hbyte : payload[k]? = some (payload[k]'(by omega)) := List.getElem?_eq_getElem _
    have hword := waveform_payload_real hn ham sentinel payload peak hlength hbyte
    exact ⟨_, by rwa [Nat.add_mul, Nat.add_comm (k * _)], .inr ⟨_, rfl⟩⟩

end

/-- Settles O54: the three segments one by one, each written by its own bursts into zeros. -/
theorem waveformSamples : Obligations.WaveformSamples := by
  rintro c ham sentinel payload peak out - hlength rfl
  exact ⟨waveform_length .., fun n hn => ⟨waveform_chirp_real hn .., waveform_validation_real hn ..,
    fun k b hb => waveform_payload_real hn ham sentinel payload peak hlength hb⟩⟩

/-! ## The bound and the silent ends (45_encoder.md R212, R217, R220) -/

theorem realHann_nonneg (n len : Nat) : 0 ≤ realHann n len := by
  have := Real.cos_le_one (2 * Real.pi * n / ((len : ℝ) - 1))
  unfold realHann
  linarith

theorem realHann_le_one (n len : Nat) : realHann n len ≤ 1 := by
  have := Real.neg_one_le_cos (2 * Real.pi * n / ((len : ℝ) - 1))
  unfold realHann
  linarith

theorem realHann_first (len : Nat) : realHann 0 len = 0 := by simp [realHann]

theorem realHann_last {len : Nat} (h : 2 ≤ len) : realHann (len - 1) len = 0 := by
  have hcast : ((len - 1 : ℕ) : ℝ) = len - 1 := by rw [Nat.cast_sub (by omega), Nat.cast_one]
  have hne : (len : ℝ) - 1 ≠ 0 := by rw [← hcast, Nat.cast_ne_zero]; omega
  rw [realHann, hcast, mul_div_cancel_right₀ _ hne, Real.cos_two_pi, sub_self, mul_zero]

theorem abs_realBurst_le (c : Config ℝ) (len : Nat) (f amp : ℝ) (n : Nat) : |realBurst c len f amp n| ≤ |amp| := by
  have hhann : |realHann n len| ≤ 1 := by
    rw [abs_of_nonneg (realHann_nonneg n len)]
    exact realHann_le_one n len
  rw [realBurst, mul_assoc, abs_mul, abs_mul]
  exact mul_le_of_le_one_right (abs_nonneg amp) (mul_le_one₀ hhann (abs_nonneg _) (Real.abs_sin_le_one _))

/-- Twelve tones, each of a twelfth of the peak. -/
theorem abs_realWordSample_le (c : Config ℝ) (len : Nat) (code : Code) (peak : ℝ) (n : Nat) :
    |realWordSample c len code peak n| ≤ |peak| :=
  calc |realWordSample c len code peak n| ≤ ∑ i ∈ Finset.range 12,
        |realBurst c len (realTone c (if code.getLsbD i then 2 * i else 2 * i + 1)) (peak / 12) n| :=
      Finset.abs_sum_le_sum_abs _ _
    _ ≤ ∑ _i ∈ Finset.range 12, |peak / 12| := Finset.sum_le_sum fun _ _ => abs_realBurst_le ..
    _ = |peak| := by
      rw [Finset.sum_const, Finset.card_range, nsmul_eq_mul, Nat.cast_ofNat, abs_div, Nat.abs_ofNat,
        mul_div_cancel₀ _ (OfNat.ofNat_ne_zero 12)]

theorem realBurst_of_hann_zero {len n : Nat} (h : realHann n len = 0) (c : Config ℝ) (f amp : ℝ) :
    realBurst c len f amp n = 0 := by
  rw [realBurst, h, mul_zero, zero_mul]

theorem realWordSample_of_hann_zero {len n : Nat} (h : realHann n len = 0) (c : Config ℝ) (code : Code) (peak : ℝ) :
    realWordSample c len code peak n = 0 :=
  Finset.sum_eq_zero fun _ _ => realBurst_of_hann_zero h c _ _

/-- Every segment is silent where the envelope is 0. -/
theorem waveform_of_hann_zero {c : Config ℝ} {payload : List Byte} {k n : Nat} (hn : n < wordLength realNumerics c)
    (hhann : realHann n (wordLength realNumerics c) = 0) (hlength : payload.length = c.np) (hk : k < c.np + 2)
    (ham : Ham) (sentinel : Byte) (peak : ℝ) :
    (waveform realNumerics c ham sentinel payload peak)[k * wordLength realNumerics c + n]? = some 0 := by
  obtain ⟨v, hv, rfl | ⟨code, rfl⟩⟩ := waveform_segment_real hn ham sentinel payload peak hlength hk
  · rwa [realBurst_of_hann_zero hhann] at hv
  · rwa [realWordSample_of_hann_zero hhann] at hv

/-- Settles O55: every place of the frame lies in a segment, and neither the chirp nor a word exceeds the peak. -/
theorem waveformWithinPeak : Obligations.WaveformWithinPeak := by
  intro c ham sentinel payload peak hadmitted hlength v hv
  obtain ⟨hpos, -, -⟩ := admitted_wordLength hadmitted
  obtain ⟨j, hj⟩ := List.mem_iff_getElem?.1 hv
  have hplace : j < frameLength realNumerics c := by simpa using (List.getElem?_eq_some_iff.1 hj).1
  have hsegment : j / wordLength realNumerics c < c.np + 2 := by
    rw [Nat.div_lt_iff_lt_mul (by omega), Nat.add_mul, Nat.add_comm]
    exact hplace
  obtain ⟨u, hu, hkind⟩ := waveform_segment_real (Nat.mod_lt j (by omega)) ham sentinel payload peak hlength hsegment
  rw [Nat.div_add_mod', hj, Option.some.injEq] at hu
  subst hu
  rcases hkind with rfl | ⟨code, rfl⟩
  · exact abs_realBurst_le ..
  · exact abs_realWordSample_le ..

/-- Settles O56: the envelope is 0 at both ends of a segment; that a peak of 0 is silence is the bound of O55. -/
theorem segmentsStartAndEndSilent : Obligations.SegmentsStartAndEndSilent := by
  intro c ham sentinel payload peak hadmitted hlength
  obtain ⟨hpos, -, -⟩ := admitted_wordLength hadmitted
  refine ⟨fun k hk => ⟨?_, ?_⟩, List.eq_replicate_iff.2 ⟨waveform_length .., fun v hv => ?_⟩⟩
  · exact waveform_of_hann_zero (n := 0) (by omega) (realHann_first _) hlength hk ham sentinel peak
  · exact waveform_of_hann_zero (by omega) (realHann_last (by omega)) hlength hk ham sentinel peak
  · have hbound := waveformWithinPeak c ham sentinel payload 0 hadmitted hlength v hv
    rwa [abs_zero, abs_nonpos_iff] at hbound

end Sys2Proof.Machine
end

section
/-!
PROOF. The statements about the queries and the control commands (46_query_control.md).

The accepted forms go through what each command does once its checks are passed; the refusals are rows of the table of R88
(`statusTable`).
-/

namespace Sys2Proof.Machine

/-! ## NOP (46_query_control.md R236) -/

/-- An accepted NOP answers OK and changes nothing else. -/
theorem exec_nop_of_accepted {o : Operands} {s : State} (h : accepted (.nop o) s) :
    exec (.nop o) s = .next { s with respPort := s.respPort ++ [[0]] } := by
  have hpass : firstFailure (bareChecks o s) = none :=
    (firstFailure_checksOf (.nop o) s).trans (firstFailure_tableRows_eq_none_iff.2 h)
  have hexec : execNop o s = .next (respond [] s) := complete_pure hpass
  rw [exec, hexec, respond_nil]

/-- The NOP of the all-zero word is refused by the configuration only. -/
theorem nop_bare_accepted {s : State} (ha : s.plat.admitted = true) : accepted (.nop bareOperands) s :=
  accepted_iff.2 ⟨by decide, by simp [configRefused, ha], id, nofun⟩

/-- Settles O11: the all-zero word is accepted under an admitted configuration, and each refusal is a row of the table. -/
theorem nopOnlyResponds : Obligations.NopOnlyResponds := by
  refine ⟨by decide, fun s ha => exec_nop_of_accepted (nop_bare_accepted ha), fun o s => ?_⟩
  obtain ⟨hreserved, hconfig, hcount, -⟩ := statusTable.2 (.nop o) s
  have hzero : o.rsv = 0 → o.k = 0 → o.n = 0 → ¬ reservedNonzero (.nop o) := fun hr hk hn => by
    simp [reservedNonzero, hr, hk, hn]
  exact ⟨hreserved, fun hr hk hn hbad => hconfig (hzero hr hk hn) hbad,
    fun hr hk hn ha hdata => hcount (hzero hr hk hn) (by simp [configRefused, ha]) hdata⟩

/-! ## The queries (46_query_control.md R231 to R234) -/

/-- Settles O12: the query of `TRIG`. -/
theorem rdtrigReturnsTrigger : Obligations.RdtrigReturnsTrigger :=
  ⟨by decide, fun _ ha => answerQuery_bare (fun s => integerWord s.trig) ha⟩

/-- An integer from 0 on stands in its word as the natural number it is (30_encoding.md R85). -/
theorem integerWord_natCast (n : Nat) : integerWord n = BitVec.ofNat 64 n := BitVec.ofInt_natCast 64 n

/-- A query of a natural number, without operands under an admitted configuration. -/
theorem answerQuery_natCast_bare (value : State → Nat) {s : State} (ha : s.plat.admitted = true) :
    answerQuery bareOperands (fun s => integerWord (value s)) s =
      .next { s with respPort := s.respPort ++ [[1, BitVec.ofNat 64 (value s)]] } := by
  rw [answerQuery_bare _ ha, integerWord_natCast]

/-- Settles O13: the query of `W`. -/
theorem rdwlenReturnsWordLength : Obligations.RdwlenReturnsWordLength :=
  ⟨by decide, fun _ ha => answerQuery_natCast_bare (fun s => s.plat.wordLength) ha⟩

/-- Settles O14: the query of `DOOR`. -/
theorem rddlenReturnsDoorLength : Obligations.RddlenReturnsDoorLength :=
  ⟨by decide, fun _ ha => answerQuery_natCast_bare (fun s => s.plat.doorLength) ha⟩

/-- Settles O15: the query of `CERR`. -/
theorem rdcerrReturnsCorrections : Obligations.RdcerrReturnsCorrections :=
  ⟨by decide, fun _ ha => answerQuery_natCast_bare State.cerr ha⟩

/-! ## RESET (46_query_control.md R237) -/

/-- A RESET without operands under a configuration that is not admitted only responds. -/
theorem execReset_bare_of_not_admitted {s : State} (ha : s.plat.admitted = false) :
    exec (.reset bareOperands) s = .next { s with respPort := s.respPort ++ [[0]] } := by
  have hpass : firstFailure (resetChecks bareOperands) = none := by decide
  calc exec (.reset bareOperands) s
      = .next (respond [] (if configAdmitted s then resetEngine s else s)) := complete_pure hpass
    _ = .next (respond [] s) := by rw [configAdmitted, ha, if_neg Bool.false_ne_true]
    _ = _ := by rw [respond_nil]

/-- Settles O17: the values are those of `resetEngine`, of which an admitted configuration fixes the lengths; the refusals
are rows of the table. -/
theorem resetRestoresEngine : Obligations.ResetRestoresEngine := by
  refine ⟨by decide, fun s => ⟨fun ha => ?_, execReset_bare_of_not_admitted⟩, fun o s => ?_⟩
  · have hhist : s.plat.historyLength = 12 := admitted_historyLength ha
    refine ⟨_, execReset_bare ha, rfl, rfl, rfl, rfl, rfl, rfl, ?_, rfl, rfl, rfl, rfl, ?_⟩
    · rw [respond_hist, resetEngine_hist, hhist]
    · rw [respond_nil, resetEngine_respPort]
  · obtain ⟨hreserved, -, hcount, -⟩ := statusTable.2 (.reset o) s
    exact ⟨hreserved, fun hr hk hn hdata => hcount (by simp [reservedNonzero, hr, hk, hn]) id hdata⟩

end Sys2Proof.Machine
end

section
/-!
PROOF. The statement about the empty command port (70_reset_and_hazards.md R289; log 11) and those about exceptions
(60_exceptions.md): error entry (R254), and the host that keeps the chunk bound (R251).

Such a host never sees MISSED_WINDOW because `WindowRetained` holds between the internal steps of each of its chunks: the
window of the next word has not left the buffer.  SYNCHRONIZED, at most one word is pending when the loop starts, and the
window had not fully arrived before that, so of the three words of the buffer it is within the newest two.  SEARCHING, a
fire looks back from `PROCESSED` at most the buffer and the bias, and the first window begins one word later; that is enough
because `PROCESSED` is then `PUSHED`: exactly one window offset is pending when the bound lets the gate open.
-/

namespace Sys2Proof.Machine

/-- Settles O7: the first branch of `step`. -/
theorem stepNeedsCommand : Obligations.StepNeedsCommand := by
  intro s hport
  rw [step, hport]

/-- Settles O45: the frame of an ERROR event is its head and `PROCESSED`, and the head of each cause a constant. -/
theorem errorEntryReportsAndReverts : Obligations.ErrorEntryReportsAndReverts := by
  intro c s
  rw [raiseError, emit, errorFrame_eq]
  cases c <;> rfl

/-! ## The MISSED_WINDOW events of the record (60_exceptions.md R251) -/

/-- The number of MISSED_WINDOW events in `EVQ`. -/
def missedWindows (s : State) : Nat := s.evq.countP Event.isMissedWindow

theorem emit_missedWindows {e : Event} (s : State) (h : e.isMissedWindow = false) :
    missedWindows (emit e s) = missedWindows s := by
  simp [missedWindows, h]

theorem acceptValidation_missedWindows (target : Int) (byte : Byte) (s : State) :
    missedWindows (acceptValidation target byte s).2 = missedWindows s := by
  unfold acceptValidation
  split <;> exact emit_missedWindows _ rfl

theorem acceptPayload_missedWindows (target : Int) (byte : Byte) (s : State) :
    missedWindows (acceptPayload target byte s).2 = missedWindows s := by
  simp only [acceptPayload]
  split <;> exact emit_missedWindows _ rfl

theorem countCorrection_missedWindows (o : HamOutcome) (s : State) :
    missedWindows (countCorrection o s) = missedWindows s := by
  rw [missedWindows, countCorrection_evq, missedWindows]

/-- A word that is read raises the other two causes only (44_frame_decoder.md R187, R189). -/
theorem acceptWord_missedWindows (target : Int) (a : Byte × HamOutcome) (s : State) :
    missedWindows (acceptWord target a s).2 = missedWindows s := by
  rcases acceptWord_cases target a s with ⟨-, h⟩ | ⟨-, -, h⟩ | ⟨-, -, h⟩ <;> rw [h]
  · exact emit_missedWindows _ rfl
  · rw [acceptValidation_missedWindows, countCorrection_missedWindows]
  · rw [acceptPayload_missedWindows, countCorrection_missedWindows]

theorem evaluateTrigger_missedWindows (s : State) : missedWindows (evaluateTrigger s).2 = missedWindows s := by
  rcases evaluateTrigger_cases s with ⟨-, h⟩ | ⟨-, h⟩ <;> rw [h]
  exact emit_missedWindows _ rfl

/-- Where the record has grown without a MISSED_WINDOW, none of the new events is one. -/
theorem noMissedWindow_of_append {s t : State} {evs : List Event} (hevq : t.evq = s.evq ++ evs)
    (h : missedWindows t = missedWindows s) : evs.all (fun e => !e.isMissedWindow) = true := by
  have hnone : evs.countP Event.isMissedWindow = 0 := by
    rw [missedWindows, hevq, List.countP_append, ← missedWindows] at h
    omega
  simpa [List.countP_eq_zero] using hnone

/-! ## The end of the attempt (44_frame_decoder.md R187 to R191) -/

theorem acceptValidation_closes {target : Int} {byte : Byte} {s : State}
    (h : (acceptValidation target byte s).1 ≠ .pitch) : (acceptValidation target byte s).2.trig = -1 := by
  unfold acceptValidation at h ⊢
  split at h
  next hbyte => rw [if_pos hbyte, raiseError_trig]
  next => exact absurd rfl h

theorem acceptPayload_closes {target : Int} {byte : Byte} {s : State}
    (h : (acceptPayload target byte s).1 ≠ .pitch) : (acceptPayload target byte s).2.trig = -1 := by
  simp only [acceptPayload] at h ⊢
  split at h
  next hlast => rw [if_pos hlast]
  next => exact absurd rfl h

/-- A word without PITCH ends the attempt. -/
theorem acceptWord_closes {target : Int} {a : Byte × HamOutcome} {s : State}
    (h : (acceptWord target a s).1 ≠ .pitch) : (acceptWord target a s).2.trig = -1 := by
  rcases acceptWord_cases target a s with ⟨-, ha⟩ | ⟨-, -, ha⟩ | ⟨-, -, ha⟩ <;> rw [ha] at h ⊢
  · exact raiseError_trig _ s
  · exact acceptValidation_closes h
  · exact acceptPayload_closes h

/-- The word window moves on by one word with each PITCH of a synchronized step. -/
theorem syncStep_pitch_wordPosition {s t : State} (h : syncStep s = .ok (.pitch, t)) :
    wordPosition t = wordPosition s + s.plat.wordLength := by
  obtain ⟨-, -, hplat, -, htrig, hcursor, -⟩ := syncStep_pitch h
  simp only [wordPosition, hplat, htrig, hcursor]
  push_cast
  ring

/-- A synchronized step without PITCH ends the attempt, or leaves the window where it was, not fully arrived. -/
theorem syncStep_last {s t : State} {r : StepResult} (h : syncStep s = .ok (r, t)) (hr : r ≠ .pitch) :
    t.trig = -1 ∨ (wordPosition t = wordPosition s ∧ (s.pushed : Int) < wordPosition s + s.plat.wordLength) := by
  rcases syncStep_cases s with ⟨-, h'⟩ | ⟨-, hlate, h'⟩ | ⟨-, -, x, -, h'⟩ <;> rw [h'] at h <;> cases h
  · exact .inl rfl
  · exact .inr ⟨rfl, hlate⟩
  · exact .inl (acceptWord_closes hr)

/-! ## The look-back of a fire (43_synchronizer.md R168) -/

/-- A fire looks back at most the whole history, which is the buffer, and the bias. -/
theorem fireIndex_ge {s : State} (ha : s.plat.admitted = true) :
    (s.processed : Int) - s.plat.bufferLength - s.plat.syncBias ≤ fireIndex s := by
  obtain ⟨-, hoffset, -, hbuffer, hhist⟩ := platform_lengths ha
  have hback : ((s.plat.historyLength : Int) - maxIndexOf s.plat.num s.hist) * s.plat.windowOffset ≤
      12 * s.plat.windowOffset :=
    mul_le_mul_of_nonneg_right (by omega) (Int.natCast_nonneg _)
  simp only [fireIndex]
  omega

/-! ## The window is retained (60_exceptions.md R251) -/

/-- What holds between the internal steps of a chunk within the bound: SYNCHRONIZED, the next word's window has not left the
buffer; SEARCHING, whole window offsets are pending, so that a sweep consumes them all. -/
structure WindowRetained (s : State) : Prop where
  config : s.plat.admitted = true
  bias_le : s.plat.syncBias ≤ s.plat.wordLength
  retained : 0 ≤ s.trig → bufferBase s ≤ wordPosition s
  offsets : s.trig < 0 → s.plat.windowOffset ∣ s.pushed - s.processed

/-- With nothing pending, a fire puts the first window into the buffer. -/
theorem fire_windowRetained {s : State} (ha : s.plat.admitted = true) (hbias : s.plat.syncBias ≤ s.plat.wordLength)
    (hpushed : s.pushed ≤ s.processed) : bufferBase (fire s) ≤ wordPosition (fire s) := by
  have hback := fireIndex_ge ha
  obtain ⟨-, -, hdoor, -⟩ := platform_lengths ha
  simp only [bufferBase, wordPosition, fire_plat, fire_pushed, fire_trig, fire_cursor]
  omega

theorem searchStep_windowRetained {s t : State} {r : StepResult} (h : WindowRetained s) (ht : s.trig < 0)
    (hs : searchStep s = .ok (r, t)) : WindowRetained t ∧ missedWindows t = missedWindows s := by
  obtain ⟨u, -, hu, h'⟩ := searchStep_total s
  have hall : sweepCount s * s.plat.windowOffset = s.pushed - s.processed := Nat.div_mul_cancel (h.offsets ht)
  have hplat : u.plat = s.plat := by rw [hu]
  have htrig : u.trig = s.trig := by rw [hu]
  have hpushed : u.pushed ≤ u.processed := by rw [hu]; dsimp only; omega
  have hmissed : missedWindows u = missedWindows s := by rw [hu]; rfl
  have hconfig : u.plat.admitted = true := hplat ▸ h.config
  have hbias : u.plat.syncBias ≤ u.plat.wordLength := hplat ▸ h.bias_le
  have hnone : u.plat.windowOffset ∣ u.pushed - u.processed := by rw [Nat.sub_eq_zero_of_le hpushed]; exact dvd_zero _
  have hsame := evaluateTrigger_missedWindows u
  rw [h'] at hs
  rcases evaluateTrigger_cases u with ⟨-, he⟩ | ⟨-, he⟩ <;> rw [he] at hs hsame <;> cases hs
  · exact ⟨⟨hconfig, hbias, fun _ => fire_windowRetained hconfig hbias hpushed, fun _ => hnone⟩, hsame.trans hmissed⟩
  · exact ⟨⟨hconfig, hbias, fun hnonneg => by omega, fun _ => hnone⟩, hmissed⟩

/-- A window that is retained is not missed. -/
theorem syncStep_missedWindows {s t : State} {r : StepResult} (hretained : bufferBase s ≤ wordPosition s)
    (hs : syncStep s = .ok (r, t)) : missedWindows t = missedWindows s := by
  rcases syncStep_cases s with ⟨hleft, -⟩ | ⟨-, -, h'⟩ | ⟨-, -, x, -, h'⟩
  · exact absurd hleft (not_lt.2 hretained)
  · rw [h'] at hs; cases hs; rfl
  · rw [h'] at hs; cases hs; exact acceptWord_missedWindows _ _ s

theorem syncStep_windowRetained {s t : State} {r : StepResult} (h : WindowRetained s) (ht : 0 ≤ s.trig)
    (hs : syncStep s = .ok (r, t)) : WindowRetained t := by
  obtain ⟨⟨hplat, -, -⟩, hpushed, -⟩ := syncStep_stepFrame hs
  have hbase : bufferBase t = bufferBase s := by rw [bufferBase, hpushed, hplat, bufferBase]
  have hretained := h.retained ht
  have hprocessed := syncStep_processed hs
  refine ⟨hplat ▸ h.config, hplat ▸ h.bias_le, fun hnonneg => ?_, fun _ => by simp [hpushed, hprocessed]⟩
  by_cases hr : r = .pitch
  · subst hr
    have hnext := syncStep_pitch_wordPosition hs
    omega
  · rcases syncStep_last hs hr with hclosed | ⟨hsame, -⟩ <;> omega

/-- Every internal step keeps the window retained and raises no MISSED_WINDOW. -/
theorem internalStep_windowRetained {s t : State} {r : StepResult} (h : WindowRetained s)
    (hs : internalStep s = .ok (r, t)) : WindowRetained t ∧ missedWindows t = missedWindows s := by
  rcases stepRun_iff.2 hs with ⟨ht, hsearch⟩ | ⟨ht, hsync⟩
  · exact searchStep_windowRetained h ht hsearch
  · exact ⟨syncStep_windowRetained h ht hsync, syncStep_missedWindows (h.retained ht) hsync⟩

/-! ## The window is ahead when the loop ends -/

/-- While SYNCHRONIZED, the next word's window had not fully arrived when samples were last consumed. -/
def WindowAhead (s : State) : Prop := 0 ≤ s.trig → (s.processed : Int) < wordPosition s + s.plat.wordLength

/-- The step that ends the run loop leaves the window ahead: a search step without a fire is still SEARCHING. -/
theorem internalStep_windowAhead {s t : State} {r : StepResult} (hs : internalStep s = .ok (r, t)) (hr : r ≠ .pitch) :
    WindowAhead t := by
  intro hnonneg
  rcases stepRun_iff.2 hs with ⟨ht, hsearch⟩ | ⟨-, hsync⟩
  · obtain ⟨u, -, hu, h'⟩ := searchStep_total s
    have htrig : u.trig = s.trig := by rw [hu]
    rw [h'] at hsearch
    rcases evaluateTrigger_cases u with ⟨-, he⟩ | ⟨-, he⟩ <;> rw [he] at hsearch <;> cases hsearch
    · exact absurd rfl hr
    · omega
  · have hprocessed := syncStep_processed hsync
    have hplat := (syncStep_stepFrame hsync).plat
    rcases syncStep_last hsync hr with hclosed | ⟨hsame, hlate⟩
    · omega
    · rw [hplat]; omega

/-- The window has been retained with no MISSED_WINDOW beyond the first `n`. -/
def RetainedWith (n : Nat) (s : State) : Prop := WindowRetained s ∧ missedWindows s = n

theorem internalStep_retainedWith {n : Nat} {s t : State} {r : StepResult} (hs : RetainedWith n s)
    (h : internalStep s = .ok (r, t)) : RetainedWith n t := by
  obtain ⟨hretained, hmissed⟩ := hs
  obtain ⟨hkept, hsame⟩ := internalStep_windowRetained hretained h
  exact ⟨hkept, hsame.trans hmissed⟩

/-- The run loop ends with the window ahead and without a MISSED_WINDOW. -/
theorem runLoop_windowAhead {fuel : Nat} {s t : State} (h : WindowRetained s) (hrun : runLoop fuel s = .ok t) :
    WindowAhead t ∧ missedWindows t = missedWindows s := by
  have hstart : RetainedWith (missedWindows s) s := ⟨h, rfl⟩
  exact runLoop_induction (Q := fun u => WindowAhead u ∧ missedWindows u = missedWindows s) internalStep_retainedWith
    (fun hu hi hr => ⟨internalStep_windowAhead hi hr, (internalStep_retainedWith hu hi).2⟩) hstart hrun

/-! ## A chunk within the bound (42_sample_buffer.md R150, R151) -/

/-- A chunk within the bound that opens the gate makes exactly the threshold pending. -/
theorem pending_of_maxChunk {chunk : List Binary64} {s : State} (hbound : (chunk.length : Int) ≤ maxChunk s)
    (hgate : gateOpen (pushSamples chunk s) = true) : pending (pushSamples chunk s) = threshold s := by
  have hcounted : countedSamples s.plat chunk.length ≤ chunk.length := Nat.min_le_left _ _
  have hopen : (threshold s : Int) ≤ pending (pushSamples chunk s) := of_decide_eq_true hgate
  simp only [maxChunk, pending, pushSamples_pushed, pushSamples_processed] at hbound hopen ⊢
  omega

/-- When a chunk within the bound opens the gate, the run loop starts with the window retained. -/
theorem pushSamples_windowRetained {chunk : List Binary64} {s : State} (h : BoundKept s)
    (hbound : (chunk.length : Int) ≤ maxChunk s) (hgate : gateOpen (pushSamples chunk s) = true) :
    WindowRetained (pushSamples chunk s) := by
  have hpending := pending_of_maxChunk hbound hgate
  obtain ⟨-, -, -, hbuffer, -⟩ := platform_lengths h.inv.config
  refine ⟨h.inv.config, h.bias_le, fun ht => ?_, fun ht => ?_⟩
  · have hahead := h.window_ahead ht
    have hposition : wordPosition (pushSamples chunk s) = wordPosition s := rfl
    have hword := threshold_le_wordLength s
    rw [hposition]
    simp only [pending, bufferBase, pushSamples_processed, pushSamples_plat] at hpending ⊢
    omega
  · have hthreshold : threshold s = s.plat.windowOffset := if_pos (decide_eq_true ht)
    have hsub : (pushSamples chunk s).pushed - (pushSamples chunk s).processed = s.plat.windowOffset := by
      simp only [pending] at hpending
      omega
    rw [hsub]
    exact dvd_rfl

/-- The effect of a chunk within the bound. -/
theorem pushEffect_windowAhead {chunk : List Binary64} {s t : State} (h : BoundKept s)
    (hbound : (chunk.length : Int) ≤ maxChunk s) (he : pushEffect chunk s = .ok t) :
    WindowAhead t ∧ missedWindows t = missedWindows s := by
  rcases pushEffect_cases he with ⟨-, rfl⟩ | ⟨hgate, hrun⟩
  · exact ⟨h.window_ahead, rfl⟩
  · exact runLoop_windowAhead (s := pushSamples chunk s) (pushSamples_windowRetained h hbound hgate) hrun

/-- Settles O60: the chunk starts the run loop with the window retained, which every internal step keeps. -/
theorem chunkBoundNeverMissesWindow : Obligations.ChunkBoundNeverMissesWindow := by
  intro o s h hacc hbound
  obtain ⟨t, heffect, hexec⟩ := exec_push_of_accepted hacc
  obtain ⟨-, -, hcount, -⟩ := hacc
  have hlength : (o.data.map ofBits).length = o.n.toNat := by rw [List.length_map]; exact not_not.1 hcount
  obtain ⟨hahead, hmissed⟩ := pushEffect_windowAhead h (hlength.symm ▸ hbound) heffect
  obtain ⟨evs, hemits, -⟩ := pushEffect_emits heffect
  have hkept : BoundKept { t with respPort := t.respPort ++ [[0]] } :=
    ⟨exec_restInvariant h.inv hexec, hemits.plat.symm ▸ h.bias_le, hahead⟩
  exact ⟨_, evs, hexec, hkept, hemits.evq, noMissedWindow_of_append hemits.evq hmissed⟩

end Sys2Proof.Machine
end
